-- ==== Sys2Proof/Word.lean ====
section
/-!
DEFINITION. The widths of the CSC core: a byte of memory, an operand register of RW = 64 bits
(00_scope.md R7, decided D3) and the 32-bit command word (30_encoding.md R56).
-/
namespace Sys2Proof

/-- One byte of memory (00_scope.md R9). -/
abbrev Byte := BitVec 8

/-- The contents of an operand register, RW = 64 bits (10_state.md R14, 00_scope.md R7). -/
abbrev Word := BitVec 64

/-- A command word, or the contents of `CMD` or `STATUS` (10_state.md R18, R19). -/
abbrev CmdWord := BitVec 32

end Sys2Proof
end

