-- ==== Sys2Proof/Config.lean ====
section
/-!
DEFINITION. What the spec leaves to the implementation (00_scope.md R7) and the free values.
The parameters are plain data, held in the state and changed by no step, so that a statement about
every state is a statement about every value of them ("OPEN, model argument").
-/
namespace Sys2Proof

/-- The parameters of 00_scope.md R7. `RW` is 64, the width of `Word`; `N_INST` is one more than the
number of further instances the state holds (DESIGN CHOICE, log 16). -/
structure Params where
  /-- `AW`, the width of an address: addresses are the naturals below `2^aw`. -/
  aw : Nat
  /-- `GW`, the width of a geometry operand. -/
  gw : Nat
  /-- `CW`, the width of the clamp unit's signed input port (40_clamp.md R74). -/
  cw : Nat
  /-- `PITCH_ALIGN`, the alignment asked of every pitch (20_memory.md R38). -/
  pitchAlign : Nat
  /-- `DEBUG_ASSERT`: the model needs no behaviour for it, since it faults on exactly those clauses
  anyway (60_exceptions.md R144). -/
  debugAssert : Bool
  /-- `REG_BASE`, none where the platform does not map the registers. -/
  regBase : Option Nat
  /-- `REG_STRIDE`. -/
  regStride : Option Nat
  deriving DecidableEq, Repr

/-- The values of 00_scope.md R7's default column. -/
def Params.default : Params where
  aw := 64
  gw := 32
  cw := 32
  pitchAlign := 1
  debugAssert := false
  regBase := none
  regStride := none

/-- `REG_BASE + n*REG_STRIDE`, where the platform maps register `n` if it maps the registers at all
(00_scope.md R7); no other rule uses it. -/
def Params.regAddress (p : Params) (n : Nat) : Option Nat :=
  match p.regBase, p.regStride with
  | some base, some stride => some (base + n * stride)
  | _, _ => none

/-- What a byte that nothing has written reads as: no rule gives memory its contents before the host
writes them (DESIGN CHOICE, unsafe, log 3). -/
def Config.unlistedByte : Byte := 0

/-- FREE VALUE: what a host read of an operand register never written since reset returns, one value
per read (43_host_interface.md R115: "any value, and the value may differ between two reads"; log 7). -/
opaque Config.freeWord : Nat → Word

/-- FREE VALUE: the bytes of the output set after a reset taken while BUSY
(70_reset_and_hazards.md R152: "any value"; log 7). -/
opaque Config.freeByte : Nat → Byte

end Sys2Proof
end

