-- ==== Sys2Proof/Syntax.lean ====
section
/-!
DEFINITION. The instructions of the CSC core: one constructor per row of spec/opcode_table.json.
-/
namespace Sys2Proof

/-- A command (30_encoding.md R55). The command word has no operand field (R56): the operands are
the values of the operand registers, which the engine reads live (10_state.md R16). -/
inductive Instr where
  /-- `YUV420_TO_RGB`, command word 0x00000001 (41_yuv420_to_rgb.md R77). -/
  | yuv420ToRgb
  /-- `BGRA_TO_RGB`, command word 0x00000002 (42_bgra_to_rgb.md R100). -/
  | bgraToRgb
  deriving DecidableEq, Repr

end Sys2Proof
end

