-- ==== Sys2Proof/WellFormed.lean ====
section
/-!
DEFINITION. What a well-formed command word and a well-formed set of parameters are. An `Instr` has
no field, so every one is well formed; what can be ill formed is the word that stands for it.
-/
namespace Sys2Proof

/-- Bits 31:8 of a command word are zero (30_encoding.md R56). -/
def CmdWord.rsvdZero (w : CmdWord) : Bool := w.extractLsb' 8 24 == 0

/-- Bits 7:0 of a command word name an operation (30_encoding.md R61). -/
def CmdWord.opcodeKnown (w : CmdWord) : Bool := w.extractLsb' 0 8 == 1 || w.extractLsb' 0 8 == 2

/-- A command word that is not reserved (30_encoding.md R61, R62). -/
def CmdWord.wf (w : CmdWord) : Bool := CmdWord.rsvdZero w && CmdWord.opcodeKnown w

/-- The limits the spec puts on its parameters: `AW <= RW`, `GW <= RW`, `CW >= 10`, and positive
widths and alignment (00_scope.md R7). -/
def Params.wf (p : Params) : Bool :=
  (1 ≤ p.aw && p.aw ≤ 64) && (1 ≤ p.gw && p.gw ≤ 64) && 10 ≤ p.cw && 1 ≤ p.pitchAlign

end Sys2Proof
end

