-- ==== Sys2Proof/Decode.lean ====
section
/-!
DEFINITION. Decoding a command word (30_encoding.md R56, R61, R62, R66) and encoding a command. The
word is a register value, not a sequence of bytes (20_memory.md R37), so no byte order enters.
-/
namespace Sys2Proof

/-- Why a value written to `CMD` is no command (30_encoding.md R62). -/
inductive Reject where
  /-- Some bit of `RSVD` (31:8) is set. -/
  | reservedBits (rsvd : BitVec 24)
  /-- `OPCODE` is 0x00 or 0x03 to 0xFF. -/
  | reservedOpcode (opcode : BitVec 8)
  /-- The value does not fit the 32 bits of `CMD`. -/
  | tooWide (value : Word)
  deriving DecidableEq, Repr

/-- `OPCODE`, bits 7:0 (30_encoding.md R56). -/
def CmdWord.opcode (w : CmdWord) : BitVec 8 := w.extractLsb' 0 8

/-- `RSVD`, bits 31:8 (30_encoding.md R56). -/
def CmdWord.rsvd (w : CmdWord) : BitVec 24 := w.extractLsb' 8 24

/-- The code point of each operation (30_encoding.md R61). -/
def Instr.opcode : Instr → BitVec 8
  | .yuv420ToRgb => 0x01
  | .bgraToRgb => 0x02

/-- The operation a code point selects (30_encoding.md R61); every other value is reserved (R62). -/
def instrOfOpcode (op : BitVec 8) : Except Reject Instr :=
  if op = 0x01 then .ok .yuv420ToRgb
  else if op = 0x02 then .ok .bgraToRgb
  else .error (.reservedOpcode op)

/-- Decoding looks at nothing but the word, and at all 32 bits of it (30_encoding.md R61, R66). -/
def decode (w : CmdWord) : Except Reject Instr :=
  if CmdWord.rsvd w = 0 then instrOfOpcode (CmdWord.opcode w)
  else .error (.reservedBits (CmdWord.rsvd w))

/-- The command a value names when a host writes it to register 8: `CMD` has 32 bits, so a wider
value is no command word (30_encoding.md R68; DESIGN CHOICE, log 18). -/
def decodeValue (v : Word) : Except Reject Instr :=
  if v.toNat < 2 ^ 32 then decode (v.setWidth 32) else .error (.tooWide v)

/-- The command word of an operation (30_encoding.md R56, R61). -/
def encode (i : Instr) : CmdWord := (0 : BitVec 24) ++ i.opcode

/-- The instruction the decoder reads from a table row's bits: the first `nbits` bits of `w`, every
bit above them zero. A command is one 32-bit word (30_encoding.md R55, R64). -/
def decodeTableWord (nbits w : Nat) : Option Instr :=
  match decodeValue (BitVec.ofNat 64 (w % 2 ^ nbits)), decide (w % 2 ^ nbits < 2 ^ 32) with
  | .ok i, true => some i
  | _, _ => none

end Sys2Proof
end

