-- ==== Sys2Proof/Machine/State.lean ====
section
/-!
DEFINITION. The state of the CSC core as plain data (10_state.md), the agents' actions that are still
to happen, the faults of 60_exceptions.md R132 and the state after reset.
-/
namespace Sys2Proof.Machine

/-- Memory: the bytes that differ from what an unlisted address reads as, by strictly rising address
(10_state.md R26). -/
abbrev Memory := List Host.Cell

/-- The plane a read belongs to ("which plane", 60_exceptions.md R132 code 6). -/
inductive Plane where
  | y
  | u
  | v
  | bgra
  deriving DecidableEq, Repr

/-- One byte access of a pixel step: the address on unbounded integers (20_memory.md R39), the pixel's
column and row, and the plane. -/
structure Touch where
  addr : Int
  column : Nat
  row : Nat
  plane : Plane
  deriving DecidableEq, Repr

/-- Ordinary memory, or a device, whose reads may have side effects (20_memory.md R41). -/
inductive RegionKind where
  | ordinary
  | device
  deriving DecidableEq, Repr

/-- Addresses `base` to `base + size - 1`: for ordinary memory a buffer the caller allocated and what
an engine may do there (20_memory.md R54). -/
structure Region where
  base : Nat
  size : Nat
  kind : RegionKind
  readable : Bool
  writable : Bool
  deriving DecidableEq, Repr

/-- One action of an agent. A list of them is an interleaving (20_memory.md R45, 60_exceptions.md
R141); `k` is the number of a CSC core instance. -/
inductive Event where
  /-- `WR reg, value` (30_encoding.md R68); register 8 is START. -/
  | wr (k reg : Nat) (value : Word)
  /-- `RD reg` (43_host_interface.md R115). -/
  | rd (k reg : Nat)
  /-- `WAIT` (30_encoding.md R69, 43_host_interface.md R118). -/
  | wait (k : Nat)
  /-- The host writes a byte of memory (20_memory.md R35). -/
  | memWrite (address : Nat) (value : Byte)
  /-- The host reads a byte of memory (20_memory.md R35). -/
  | memRead (address : Nat)
  /-- The host allocates a buffer, or the platform names a device region (20_memory.md R54, R41). -/
  | alloc (region : Region)
  /-- The host frees the buffers at a base address (43_host_interface.md R118, R123). -/
  | free (base : Nat)
  /-- The engine of instance `k` takes its enabled step, if it has one (43_host_interface.md R125). -/
  | engine (k : Nat)
  /-- The platform resets the CSC core instances (70_reset_and_hazards.md R150). -/
  | reset
  deriving DecidableEq, Repr

/-- The geometry operands a `BadGeometry` may name. -/
inductive OperandName where
  | width
  | height
  | pp
  | pr
  | rowBytes
  deriving DecidableEq, Repr

/-- The equations an `IndexOverflow` may name ("which equation", 60_exceptions.md R132 code 5). -/
inductive Equation where
  /-- `yi = j*PR + i` (R82). -/
  | luma
  /-- `ci = PP*(i div 2) + PR*(j div 2)` (R83). -/
  | chroma
  /-- `oi = j*W + i` and `3*oi + 2` (R84), or the size of the output (R105). -/
  | output
  /-- `r*ROW_BYTES + 4*c + k` (R104). -/
  | bgra
  /-- the end of the output buffer in the address space (R80 CY3, R102 CB4). -/
  | outputEnd
  deriving DecidableEq, Repr

/-- The agents of a conflict (60_exceptions.md R132 code 9). -/
inductive Agent where
  | host
  | engine (k : Nat)
  deriving DecidableEq, Repr

/-- What an `IllegalCommand` records: "the word or register number" (60_exceptions.md R132 code 1). -/
inductive Reserved where
  | word (value : Word)
  | register (n : Nat)
  deriving DecidableEq, Repr

/-- The model's faults: the nine classes of 60_exceptions.md R132 with the information R132 lists, and
one more of the model's own. Every one is SAFE: the hardware reports nothing and goes on (R130), the
model stops, so no claim about what follows can be proved (R133). -/
inductive Fault where
  /-- Code 1, raised by a host action: a reserved command word, a write to `STATUS`, a register number
  10 or above (R62, R63). Safe. -/
  | illegalCommand (what : Reserved)
  /-- Code 2, raised by a host write to `ARG[n]` or `CMD` while BUSY (R116, R117). Safe. -/
  | hostWriteWhileBusy (reg : Nat) (value : Word)
  /-- Code 3, raised by START when a register the operation reads was never written since reset
  (R31, R80 CY2, R102 CB3). Safe. -/
  | unwrittenOperand (reg : Nat)
  /-- Code 4, raised by START on a geometry the contract excludes (R80 CY1, CY8; R102 CB1, CB2, CB9).
  Safe. -/
  | badGeometry (op : Instr) (operand : OperandName)
  /-- Code 5, raised by START (R80 CY3, R102 CB4). Safe. -/
  | indexOverflow (op : Instr) (equation : Equation)
  /-- Code 6, raised by the engine's read, or by the host that frees a buffer of a running operation or
  allocates it only now (R54, R155 HZ5). Safe. -/
  | readOutOfBuffer (address : Int) (column row : Nat) (plane : Plane)
  /-- Code 7, raised by the engine's write, or by the host that frees a buffer of a running operation or
  allocates it only now (R54, R155 HZ5). Safe. -/
  | writeOutOfBuffer (address : Int) (column row : Nat)
  /-- Code 8, raised by START: one address that is in the output set and in an input set (R52). Safe. -/
  | inOutOverlap (address : Int)
  /-- Code 9, raised by the conflicting access: the agent that makes it, then the agent whose running
  operation it disturbs (R45, R141). Safe. -/
  | concurrentConflict (address : Int) (byAgent ofAgent : Agent)
  /-- The model's own, no class of R132: an access to an address outside `[0, 2^AW)`, which R26 says
  does not exist (log 9). Safe. -/
  | noSuchAddress (address : Int)
  deriving DecidableEq, Repr

/-- Why a step has no meaning. -/
inductive Refusal where
  /-- An instruction whose meaning is not written yet; raised by `exec`'s refused arms only. Safe. -/
  | notModelled (mnemonic : String)
  /-- An access to device memory: the spec "gives it no meaning (model: refuse)" (20_memory.md R41,
  93_implementation_defined.md S8). Raised by the engine's and the host's accesses. Safe. -/
  | deviceMemory (address : Nat)
  /-- An action names a CSC core instance that the platform does not have (R141); raised by `step`.
  Safe. -/
  | noSuchBlock (k : Nat)
  deriving DecidableEq, Repr

/-- How an access or an engine step stops. -/
inductive Stop where
  | fault (f : Fault)
  | refused (r : Refusal)
  deriving DecidableEq, Repr

/-- The operands of `YUV420_TO_RGB` (41_yuv420_to_rgb.md R78). -/
structure YuvOperands where
  yBase : Nat
  uBase : Nat
  vBase : Nat
  width : Int
  height : Int
  pp : Int
  pr : Int
  rgbBase : Nat
  deriving DecidableEq, Repr

/-- The operands of `BGRA_TO_RGB` (42_bgra_to_rgb.md R101). -/
structure BgraOperands where
  bgraBase : Nat
  width : Int
  height : Int
  rowBytes : Int
  rgbBase : Nat
  deriving DecidableEq, Repr

/-- An operation with its operands. -/
inductive Operation where
  | yuv (operands : YuvOperands)
  | bgra (operands : BgraOperands)
  deriving DecidableEq, Repr

/-- An operation that has taken its finish step, and the number of the instance that ran it. -/
structure Ended where
  block : Nat
  operation : Operation
  deriving DecidableEq, Repr

/-- An operation that has ended while the operation of instance `of` was running and still is: the two
ran at once, so their bytes must be disjoint (60_exceptions.md R141). -/
structure Rival where
  of : Nat
  ended : Ended
  deriving DecidableEq, Repr

/-- One CSC core instance: its registers and its sequencer (10_state.md R14 to R20). -/
structure Block where
  /-- `ARG[0]` to `ARG[7]` (R14). -/
  arg : Vector Word 8
  /-- Which of them the host has written since reset (R31). -/
  written : Vector Bool 8
  /-- `CMD` (R18). -/
  cmd : CmdWord
  /-- `STATUS` (R19). -/
  status : CmdWord
  /-- `SEQ.I`, `SEQ.J`, used by `YUV420_TO_RGB` (R20). -/
  seqI : Nat
  seqJ : Nat
  /-- `SEQ.R`, `SEQ.C`, `SEQ.OPTR`, used by `BGRA_TO_RGB` (R20; the pointer may end at `2^AW`, DEDUCED,
  log 10). -/
  seqR : Nat
  seqC : Nat
  seqOptr : Nat
  deriving DecidableEq, Repr

/-- The machine. -/
structure State where
  /-- The model arguments of 00_scope.md R7; no step changes them. -/
  params : Params
  /-- The CSC core instance that acts. -/
  block : Block
  /-- The further instances (60_exceptions.md R141). -/
  peers : List Block
  /-- The memory all of them and the host share (10_state.md R26). -/
  mem : Memory
  /-- The caller's buffers and the platform's device regions (20_memory.md R54, R41). -/
  regions : List Region
  /-- The model's sticky fault record (10_state.md R30). -/
  record : Option Fault
  /-- MODEL'S OWN: the actions still to happen, the first one next (log 5). -/
  events : List Event
  /-- MODEL'S OWN: what the last host read returned (43_host_interface.md R115; log 6). -/
  readData : Option Word
  /-- MODEL'S OWN: picks the next free value (log 7). -/
  free : Nat
  /-- MODEL'S OWN: the ended operations whose `DONE` the host has not read since: their bytes are still
  the engine's (20_memory.md R45, 70_reset_and_hazards.md R155 HZ3; log 13). -/
  unread : List Ended
  /-- MODEL'S OWN: the ended operations that ran at once with one still running (60_exceptions.md R141;
  log 24). -/
  rivals : List Rival
  /-- MODEL'S OWN: the number of the instance that `block` holds, 0 between steps (log 8). -/
  sel : Nat
  deriving DecidableEq, Repr

/-- A CSC core instance after reset (10_state.md R31). `CMD` and `STATUS` are the spec's; the zeros of
the operand registers and of the sequencer, which R31 leaves unspecified, are DESIGN CHOICES
(logs 1 and 2). -/
def Block.reset : Block where
  arg := Vector.replicate 8 0
  written := Vector.replicate 8 false
  cmd := 0
  status := 0
  seqI := 0
  seqJ := 0
  seqR := 0
  seqC := 0
  seqOptr := 0

/-- The machine right after reset (10_state.md R31): one idle instance, nothing listed in memory,
nothing allocated, no fault recorded, nothing to happen. -/
def State.reset : State where
  params := Params.default
  block := Block.reset
  peers := []
  mem := []
  regions := []
  record := none
  events := []
  readData := none
  free := 0
  unread := []
  rivals := []
  sel := 0

end Sys2Proof.Machine
end

