-- ==== Sys2Proof/Machine/Flags.lean ====
section
/-!
DEFINITION. The fields of `STATUS` (10_state.md R19) and the two changes an instance makes to them.
The CSC core has no flags and no condition codes (R23): these two bits are its whole status.
-/
namespace Sys2Proof.Machine

/-- `STATUS` with the given `BUSY` (bit 0) and `DONE` (bit 1); bits 31:2 read as zero (R19). -/
def statusWord (busy done : Bool) : CmdWord :=
  (if done then 2 else 0) ||| (if busy then 1 else 0)

/-- `STATUS.BUSY` (R19). -/
def Block.busy (b : Block) : Bool := b.status.getLsbD 0

/-- `STATUS.DONE` (R19). -/
def Block.done (b : Block) : Bool := b.status.getLsbD 1

/-- `STATUS.BUSY <- busy; STATUS.DONE <- done` (43_host_interface.md R117, 41_yuv420_to_rgb.md R92). -/
def Block.setStatus (b : Block) (busy done : Bool) : Block :=
  { b with status := statusWord busy done }

end Sys2Proof.Machine
end

