-- ==== Sys2Proof/Machine/Operands.lean ====
section
/-!
DEFINITION. Operand assembly (30_encoding.md R57 to R59), the operand records of the two operations
(10_state.md R15), the index equations (41_yuv420_to_rgb.md R82 to R84, 42_bgra_to_rgb.md R104, R105)
and the sets of bytes an operation touches (10_state.md R28). All arithmetic is on unbounded integers
(00_scope.md R8).
-/
namespace Sys2Proof.Machine

/-- `A(n)`: the low `AW` bits of an operand register as a natural (30_encoding.md R58). -/
def addressOf (p : Params) (w : Word) : Nat := (w.setWidth p.aw).toNat

/-- `S(n)`: the low `GW` bits of an operand register as a two's complement integer
(30_encoding.md R59). -/
def geometryOf (p : Params) (w : Word) : Int := (w.setWidth p.gw).toInt

/-- A sample: a byte of memory read as an unsigned natural (10_state.md R27). -/
def sample (b : Byte) : Int := b.toNat

/-- `a >> k`: floor division by `2^k` (00_scope.md R8). -/
def shiftRight (a : Int) (k : Nat) : Int := a / 2 ^ k

/-- `v` fits a `gw`-bit signed integer (20_memory.md R39). -/
abbrev Fits (gw : Nat) (v : Int) : Prop := -2 ^ (gw - 1) ≤ v ∧ v < 2 ^ (gw - 1)

/-- `Y_BASE = A(0)` to `RGB_BASE = A(7)`, read live from the registers (R77, 10_state.md R15, R16). -/
def Block.yuvOperands (p : Params) (b : Block) : YuvOperands where
  yBase := addressOf p b.arg[0]
  uBase := addressOf p b.arg[1]
  vBase := addressOf p b.arg[2]
  width := geometryOf p b.arg[3]
  height := geometryOf p b.arg[4]
  pp := geometryOf p b.arg[5]
  pr := geometryOf p b.arg[6]
  rgbBase := addressOf p b.arg[7]

/-- `BGRA_BASE = A(0)` to `RGB_BASE = A(4)` (R100, 10_state.md R15, R16). -/
def Block.bgraOperands (p : Params) (b : Block) : BgraOperands where
  bgraBase := addressOf p b.arg[0]
  width := geometryOf p b.arg[1]
  height := geometryOf p b.arg[2]
  rowBytes := geometryOf p b.arg[3]
  rgbBase := addressOf p b.arg[4]

/-- The operand registers an operation reads (30_encoding.md R57, 10_state.md R16). -/
def operandRegisters : Instr → List (Fin 8)
  | .yuv420ToRgb => [0, 1, 2, 3, 4, 5, 6, 7]
  | .bgraToRgb => [0, 1, 2, 3, 4]

/-- `yi = j*PR + i` (R82). -/
def YuvOperands.yi (o : YuvOperands) (i j : Nat) : Int := j * o.pr + i

/-- `ci = PP*(i div 2) + PR*(j div 2)` (R83): `PP` on the column term and the luma pitch `PR` on the
row term, as written (90_conflicts.md C1). -/
def YuvOperands.ci (o : YuvOperands) (i j : Nat) : Int :=
  o.pp * (i / 2 : Nat) + o.pr * (j / 2 : Nat)

/-- `oi = j*W + i` (R84). -/
def YuvOperands.oi (o : YuvOperands) (i j : Nat) : Int := j * o.width + i

/-- The three reads of pixel (i, j): Y, then U, then V (R85, 20_memory.md R44). -/
def YuvOperands.luma (o : YuvOperands) (i j : Nat) : Touch := ⟨o.yBase + o.yi i j, i, j, .y⟩
def YuvOperands.chromaU (o : YuvOperands) (i j : Nat) : Touch := ⟨o.uBase + o.ci i j, i, j, .u⟩
def YuvOperands.chromaV (o : YuvOperands) (i j : Nat) : Touch := ⟨o.vBase + o.ci i j, i, j, .v⟩

/-- The address of the R byte of pixel (i, j) (R84). -/
def YuvOperands.outAddr (o : YuvOperands) (i j : Nat) : Int := o.rgbBase + 3 * o.oi i j

/-- The read of byte `k` of pixel (r, c): `BGRA_BASE + r*ROW_BYTES + 4*c + k` (R104). -/
def BgraOperands.lane (o : BgraOperands) (r c k : Nat) : Touch :=
  ⟨o.bgraBase + r * o.rowBytes + 4 * c + k, c, r, .bgra⟩

/-- The bytes one operation touches (10_state.md R28): its reads, and the output buffer of
`3*WIDTH*HEIGHT` bytes from `RGB_BASE`. -/
structure Footprint where
  reads : List Touch
  outBase : Nat
  outLen : Nat
  width : Nat
  deriving DecidableEq, Repr

/-- Every read of `YUV420_TO_RGB`, in the engine's order (R77, R79). -/
def YuvOperands.reads (o : YuvOperands) : List Touch :=
  (List.range o.width.toNat).flatMap fun i =>
    (List.range o.height.toNat).flatMap fun j => [o.luma i j, o.chromaU i j, o.chromaV i j]

/-- The bytes of `YUV420_TO_RGB` (10_state.md R28). -/
def YuvOperands.footprint (o : YuvOperands) : Footprint :=
  ⟨o.reads, o.rgbBase, 3 * o.width.toNat * o.height.toNat, o.width.toNat⟩

/-- Every read of `BGRA_TO_RGB`, in the engine's order (R100, R103); the alpha byte is one of them
(R108). -/
def BgraOperands.reads (o : BgraOperands) : List Touch :=
  (List.range o.height.toNat).flatMap fun r =>
    (List.range o.width.toNat).flatMap fun c =>
      [o.lane r c 0, o.lane r c 1, o.lane r c 2, o.lane r c 3]

/-- The bytes of `BGRA_TO_RGB` (10_state.md R28). -/
def BgraOperands.footprint (o : BgraOperands) : Footprint :=
  ⟨o.reads, o.rgbBase, 3 * o.width.toNat * o.height.toNat, o.width.toNat⟩

/-- The bytes of an operation (10_state.md R28). -/
def Operation.footprint : Operation → Footprint
  | .yuv o => o.footprint
  | .bgra o => o.footprint

/-- Operation `i` with the operands the registers hold. -/
def Block.operationOf (p : Params) (b : Block) : Instr → Operation
  | .yuv420ToRgb => .yuv (b.yuvOperands p)
  | .bgraToRgb => .bgra (b.bgraOperands p)

/-- The bytes operation `i` touches under the operands the registers hold. -/
def Block.footprintOf (p : Params) (b : Block) (i : Instr) : Footprint :=
  (b.operationOf p i).footprint

/-- The bytes of the running operation, none while not BUSY. -/
def Block.footprint? (p : Params) (b : Block) : Option Footprint :=
  if b.busy then
    match decode b.cmd with
    | .ok i => some (b.footprintOf p i)
    | .error _ => none
  else none

/-- `a` is an output byte (10_state.md R28). -/
abbrev Footprint.HasOutput (f : Footprint) (a : Int) : Prop :=
  (f.outBase : Int) ≤ a ∧ a < f.outBase + f.outLen

/-- `a` is an input byte (10_state.md R28). -/
abbrev Footprint.HasInput (f : Footprint) (a : Int) : Prop := ∃ t ∈ f.reads, t.addr = a

/-- A read of `a` by another agent disturbs the operation: `a` is an output byte of it (R132 code 9). -/
def Footprint.clashesRead (f : Footprint) (a : Int) : Bool := decide (f.HasOutput a)

/-- A write of `a` by another agent disturbs the operation: `a` is an input or an output byte of it
(R132 code 9). -/
def Footprint.clashesWrite (f : Footprint) (a : Int) : Bool :=
  decide (f.HasOutput a) || decide (f.HasInput a)

/-- One address shared by the input and the output set, if there is one (20_memory.md R52): the first in
the engine's order (DESIGN CHOICE, log 22). -/
def Footprint.overlap? (f : Footprint) : Option Int :=
  (f.reads.find? fun t => decide (f.HasOutput t.addr)).map Touch.addr

/-- The pixel an output byte belongs to, column and row: the output is tightly packed and row-major
(R84, R105). -/
def Footprint.outColumn (f : Footprint) (n : Nat) : Nat := n / 3 % f.width
def Footprint.outRow (f : Footprint) (n : Nat) : Nat := n / 3 / f.width

end Sys2Proof.Machine
end

