-- ==== Sys2Proof/Machine/Ops.lean ====
section
/-!
DEFINITION. The named operations over memory, registers and instances: reading and writing a byte,
the engine's guarded accesses (20_memory.md R35 to R54), the host's register accesses
(43_host_interface.md R115, R116), the saturation pack shared by both converters, START's and the
finish step's changes (R117, R92, R110), recording a fault (60_exceptions.md R133) and reset
(70_reset_and_hazards.md R150, R152). There is no trap to take and none to return from (R138).
-/
namespace Sys2Proof.Machine

/-! ### Memory -/

/-- The byte at an address: the last value written, else the unlisted byte (20_memory.md R41). -/
def Memory.read : Memory → Nat → Byte
  | [], _ => Config.unlistedByte
  | c :: m, a => if c.1 = a then c.2 else Memory.read m a

/-- Puts a cell into its place by address. -/
def Memory.insertCell : Memory → Host.Cell → Memory
  | [], c => [c]
  | d :: m, c => if c.1 < d.1 then c :: d :: m else d :: Memory.insertCell m c

/-- Stores a byte. Storing what an unlisted address reads as removes the entry, so that equal
memories are equal lists. -/
def Memory.write (m : Memory) (a : Nat) (b : Byte) : Memory :=
  if b = Config.unlistedByte then m.filter fun c => c.1 ≠ a
  else Memory.insertCell (m.filter fun c => c.1 ≠ a) (a, b)

/-- The canonical form: addresses strictly rising, no entry equal to the unlisted byte. -/
abbrev Memory.Wf (m : Memory) : Prop :=
  m.Pairwise (fun c d => c.1 < d.1) ∧ ∀ c ∈ m, c.2 ≠ Config.unlistedByte

/-- The canonical form as a Bool. -/
def Memory.wf (m : Memory) : Bool := decide (Memory.Wf m)

/-- Gives `n` bytes from `base` the free values `k`, `k+1`, … (70_reset_and_hazards.md R152). -/
def Memory.spoil (m : Memory) (base k : Nat) : Nat → Memory
  | 0 => m
  | n + 1 => Memory.write (Memory.spoil m base k n) (base + n) (Config.freeByte (k + n))

/-! ### What memory there is (20_memory.md R54, R41) -/

/-- The region covers the address. -/
def Region.covers (r : Region) (a : Nat) : Bool := r.base ≤ a && a < r.base + r.size

/-- The address belongs to a device. -/
def State.isDevice (s : State) (a : Nat) : Bool :=
  s.regions.any fun r => r.kind == .device && r.covers a

/-- A buffer that the engine may read at the address (R54). -/
def Region.readableAt (r : Region) (a : Nat) : Bool := r.kind == .ordinary && r.readable && r.covers a

/-- A buffer that the engine may write at the address (R54). -/
def Region.writableAt (r : Region) (a : Nat) : Bool := r.kind == .ordinary && r.writable && r.covers a

/-- The caller allocated the address for reading (R54). -/
def State.mayRead (s : State) (a : Nat) : Bool := s.regions.any fun r => r.readableAt a

/-- The caller allocated the address for writing (R54). -/
def State.mayWrite (s : State) (a : Nat) : Bool := s.regions.any fun r => r.writableAt a

/-- `[0, 2^AW)` holds the address (10_state.md R26; an access outside it stops, DESIGN CHOICE, log 9). -/
abbrev Params.InSpace (p : Params) (a : Int) : Prop := 0 ≤ a ∧ a < 2 ^ p.aw

/-! ### Conflicts (20_memory.md R45, 60_exceptions.md R132 code 9, R141) -/

/-- An access to `a` disturbs the instance's running operation, which runs while the instance is BUSY. -/
def Block.disturbed (p : Params) (b : Block) (clashes : Footprint → Int → Bool) (a : Int) : Bool :=
  (b.footprint? p).any fun f => clashes f a

/-- The number of the instance at place `n` of `peers`: while instance `sel` acts, instance 0 stands
in its place (log 8). -/
def State.peerNumber (s : State) (n : Nat) : Nat := if n + 1 = s.sel then 0 else n + 1

/-- The ended operation that an access by this engine disturbs: it ran at once with the operation that
makes the access (R141; log 24). -/
def State.rivalClash (s : State) (clashes : Footprint → Int → Bool) (a : Int) : Option Nat :=
  (s.rivals.find? fun r => r.of == s.sel && clashes r.ended.operation.footprint a).map
    fun r => r.ended.block

/-- The other instance whose operation a read or a write by this engine disturbs: one still running
(the first such place, DESIGN CHOICE, log 22), or one that ran at once with this engine's. -/
def State.peerClash (s : State) (clashes : Footprint → Int → Bool) (a : Int) : Option Nat :=
  ((s.peers.findIdx? fun b => b.disturbed s.params clashes a).map s.peerNumber).or
    (s.rivalClash clashes a)

/-! ### The engine's byte accesses -/

/-- `MemRead(addr, 1)` by the engine (20_memory.md R35, R54, R44): the address exists, is ordinary
memory the caller may read, and is no output byte of another operation that runs or ran at once. Which
fault an access names that breaks several of these is a DESIGN CHOICE (log 22). -/
def State.engineRead (s : State) (t : Touch) : Except Stop Byte :=
  if ¬ Params.InSpace s.params t.addr then .error (.fault (.noSuchAddress t.addr))
  else if s.isDevice t.addr.toNat then .error (.refused (.deviceMemory t.addr.toNat))
  else if ¬ s.mayRead t.addr.toNat then
    .error (.fault (.readOutOfBuffer t.addr t.column t.row t.plane))
  else
    match s.peerClash Footprint.clashesRead t.addr with
    | some k => .error (.fault (.concurrentConflict t.addr (.engine s.sel) (.engine k)))
    | none => .ok (Memory.read s.mem t.addr.toNat)

/-- Stores a byte. -/
def State.store (s : State) (a : Nat) (v : Byte) : State :=
  { s with mem := Memory.write s.mem a v }

/-- `MemWrite(addr, 1, v)` by the engine, for the pixel at a column and row (20_memory.md R35, R54,
R44). -/
def State.engineWrite (s : State) (a : Int) (column row : Nat) (v : Byte) : Except Stop State :=
  if ¬ Params.InSpace s.params a then .error (.fault (.noSuchAddress a))
  else if s.isDevice a.toNat then .error (.refused (.deviceMemory a.toNat))
  else if ¬ s.mayWrite a.toNat then .error (.fault (.writeOutOfBuffer a column row))
  else
    match s.peerClash Footprint.clashesWrite a with
    | some k => .error (.fault (.concurrentConflict a (.engine s.sel) (.engine k)))
    | none => .ok (s.store a.toNat v)

/-- How far a sequence of the engine's accesses came: the state with every access made so far performed
(60_exceptions.md R134), and why it stopped, if it did. -/
structure Reached where
  state : State
  stop : Option Stop
  deriving DecidableEq, Repr

/-- Goes on where nothing stopped. -/
def Reached.andThen (r : Reached) (next : State → Reached) : Reached :=
  match r.stop with
  | none => next r.state
  | some _ => r

/-- One write of a sequence. -/
def State.tryWrite (s : State) (a : Int) (column row : Nat) (v : Byte) : Reached :=
  match s.engineWrite a column row v with
  | .ok t => ⟨t, none⟩
  | .error e => ⟨s, some e⟩

/-- The saturation pack: the three bytes of one pixel, R, G, B, at ascending addresses
(41_yuv420_to_rgb.md R84, R95; 42_bgra_to_rgb.md R105, R106; order 20_memory.md R44). -/
def State.pack (s : State) (a : Int) (column row : Nat) (r g b : Byte) : Reached :=
  ((s.tryWrite a column row r).andThen fun t => t.tryWrite (a + 1) column row g).andThen
    fun t => t.tryWrite (a + 2) column row b

/-- The outcome of an engine step. -/
def outcomeOf (r : Reached) : Host.Outcome State Fault Refusal :=
  match r.stop with
  | none => .next r.state
  | some (.fault f) => .fault f
  | some (.refused q) => .refused q

/-! ### Registers -/

/-- What a host read of register `n` returns (10_state.md R32): `none` where the number is reserved
(30_encoding.md R63); an operand register never written since reset returns the free value `v`
(43_host_interface.md R115). -/
def Block.readReg (b : Block) (v : Word) (n : Nat) : Option Word :=
  if h : n < 8 then some (if b.written[n] then b.arg[n] else v)
  else if n = 8 then some (b.cmd.setWidth 64)
  else if n = 9 then some (b.status.setWidth 64)
  else none

/-- `ARG[n] <- v` (43_host_interface.md R116). -/
def Block.writeArg (b : Block) (n : Fin 8) (v : Word) : Block :=
  { b with arg := b.arg.set n v, written := b.written.set n true }

/-- The first operand register of an operation that was never written since reset. That START stops
there is the spec's own rule: 10_state.md R31, 43_host_interface.md R117, 60_exceptions.md R132 code 3,
92_eei_decisions.md D33, 93_implementation_defined.md S4. Naming the lowest such register is a DESIGN
CHOICE (log 22). -/
def Block.unwritten? (b : Block) (i : Instr) : Option Fault :=
  ((operandRegisters i).find? fun n => !b.written[n]).map fun n => .unwrittenOperand n.val

/-- Replaces the instance that acts. -/
def State.withBlock (s : State) (b : Block) : State := { s with block := b }

/-- What START writes beside the sequencer: `CMD <- w; DONE <- 0; BUSY <- 1`
(43_host_interface.md R117). -/
def Block.begin (b : Block) (i : Instr) : Block :=
  { b with cmd := encode i, status := statusWord true false }

/-- The numbers of the other instances whose operation is running. -/
def State.busyPeers (s : State) : List Nat :=
  (s.peers.zipIdx.filter fun b => b.1.busy).map fun b => s.peerNumber b.2

/-- The finish step: `BUSY <- 0; DONE <- 1` (41_yuv420_to_rgb.md R92, 42_bgra_to_rgb.md R110). The model
notes the ended operation for the host, who has not read `DONE` yet (log 13), and for the instances
whose operation still runs (log 24). -/
def State.finish (s : State) (i : Instr) : State :=
  let e : Ended := ⟨s.sel, s.block.operationOf s.params i⟩
  { s with
    block := s.block.setStatus false true
    unread := e :: s.unread
    rivals := (s.rivals.filter fun r => r.of != s.sel) ++ s.busyPeers.map fun k => ⟨k, e⟩ }

/-- The overlap clause of the contract (20_memory.md R52; R80 CY6, R102 CB7). -/
def Footprint.overlapFault? (f : Footprint) : Option Fault := f.overlap?.map .inOutOverlap

/-! ### Instances (60_exceptions.md R141) -/

/-- Puts instance `k` into the place of the one that acts; doing it twice changes nothing (log 8). -/
def State.focus (s : State) (k : Nat) : State :=
  match k with
  | 0 => s
  | n + 1 =>
    match s.peers[n]? with
    | none => s
    | some b =>
      { s with block := b, peers := s.peers.set n s.block, sel := if s.sel = 0 then n + 1 else 0 }

/-- Changes the state of a next outcome. -/
def mapNext (f : State → State) :
    Host.Outcome State Fault Refusal → Host.Outcome State Fault Refusal
  | .next s => .next (f s)
  | .fault r => .fault r
  | .refused r => .refused r

/-- Runs an action on instance `k`. -/
def onBlock (k : Nat) (act : State → Host.Outcome State Fault Refusal) (s : State) :
    Host.Outcome State Fault Refusal :=
  if k ≤ s.peers.length then mapNext (fun t => t.focus k) (act (s.focus k))
  else .refused (.noSuchBlock k)

/-- The first instance with a running operation. -/
def State.firstBusy (s : State) : Option Nat :=
  if s.block.busy then some 0 else (s.peers.findIdx? Block.busy).map (· + 1)

/-! ### The fault record and reset -/

/-- Records a fault: the launch takes no further step until a reset (60_exceptions.md R133). -/
def State.recordFault (s : State) (f : Fault) : State := { s with record := some f }

/-- Aborts an instance's running operation: its output set then holds any values
(70_reset_and_hazards.md R152). -/
def State.spoilOutput (s : State) (b : Block) : State :=
  match b.footprint? s.params with
  | none => s
  | some f =>
    { s with mem := Memory.spoil s.mem f.outBase s.free f.outLen, free := s.free + f.outLen }

/-- Reset by the platform, whatever the state (70_reset_and_hazards.md R150 to R153): every instance
to its reset values (DESIGN CHOICE, log 14), the fault record cleared, memory untouched (log 21) but for
the output sets of aborted operations. -/
def State.platformReset (s : State) : State :=
  let t := (s.block :: s.peers).foldl State.spoilOutput s
  { t with
    block := Block.reset, peers := s.peers.map fun _ => Block.reset, record := none, unread := [],
    rivals := [] }

end Sys2Proof.Machine
end

