-- ==== Sys2Proof/Machine/Bgra.lean ====
section
/-!
DEFINITION. `BGRA_TO_RGB` (42_bgra_to_rgb.md): START's checks and changes (43_host_interface.md R117,
60_exceptions.md R137), the pixel step (R106, R108), the sequencer advance (R109) and the finish step
(R110).
-/
namespace Sys2Proof.Machine

/-! ### START -/

/-- Clauses CB1, CB2 and CB9 (R102): the first operand that breaks one, `WIDTH` before `HEIGHT` before
`ROW_BYTES` (DESIGN CHOICE, log 22). -/
def BgraOperands.badGeometry? (p : Params) (o : BgraOperands) : Option Fault :=
  if o.width < 1 then some (.badGeometry .bgraToRgb .width)
  else if o.height < 1 then some (.badGeometry .bgraToRgb .height)
  else if o.rowBytes < 4 * o.width then some (.badGeometry .bgraToRgb .rowBytes)
  else if o.rowBytes % p.pitchAlign ≠ 0 then some (.badGeometry .bgraToRgb .rowBytes)
  else none

/-- Clause CB4 (R102), the input index: its value at the last byte of the image, every product on the
way (DEDUCED, log 15), and the address. -/
abbrev BgraOperands.InputFits (p : Params) (o : BgraOperands) : Prop :=
  Fits p.gw ((o.height - 1) * o.rowBytes) ∧ Fits p.gw (4 * o.width) ∧
    Fits p.gw ((o.height - 1) * o.rowBytes + 4 * o.width - 1) ∧
    o.bgraBase + (o.height - 1) * o.rowBytes + 4 * o.width - 1 < 2 ^ p.aw

/-- Clause CB4 (R102), the output size. -/
abbrev BgraOperands.OutputFits (p : Params) (o : BgraOperands) : Prop :=
  Fits p.gw (o.width * o.height) ∧ Fits p.gw (3 * o.width * o.height) ∧
    Fits p.gw (3 * o.width * o.height - 1)

/-- Clause CB4 (R102): the first part that breaks it, input before output before the output's end
(DESIGN CHOICE, log 22). -/
def BgraOperands.overflow? (p : Params) (o : BgraOperands) : Option Fault :=
  if ¬ o.InputFits p then some (.indexOverflow .bgraToRgb .bgra)
  else if ¬ o.OutputFits p then some (.indexOverflow .bgraToRgb .output)
  else if o.rgbBase + 3 * o.width * o.height ≤ 2 ^ p.aw then none
  else some (.indexOverflow .bgraToRgb .outputEnd)

/-- START's checks, in the order of 60_exceptions.md R137. -/
def bgraStartFault? (p : Params) (b : Block) : Option Fault :=
  let o := b.bgraOperands p
  (b.unwritten? .bgraToRgb).or
    ((o.badGeometry? p).or ((o.overflow? p).or o.footprint.overlapFault?))

/-- START of `BGRA_TO_RGB` (43_host_interface.md R117): the only operand copied is `RGB_BASE`, into
`SEQ.OPTR`. A START that faults leaves `CMD`, `STATUS` and `SEQ` as they were (DESIGN CHOICE, log 25). -/
def bgraStart (s : State) : Host.Outcome State Fault Refusal :=
  match bgraStartFault? s.params s.block with
  | some f => .fault f
  | none =>
    .next (s.withBlock { s.block.begin .bgraToRgb with
      seqR := 0, seqC := 0, seqOptr := (s.block.bgraOperands s.params).rgbBase })

/-! ### The engine's steps -/

/-- The sequencer advance (R109): the output pointer by 3; next column, or the next row. -/
def Block.advanceBgra (b : Block) (width : Int) : Block :=
  if (b.seqC + 1 : Int) < width then { b with seqOptr := b.seqOptr + 3, seqC := b.seqC + 1 }
  else { b with seqOptr := b.seqOptr + 3, seqC := 0, seqR := b.seqR + 1 }

/-- The four reads of pixel (r, c): B, G, R, then A, which is read and discarded (R108). -/
def State.gatherBgra (s : State) (o : BgraOperands) (r c : Nat) :
    Except Stop (Byte × Byte × Byte) := do
  let b ← s.engineRead (o.lane r c 0)
  let g ← s.engineRead (o.lane r c 1)
  let rr ← s.engineRead (o.lane r c 2)
  let _ ← s.engineRead (o.lane r c 3)
  return (b, g, rr)

/-- The pixel step (R108): read B, G, R and A, write R, G, B unchanged (R106). -/
def bgraPixel (s : State) (o : BgraOperands) : Reached :=
  let r := s.block.seqR
  let c := s.block.seqC
  match s.gatherBgra o r c with
  | .error e => ⟨s, some e⟩
  | .ok (b, g, rr) =>
    (s.pack s.block.seqOptr c r rr g b).andThen
      fun t => ⟨t.withBlock (t.block.advanceBgra o.width), none⟩

/-- The enabled engine step: a pixel step while `SEQ.R < H` (R108), else the finish step (R110,
43_host_interface.md R125). -/
def bgraEngine (s : State) : Reached :=
  let o := s.block.bgraOperands s.params
  if (s.block.seqR : Int) < o.height then bgraPixel s o else ⟨s.finish .bgraToRgb, none⟩

/-- `BGRA_TO_RGB`: presented to an idle instance it is START (R117); to the instance that runs it,
its next engine step (R108, R110); to an instance that runs the other operation, a forbidden write of
`CMD` (R117; DESIGN CHOICE, log 20). -/
def execBgraToRgb (s : State) : Host.Outcome State Fault Refusal :=
  if s.block.busy then
    if s.block.cmd = encode .bgraToRgb then outcomeOf (bgraEngine s)
    else .fault (.hostWriteWhileBusy 8 ((encode .bgraToRgb).setWidth 64))
  else bgraStart s

end Sys2Proof.Machine
end

