-- ==== Sys2Proof/Machine/Clamp.lean ====
section
/-!
DEFINITION. The intensity clamp unit (40_clamp.md): a function, not a command (30_encoding.md R65).
-/
namespace Sys2Proof.Machine

/-- `clamp` on every integer (40_clamp.md R70): the comparisons are made on the full signed value,
before any narrowing (R71). -/
def clampInt (v : Int) : Int := if v > 255 then 255 else if v < 0 then 0 else v

/-- The clamp's 8-bit result (40_clamp.md R70, R74). -/
def clamp (v : Int) : Byte := BitVec.ofInt 8 (clampInt v)

/-- The unit with its signed input port of `cw` bits (40_clamp.md R74). -/
def clampUnit (cw : Nat) (v : BitVec cw) : Byte := clamp v.toInt

end Sys2Proof.Machine
end

