-- ==== Sys2Proof/Machine/Yuv420.lean ====
section
/-!
DEFINITION. `YUV420_TO_RGB` (41_yuv420_to_rgb.md): START's checks and changes (43_host_interface.md
R117, 60_exceptions.md R137), the pixel step (gather, matrix multiply, saturation pack: R85 to R90),
the sequencer advance (R91) and the finish step (R92).
-/
namespace Sys2Proof.Machine

/-! ### Matrix multiply: the datapath constants are those of 30_encoding.md R60 -/

/-- `dR(vp) = ((1436*vp) >> 10) - 179` (R94). -/
def deltaRed (vp : Int) : Int := shiftRight (1436 * vp) 10 - 179

/-- `dG(up, vp) = 135 - ((46549*up + 93604*vp) >> 17)` (R94): the sum is shifted once (R87). -/
def deltaGreen (up vp : Int) : Int := 135 - shiftRight (46549 * up + 93604 * vp) 17

/-- `dB(up) = ((1814*up) >> 10) - 227` (R94). -/
def deltaBlue (up : Int) : Int := shiftRight (1814 * up) 10 - 227

/-- `r_pre = yp + ((1436*vp) >> 10) - 179` (R86). -/
def redPre (yp vp : Int) : Int := yp + shiftRight (1436 * vp) 10 - 179

/-- `g_pre = yp - ((46549*up + 93604*vp) >> 17) + 135` (R87). -/
def greenPre (yp up vp : Int) : Int := yp - shiftRight (46549 * up + 93604 * vp) 17 + 135

/-- `b_pre = yp + ((1814*up) >> 10) - 227` (R88). -/
def bluePre (yp up : Int) : Int := yp + shiftRight (1814 * up) 10 - 227

/-- The three output bytes of a pixel from its three input bytes (R86 to R88). -/
def red (y v : Byte) : Byte := clamp (redPre (sample y) (sample v))
def green (y u v : Byte) : Byte := clamp (greenPre (sample y) (sample u) (sample v))
def blue (y u : Byte) : Byte := clamp (bluePre (sample y) (sample u))

/-! ### START -/

/-- Clauses CY1 and CY8 (R80): the first operand that breaks one, `WIDTH` before `HEIGHT` before the
pitches (DESIGN CHOICE, log 22). -/
def YuvOperands.badGeometry? (p : Params) (o : YuvOperands) : Option Fault :=
  if o.width < 1 then some (.badGeometry .yuv420ToRgb .width)
  else if o.height < 1 then some (.badGeometry .yuv420ToRgb .height)
  else if o.pp % p.pitchAlign ≠ 0 then some (.badGeometry .yuv420ToRgb .pp)
  else if o.pr % p.pitchAlign ≠ 0 then some (.badGeometry .yuv420ToRgb .pr)
  else none

/-- Clause CY3 at one pixel (R80), for the luma index (R82). -/
abbrev YuvOperands.LumaFits (p : Params) (o : YuvOperands) (i j : Nat) : Prop :=
  Fits p.gw (j * o.pr) ∧ Fits p.gw (o.yi i j) ∧ 0 ≤ o.yi i j ∧ o.yBase + o.yi i j < 2 ^ p.aw

/-- Clause CY3 at one pixel (R80), for the chroma index (R83). -/
abbrev YuvOperands.ChromaFits (p : Params) (o : YuvOperands) (i j : Nat) : Prop :=
  Fits p.gw (o.pp * (i / 2 : Nat)) ∧ Fits p.gw (o.pr * (j / 2 : Nat)) ∧ Fits p.gw (o.ci i j) ∧
    0 ≤ o.ci i j ∧ o.uBase + o.ci i j < 2 ^ p.aw ∧ o.vBase + o.ci i j < 2 ^ p.aw

/-- Clause CY3 at one pixel (R80), for the output index (R84). -/
abbrev YuvOperands.OutputFits (p : Params) (o : YuvOperands) (i j : Nat) : Prop :=
  Fits p.gw (j * o.width) ∧ Fits p.gw (o.oi i j) ∧ Fits p.gw (3 * o.oi i j) ∧
    Fits p.gw (3 * o.oi i j + 2)

/-- Clause CY3 (R80) at one pixel: the first equation that breaks it, luma before chroma before output
(DESIGN CHOICE, log 22). -/
def YuvOperands.pixelOverflow? (p : Params) (o : YuvOperands) (ij : Nat × Nat) : Option Equation :=
  if ¬ o.LumaFits p ij.1 ij.2 then some .luma
  else if ¬ o.ChromaFits p ij.1 ij.2 then some .chroma
  else if ¬ o.OutputFits p ij.1 ij.2 then some .output
  else none

/-- The corner pixels of the image. Every index equation is affine in the column and the row (and in
their halves), so CY3 holds at every pixel when it holds at these four
(`YuvOperands.pixelOverflow_corners` in Sys2Proof/Laws/Contract.lean). -/
def YuvOperands.corners (o : YuvOperands) : List (Nat × Nat) :=
  let i := o.width.toNat - 1
  let j := o.height.toNat - 1
  [(0, 0), (i, 0), (0, j), (i, j)]

/-- Clause CY3 (R80): the first equation that breaks it, corner by corner and then the output's end
(DESIGN CHOICE, log 22). -/
def YuvOperands.overflow? (p : Params) (o : YuvOperands) : Option Fault :=
  match o.corners.findSome? (o.pixelOverflow? p) with
  | some e => some (.indexOverflow .yuv420ToRgb e)
  | none =>
    if o.rgbBase + 3 * o.width * o.height - 1 < 2 ^ p.aw then none
    else some (.indexOverflow .yuv420ToRgb .outputEnd)

/-- START's checks, in the order of 60_exceptions.md R137. -/
def yuvStartFault? (p : Params) (b : Block) : Option Fault :=
  let o := b.yuvOperands p
  (b.unwritten? .yuv420ToRgb).or
    ((o.badGeometry? p).or ((o.overflow? p).or o.footprint.overlapFault?))

/-- START of `YUV420_TO_RGB` (43_host_interface.md R117): no memory access, no operand copied. A START
that faults leaves `CMD`, `STATUS` and `SEQ` as they were (DESIGN CHOICE, log 25: R117 gives the writes
and the checks without an order). -/
def yuvStart (s : State) : Host.Outcome State Fault Refusal :=
  match yuvStartFault? s.params s.block with
  | some f => .fault f
  | none => .next (s.withBlock { s.block.begin .yuv420ToRgb with seqI := 0, seqJ := 0 })

/-! ### The engine's steps -/

/-- The gather (R85): the three bytes of pixel (i, j), Y, then U, then V. -/
def State.gather (s : State) (o : YuvOperands) (i j : Nat) : Except Stop (Byte × Byte × Byte) := do
  let y ← s.engineRead (o.luma i j)
  let u ← s.engineRead (o.chromaU i j)
  let v ← s.engineRead (o.chromaV i j)
  return (y, u, v)

/-- The sequencer advance (R91): next row, or the top of the next column. -/
def Block.advanceYuv (b : Block) (height : Int) : Block :=
  if (b.seqJ + 1 : Int) < height then { b with seqJ := b.seqJ + 1 }
  else { b with seqJ := 0, seqI := b.seqI + 1 }

/-- The pixel step (R90). -/
def yuvPixel (s : State) (o : YuvOperands) : Reached :=
  let i := s.block.seqI
  let j := s.block.seqJ
  match s.gather o i j with
  | .error e => ⟨s, some e⟩
  | .ok (y, u, v) =>
    (s.pack (o.outAddr i j) i j (red y v) (green y u v) (blue y u)).andThen
      fun t => ⟨t.withBlock (t.block.advanceYuv o.height), none⟩

/-- The enabled engine step: a pixel step while `SEQ.I < W` (R90), else the finish step (R92,
43_host_interface.md R125). -/
def yuvEngine (s : State) : Reached :=
  let o := s.block.yuvOperands s.params
  if (s.block.seqI : Int) < o.width then yuvPixel s o else ⟨s.finish .yuv420ToRgb, none⟩

/-- `YUV420_TO_RGB`: presented to an idle instance it is START (R117); to the instance that runs it,
its next engine step (R90, R92); to an instance that runs the other operation, a forbidden write of
`CMD` (R117; DESIGN CHOICE, log 20). -/
def execYuv420ToRgb (s : State) : Host.Outcome State Fault Refusal :=
  if s.block.busy then
    if s.block.cmd = encode .yuv420ToRgb then outcomeOf (yuvEngine s)
    else .fault (.hostWriteWhileBusy 8 ((encode .yuv420ToRgb).setWidth 64))
  else yuvStart s

end Sys2Proof.Machine
end

