-- ==== Sys2Proof/Machine/Dispatch.lean ====
section
/-!
DEFINITION. The dispatch of an instruction to its meaning, one arm per constructor.
-/
namespace Sys2Proof.Machine

def exec (i : Instr) (s : State) : Host.Outcome State Fault Refusal :=
  match i with
  | .yuv420ToRgb => Sys2Proof.Machine.execYuv420ToRgb s
  | .bgraToRgb => Sys2Proof.Machine.execBgraToRgb s

end Sys2Proof.Machine
end

