-- ==== Sys2Proof/Machine/HostActions.lean ====
section
/-!
DEFINITION. The host interface (43_host_interface.md): register reads and writes, START, WAIT, the
host's memory (20_memory.md R35, R45, R54), the engine's turn (R125), and the pseudo-instructions of
30_encoding.md R69.
-/
namespace Sys2Proof.Machine

/-! ### Register actions on the instance that acts -/

/-- `WR CMD, v` on an instance that is not BUSY: decode the word and run the instruction, which is
START; a reserved word starts nothing (R117, 30_encoding.md R62, R66). -/
def startCommand (v : Word) (s : State) : Host.Outcome State Fault Refusal :=
  match decodeValue v with
  | .ok i => exec i s
  | .error _ => .fault (.illegalCommand (.word v))

/-- `WR reg, v` (R116, R117): `HostWriteWhileBusy` before `IllegalCommand` (60_exceptions.md R137);
`STATUS` and the numbers 10 and above are reserved (30_encoding.md R63). -/
def hostWrite (n : Nat) (v : Word) (s : State) : Host.Outcome State Fault Refusal :=
  if s.block.busy ∧ n ≤ 8 then .fault (.hostWriteWhileBusy n v)
  else if h : n < 8 then .next (s.withBlock (s.block.writeArg ⟨n, h⟩ v))
  else if n = 8 then startCommand v s
  else .fault (.illegalCommand (.register n))

/-- What the host read (R115; log 6). -/
def State.returns (s : State) (v : Word) : State := { s with readData := some v }

/-- The host has read `STATUS` of the acting instance: with `DONE` set it now knows that its operations
are over (R118, 20_memory.md R45; log 13). -/
def State.sawStatus (s : State) : State :=
  if s.block.done then { s with unread := s.unread.filter fun e => e.block != s.sel } else s

/-- `RD reg` (R115): allowed at any time, no side effect on any register. -/
def hostRead (n : Nat) (s : State) : Host.Outcome State Fault Refusal :=
  match s.block.readReg (Config.freeWord s.free) n with
  | some v =>
    let t := { s with free := s.free + 1 }.returns v
    .next (if n = 9 then t.sawStatus else t)
  | none => .fault (.illegalCommand (.register n))

/-- The engine's turn (R125): the running operation's next step, decoded from `CMD` (10_state.md
R18); an instance that is not BUSY has no enabled step. -/
def engineTurn (s : State) : Host.Outcome State Fault Refusal :=
  if s.block.busy then
    match decode s.block.cmd with
    | .ok i => exec i s
    | .error _ => .fault (.illegalCommand (.word (s.block.cmd.setWidth 64)))
  else .next s

/-- `WAIT` on instance `k`: one `RD STATUS`; until the value read has `DONE` set the engine takes its
turn and the host reads again (30_encoding.md R69, R118; the turn is weak fairness, R125; DESIGN
CHOICE, log 5). -/
def hostWait (k : Nat) (s : State) : Host.Outcome State Fault Refusal :=
  if s.block.done then .next (s.returns (s.block.status.setWidth 64)).sawStatus
  else
    .next ({ s with events := .engine k :: .wait k :: s.events }.returns
      (s.block.status.setWidth 64))

/-! ### The host's memory -/

/-- The instance whose operation a host access disturbs: one that runs, or one that has ended and whose
`DONE` the host has not read since (20_memory.md R45 (c), 70_reset_and_hazards.md R155 HZ3; log 13). -/
def State.hostClash (s : State) (clashes : Footprint → Int → Bool) (a : Int) : Option Nat :=
  ((s.block :: s.peers).findIdx? fun b => b.disturbed s.params clashes a).or
    ((s.unread.find? fun e => clashes e.operation.footprint a).map fun e => e.block)

/-- The host writes a byte: it owns all of memory (20_memory.md R35), allocated or not (DEDUCED, log 19),
but not an input or output byte of an operation that runs or whose `DONE` it has not read (R45, R123). -/
def hostMemWrite (a : Nat) (v : Byte) (s : State) : Host.Outcome State Fault Refusal :=
  if ¬ Params.InSpace s.params a then .fault (.noSuchAddress a)
  else if s.isDevice a then .refused (.deviceMemory a)
  else
    match s.hostClash Footprint.clashesWrite a with
    | some k => .fault (.concurrentConflict a .host (.engine k))
    | none => .next (s.store a v)

/-- The host reads a byte: not an output byte of an operation that runs or whose `DONE` it has not read
(R45, R123, R155 HZ3). -/
def hostMemRead (a : Nat) (s : State) : Host.Outcome State Fault Refusal :=
  if ¬ Params.InSpace s.params a then .fault (.noSuchAddress a)
  else if s.isDevice a then .refused (.deviceMemory a)
  else
    match s.hostClash Footprint.clashesRead a with
    | some k => .fault (.concurrentConflict a .host (.engine k))
    | none => .next (s.returns ((Memory.read s.mem a).setWidth 64))

/-- The first input byte of an operation of which `reads` holds, or output byte of which `writes` does,
as the fault that names it. -/
def Footprint.firstByte? (reads writes : Nat → Bool) (f : Footprint) : Option Fault :=
  ((f.reads.find? fun t => reads t.addr.toNat).map fun t =>
      .readOutOfBuffer t.addr t.column t.row t.plane).or
    (((List.range f.outLen).find? fun n => writes (f.outBase + n)).map fun n =>
      .writeOutOfBuffer (f.outBase + n : Nat) (f.outColumn n) (f.outRow n))

/-- The same for the running operations, instance by instance. -/
def State.runningByte? (s : State) (reads writes : Nat → Bool) : Option Fault :=
  (s.block :: s.peers).findSome? fun b =>
    (b.footprint? s.params).bind (Footprint.firstByte? reads writes)

/-- The host allocates a buffer (20_memory.md R54). A running operation that gets a byte only now was
out of contract at START (R80 CY4, CY5, R102 CB5, CB6, R155 HZ5), and is stopped here (DEDUCED,
log 23). Naming a device region is never stopped, even over a byte of a running operation (DESIGN
CHOICE, log 26). -/
def hostAlloc (r : Region) (s : State) : Host.Outcome State Fault Refusal :=
  match s.runningByte? (fun a => r.readableAt a && !s.mayRead a)
      (fun a => r.writableAt a && !s.mayWrite a) with
  | some f => .fault f
  | none => .next { s with regions := r :: s.regions }

/-- The buffers at a base address; a device is not the host's to free. -/
def State.buffersAt (s : State) (base : Nat) : List Region :=
  s.regions.filter fun r => r.base == base && r.kind == .ordinary

/-- The host frees every buffer at a base address. While an operation runs it must not free one that
holds a byte of it (R123, R155 HZ5), even where another buffer covers the byte too: the model stops at
the free (DEDUCED, log 17). -/
def hostFree (base : Nat) (s : State) : Host.Outcome State Fault Refusal :=
  match s.runningByte? (fun a => (s.buffersAt base).any fun r => r.readableAt a)
      (fun a => (s.buffersAt base).any fun r => r.writableAt a) with
  | some f => .fault f
  | none =>
    .next { s with regions := s.regions.filter fun r => !(r.base == base && r.kind == .ordinary) }

/-! ### One action -/

/-- What an action does, once it has been taken from the list of actions still to happen. -/
def runEvent : Event → State → Host.Outcome State Fault Refusal
  | .wr k n v => onBlock k (hostWrite n v)
  | .rd k n => onBlock k (hostRead n)
  | .wait k => onBlock k (hostWait k)
  | .memWrite a v => hostMemWrite a v
  | .memRead a => hostMemRead a
  | .alloc r => hostAlloc r
  | .free base => hostFree base
  | .engine k => onBlock k engineTurn
  | .reset => fun s => .next s.platformReset

/-- With no action left the engines run on, the first busy instance first; when none is busy nothing
is enabled and nothing changes (R125; DESIGN CHOICE, log 5). -/
def runIdle (s : State) : Host.Outcome State Fault Refusal :=
  match s.firstBusy with
  | some k => onBlock k engineTurn s
  | none => .next s

/-- After a fault there is no step but a reset (60_exceptions.md R133; DESIGN CHOICE, log 12). -/
def runFaulted (f : Fault) (s : State) : Host.Outcome State Fault Refusal :=
  match s.events with
  | .reset :: rest => .next { s with events := rest }.platformReset
  | _ => .fault f

/-! ### A launch that stops -/

/-- How far the engine's turn comes: every access before the one that stops it has been performed
(60_exceptions.md R134). -/
def engineReached (s : State) : State :=
  if s.block.busy then
    match decode s.block.cmd with
    | .ok .yuv420ToRgb => (yuvEngine s).state
    | .ok .bgraToRgb => (bgraEngine s).state
    | .error _ => s
  else s

/-- The instance whose engine has the next turn, if an engine has it. -/
def State.turn (s : State) : Option Nat :=
  match s.events with
  | .engine k :: _ => some k
  | _ :: _ => none
  | [] => s.firstBusy

/-- What a step that stops leaves behind: its action is over, and where an engine had its turn the
accesses before the one that stopped it have been performed (R133, R134). That a host action which stops,
START among them, has changed no register and no memory is a DESIGN CHOICE (log 25). -/
def State.halted (s : State) : State :=
  let t := { s with events := s.events.tail }
  match s.turn with
  | some k => (engineReached (t.focus k)).focus k
  | none => t

/-! ### Pseudo-instructions (30_encoding.md R69) -/

/-- `CALL yuv420_to_rgb(y, u, v, w, h, pp, pr, out)` on instance `k`. -/
def callYuv (k : Nat) (y u v w h pp pr out : Word) : List Event :=
  [.wr k 0 y, .wr k 1 u, .wr k 2 v, .wr k 3 w, .wr k 4 h, .wr k 5 pp, .wr k 6 pr, .wr k 7 out,
    .wr k 8 ((encode .yuv420ToRgb).setWidth 64), .wait k]

/-- `CALL bgra_to_rgb(bgra, w, h, row_bytes, out)` on instance `k`. -/
def callBgra (k : Nat) (bgra w h rowBytes out : Word) : List Event :=
  [.wr k 0 bgra, .wr k 1 w, .wr k 2 h, .wr k 3 rowBytes, .wr k 4 out,
    .wr k 8 ((encode .bgraToRgb).setWidth 64), .wait k]

end Sys2Proof.Machine
end

