-- ==== Sys2Proof/Machine/Step.lean ====
section
/-!
DEFINITION. One step of the machine: the next action of the list of actions still to happen, or, when
there is none, the engine's turn. Every step is one host action or one engine step (10_state.md R13,
43_host_interface.md R125).
-/
namespace Sys2Proof.Machine

/-- One step. -/
def step (s : State) : Host.Outcome State Fault Refusal :=
  match s.record with
  | some f => runFaulted f s
  | none =>
    match s.events with
    | e :: rest => runEvent e { s with events := rest }
    | [] => runIdle s

/-- The state whose very next step runs the instruction with these bits (log 11). The machine takes an
instruction from a host write of `CMD` (43_host_interface.md R117), and an instance that is BUSY takes
the next step of its operation from `CMD` (10_state.md R18, 20_memory.md R50): so the word is the
host's next write of `CMD`, or, while BUSY, what `CMD` holds. -/
def State.withFetchWord (s : State) (nbits w : Nat) : State :=
  let v : Word := BitVec.ofNat 64 (w % 2 ^ nbits)
  if s.block.busy then
    { s with
      block := { s.block with cmd := v.setWidth 32 }, record := none,
      events := .engine 0 :: s.events }
  else { s with record := none, events := .wr 0 8 v :: s.events }

end Sys2Proof.Machine
end

