-- ==== Sys2Proof/Safety.lean ====
section
/-!
DEFINITION. What counts as a safe run: the contracts of the two operations (41_yuv420_to_rgb.md R80,
42_bgra_to_rgb.md R102), the launch that records a fault and goes no further (60_exceptions.md R133),
and the invariant of the machine. Statements are written in these terms; the machine does not use them.
-/
namespace Sys2Proof.Machine

/-! ### The contract clauses that the operands alone decide -/

/-- Pixel (i, j) is one of the image (R79). -/
abbrev YuvOperands.HasPixel (o : YuvOperands) (i j : Nat) : Prop := (i : Int) < o.width ∧ (j : Int) < o.height

/-- Clause CY3 at one pixel (R80). -/
abbrev YuvOperands.PixelFits (p : Params) (o : YuvOperands) (i j : Nat) : Prop :=
  o.LumaFits p i j ∧ o.ChromaFits p i j ∧ o.OutputFits p i j

/-- No output byte is an input byte (20_memory.md R52). -/
abbrev Footprint.Disjoint (f : Footprint) : Prop := ∀ t ∈ f.reads, ¬ f.HasOutput t.addr

/-- Clauses CY1, CY2, CY3, CY6 and CY8 of `YUV420_TO_RGB` (R80). -/
structure YuvContract (p : Params) (b : Block) : Prop where
  /-- CY2 -/
  written : ∀ n ∈ operandRegisters .yuv420ToRgb, b.written[n] = true
  /-- CY1 -/
  width : 1 ≤ (b.yuvOperands p).width
  height : 1 ≤ (b.yuvOperands p).height
  /-- CY8 -/
  ppAligned : (b.yuvOperands p).pp % p.pitchAlign = 0
  prAligned : (b.yuvOperands p).pr % p.pitchAlign = 0
  /-- CY3 -/
  fits : ∀ i j, (b.yuvOperands p).HasPixel i j → (b.yuvOperands p).PixelFits p i j
  outputEnd :
    (b.yuvOperands p).rgbBase + 3 * (b.yuvOperands p).width * (b.yuvOperands p).height - 1
      < 2 ^ p.aw
  /-- CY6 -/
  disjoint : (b.yuvOperands p).footprint.Disjoint

/-- Clauses CB1, CB2, CB3, CB4, CB7 and CB9 of `BGRA_TO_RGB` (R102). -/
structure BgraContract (p : Params) (b : Block) : Prop where
  /-- CB3 -/
  written : ∀ n ∈ operandRegisters .bgraToRgb, b.written[n] = true
  /-- CB1 -/
  width : 1 ≤ (b.bgraOperands p).width
  height : 1 ≤ (b.bgraOperands p).height
  /-- CB2 -/
  rowBytes : 4 * (b.bgraOperands p).width ≤ (b.bgraOperands p).rowBytes
  /-- CB9 -/
  aligned : (b.bgraOperands p).rowBytes % p.pitchAlign = 0
  /-- CB4 -/
  inputFits : (b.bgraOperands p).InputFits p
  outputFits : (b.bgraOperands p).OutputFits p
  outputEnd :
    (b.bgraOperands p).rgbBase + 3 * (b.bgraOperands p).width * (b.bgraOperands p).height
      ≤ 2 ^ p.aw
  /-- CB7 -/
  disjoint : (b.bgraOperands p).footprint.Disjoint

/-- The contract of an operation, as far as the operands decide it. -/
def Contract (p : Params) (b : Block) : Instr → Prop
  | .yuv420ToRgb => YuvContract p b
  | .bgraToRgb => BgraContract p b

/-! ### The contract clauses that memory and the other agents decide -/

/-- The engine may read the byte: clauses CY4, CB5 (20_memory.md R54), ordinary memory (R41), and no
output byte of another operation that runs or ran at once (CY7, CB8). -/
abbrev State.ReadOk (s : State) (a : Int) : Prop :=
  Params.InSpace s.params a ∧ s.isDevice a.toNat = false ∧ s.mayRead a.toNat = true ∧
    s.peerClash Footprint.clashesRead a = none

/-- The engine may write the byte: clauses CY5, CB6, ordinary memory, and no byte of another operation
that runs or ran at once. -/
abbrev State.WriteOk (s : State) (a : Int) : Prop :=
  Params.InSpace s.params a ∧ s.isDevice a.toNat = false ∧ s.mayWrite a.toNat = true ∧
    s.peerClash Footprint.clashesWrite a = none

/-- Every byte an operation touches may be accessed. -/
structure State.Accessible (s : State) (f : Footprint) : Prop where
  reads : ∀ t ∈ f.reads, s.ReadOk t.addr
  writes : ∀ a, f.HasOutput a → s.WriteOk a

/-! ### Terms of the statements -/

/-- Two states that differ at most in the acting instance, in memory and in what is noted of ended
operations. -/
structure SameElsewhere (s t : State) : Prop where
  params : t.params = s.params
  peers : t.peers = s.peers
  regions : t.regions = s.regions
  record : t.record = s.record
  events : t.events = s.events
  readData : t.readData = s.readData
  free : t.free = s.free
  sel : t.sel = s.sel

/-- The instance an action addresses; a memory action addresses none, and a reset all of them. -/
def Event.target : Event → Option Nat
  | .wr k _ _ => some k
  | .rd k _ => some k
  | .wait k => some k
  | .engine k => some k
  | .memWrite _ _ => none
  | .memRead _ => none
  | .alloc _ => none
  | .free _ => none
  | .reset => none

/-- The instance the next step acts on, if it acts on one. -/
def State.acting (s : State) : Option Nat :=
  match s.events with
  | e :: _ => e.target
  | [] => s.firstBusy

/-- The next action is a reset. -/
abbrev State.ResetNext (s : State) : Prop := s.events.head? = some .reset

/-- The engine steps a running operation still takes: its remaining pixels and the finish step
(43_host_interface.md R125). -/
def Block.remaining (p : Params) (b : Block) : Instr → Int
  | .yuv420ToRgb =>
    (b.yuvOperands p).width * (b.yuvOperands p).height
      - (b.seqI * (b.yuvOperands p).height + b.seqJ) + 1
  | .bgraToRgb =>
    (b.bgraOperands p).width * (b.bgraOperands p).height
      - (b.seqR * (b.bgraOperands p).width + b.seqC) + 1

/-- CSC core number `n`, while instance 0 is in its place. -/
def State.blockAt (s : State) (n : Nat) : Option Block := (s.block :: s.peers)[n]?

/-- The bytes `f` are those of a running operation (10_state.md R28). -/
def State.Running (s : State) (f : Footprint) : Prop :=
  ∃ b ∈ s.block :: s.peers, b.footprint? s.params = some f

/-- The bytes `f` are those of an operation that is not over for the host: it runs, or the host has not
read `DONE` since (20_memory.md R45, 70_reset_and_hazards.md R155 HZ3; log 13). -/
def State.NotOver (s : State) (f : Footprint) : Prop :=
  s.Running f ∨ ∃ e ∈ s.unread, f = e.operation.footprint

/-- The bytes `f` are those of another operation that runs, or that ran at once with the acting
instance's (60_exceptions.md R141; log 24). -/
def State.AtOnce (s : State) (f : Footprint) : Prop :=
  (∃ b ∈ s.peers, b.footprint? s.params = some f) ∨
    ∃ r ∈ s.rivals, r.of = s.sel ∧ f = r.ended.operation.footprint

/-! ### The pixels that are done (41_yuv420_to_rgb.md R93, 42_bgra_to_rgb.md R111) -/

/-- Read `n` of pixel (i, j), in the engine's order (R85). -/
def YuvOperands.touch (o : YuvOperands) (i j : Nat) : Nat → Touch
  | 0 => o.luma i j
  | 1 => o.chromaU i j
  | _ => o.chromaV i j

/-- Byte `k` of pixel (i, j), R, G or B, that the closed form gives from memory `m` (R93). -/
def YuvOperands.closedForm (o : YuvOperands) (m : Memory) (i j k : Nat) : Byte :=
  let y := Memory.read m (o.luma i j).addr.toNat
  let u := Memory.read m (o.chromaU i j).addr.toNat
  let v := Memory.read m (o.chromaV i j).addr.toNat
  if k = 0 then red y v else if k = 1 then green y u v else blue y u

/-- The address of the R byte of pixel (r, c) (R105). -/
def BgraOperands.outAddr (o : BgraOperands) (r c : Nat) : Int := o.rgbBase + 3 * (r * o.width + c)

/-- Byte `k` of pixel (r, c), R, G or B, that the closed form gives from memory `m` (R106, R111). -/
def BgraOperands.closedForm (o : BgraOperands) (m : Memory) (r c k : Nat) : Byte :=
  Memory.read m (o.lane r c (2 - k)).addr.toNat

/-- Pixel `(outer, inner)` comes before the sequencer's pixel. -/
abbrev Before (outer inner seqOuter seqInner : Nat) : Prop :=
  outer < seqOuter ∨ outer = seqOuter ∧ inner < seqInner

/-- The operation's input bytes are still those of memory `m0`, and every pixel before the sequencer
holds what the closed form gives from `m0`. -/
def Block.PixelsHold (p : Params) (b : Block) (m0 m : Memory) : Instr → Prop
  | .yuv420ToRgb =>
    let o := b.yuvOperands p
    (∀ t ∈ o.reads, Memory.read m t.addr.toNat = Memory.read m0 t.addr.toNat) ∧
      ∀ i j k : Nat, o.HasPixel i j → k < 3 → Before i j b.seqI b.seqJ →
        Memory.read m (o.outAddr i j + k).toNat = o.closedForm m0 i j k
  | .bgraToRgb =>
    let o := b.bgraOperands p
    (∀ t ∈ o.reads, Memory.read m t.addr.toNat = Memory.read m0 t.addr.toNat) ∧
      ∀ r c k : Nat, (r : Int) < o.height → (c : Int) < o.width → k < 3 → Before r c b.seqR b.seqC →
        Memory.read m (o.outAddr r c + k).toNat = o.closedForm m0 r c k

/-- Every pixel of the image holds what the closed form gives from `m0`. -/
def Block.ImageHolds (p : Params) (b : Block) (m0 m : Memory) : Instr → Prop
  | .yuv420ToRgb =>
    let o := b.yuvOperands p
    ∀ i j k : Nat, o.HasPixel i j → k < 3 →
      Memory.read m (o.outAddr i j + k).toNat = o.closedForm m0 i j k
  | .bgraToRgb =>
    let o := b.bgraOperands p
    ∀ r c k : Nat, (r : Int) < o.height → (c : Int) < o.width → k < 3 →
      Memory.read m (o.outAddr r c + k).toNat = o.closedForm m0 r c k

/-! ### A launch (10_state.md R30, 60_exceptions.md R133, R134) -/

/-- One step of a launch: a fault is recorded, the action that raised it is over, and the accesses
before the one that faulted have been performed; a refusal leaves the launch where it is. A launch with
a recorded fault drops the actions up to a reset (log 12). -/
def launchStep (s : State) : State :=
  match step s with
  | .next t => t
  | .fault f =>
    if s.record = none then s.halted.recordFault f else { s with events := s.events.tail }
  | .refused _ => s

/-! ### The invariant of the machine -/

/-- The sequencer of a running `YUV420_TO_RGB` (10_state.md R20): `SEQ.I` up to `WIDTH`, which means
that all pixels are done, and `SEQ.J` below `HEIGHT`. -/
abbrev Block.YuvSequencer (p : Params) (b : Block) : Prop :=
  (b.seqI : Int) ≤ (b.yuvOperands p).width ∧ (b.seqJ : Int) < (b.yuvOperands p).height ∧
    ((b.seqI : Int) = (b.yuvOperands p).width → b.seqJ = 0)

/-- The sequencer of a running `BGRA_TO_RGB` (10_state.md R20, 42_bgra_to_rgb.md R105): the output
pointer follows the pixel. -/
abbrev Block.BgraSequencer (p : Params) (b : Block) : Prop :=
  (b.seqR : Int) ≤ (b.bgraOperands p).height ∧ (b.seqC : Int) < (b.bgraOperands p).width ∧
    ((b.seqR : Int) = (b.bgraOperands p).height → b.seqC = 0) ∧
    (b.seqOptr : Int) =
      (b.bgraOperands p).rgbBase + 3 * (b.seqR * (b.bgraOperands p).width + b.seqC)

/-- An instance is in a state that START, its engine and reset can leave it in. -/
structure Block.Inv (p : Params) (b : Block) : Prop where
  /-- The three values of `STATUS` (10_state.md R19). -/
  status : b.status = 0 ∨ b.status = 1 ∨ b.status = 2
  /-- `CMD` holds the word of the last START, or zero (10_state.md R18). -/
  cmd : b.cmd = 0 ∨ b.cmd = encode .yuv420ToRgb ∨ b.cmd = encode .bgraToRgb
  /-- What runs was started. -/
  started : b.busy = true → b.cmd ≠ 0
  /-- A running operation is in contract, as far as its operands decide, and its sequencer in range. -/
  yuv : b.busy = true → b.cmd = encode .yuv420ToRgb → YuvContract p b ∧ b.YuvSequencer p
  bgra : b.busy = true → b.cmd = encode .bgraToRgb → BgraContract p b ∧ b.BgraSequencer p

/-- The invariant of the machine: the memory keeps its canonical form and holds existing addresses
only, and every instance keeps `Block.Inv`; instance 0 is in its place between steps. -/
structure State.Inv (s : State) : Prop where
  mem : Memory.Wf s.mem
  space : ∀ c ∈ s.mem, c.1 < 2 ^ s.params.aw
  block : s.block.Inv s.params
  peers : ∀ b ∈ s.peers, b.Inv s.params
  sel : s.sel = 0

end Sys2Proof.Machine
end

