-- ==== Sys2Proof/Certificates/Slice0/Obligations.lean ====
section
/-!
DEFINITION. The statements for the provers, about the machine alone. Each docstring names the rule of
spec/ it formalises; in them W, H, PP, PR, ROW_BYTES are the operands the registers hold.
-/
open Sys2Proof Sys2Proof.Machine

/-! ### Encoding -/

/-- The words of 30_encoding.md R61 and the reserved ones of 95_test_vectors.md F1 to F4. -/
def Obligations.KnownCommandWords : Prop :=
  decode 0x00000001 = .ok .yuv420ToRgb ∧ decode 0x00000002 = .ok .bgraToRgb ∧
    encode .yuv420ToRgb = 0x00000001 ∧ encode .bgraToRgb = 0x00000002 ∧
    decode 0x00000000 = .error (.reservedOpcode 0) ∧
    decode 0x00000003 = .error (.reservedOpcode 3) ∧
    decode 0x00000101 = .error (.reservedBits 1) ∧
    decode 0xFFFFFFFF = .error (.reservedBits 0xFFFFFF)

/-- 30_encoding.md R61: a word selects an operation exactly when all 32 bits match; every other word
is rejected; decoding an encoded instruction gives it back. -/
def Obligations.DecodeMatchesAllThirtyTwoBits : Prop :=
  (∀ w : CmdWord, decode w = .ok .yuv420ToRgb ↔ w = 0x00000001) ∧
    (∀ w : CmdWord, decode w = .ok .bgraToRgb ↔ w = 0x00000002) ∧
    (∀ w : CmdWord, w ≠ 0x00000001 → w ≠ 0x00000002 → ∃ r, decode w = .error r) ∧
    ∀ i : Instr, CmdWord.wf (encode i) = true ∧ decode (encode i) = .ok i

/-- 30_encoding.md R62: whatever reserved word the host writes to `CMD` of an instance that is not
BUSY, the step stops with `IllegalCommand` and the word; nothing starts. -/
def Obligations.ReservedCommandStartsNothing : Prop :=
  ∀ (s : State) (k : Nat) (w : CmdWord) (rest : List Event), s.record = none →
    s.events = .wr k 8 (w.setWidth 64) :: rest → k ≤ s.peers.length →
    (s.focus k).block.busy = false → w ≠ 0x00000001 → w ≠ 0x00000002 →
    step s = .fault (.illegalCommand (.word (w.setWidth 64)))

/-- The model's choice (log 18): a value of more than 32 bits written to `CMD` is no command either. -/
def Obligations.TooWideCommandValueStops : Prop :=
  ∀ (s : State) (v : Word), s.block.busy = false → 2 ^ 32 ≤ v.toNat →
    hostWrite 8 v s = .fault (.illegalCommand (.word v))

/-! ### A step runs the decoded instruction -/

/-- 30_encoding.md R66, 43_host_interface.md R117, R125, and the model's list of actions and place of
the acting instance (logs 5 and 8): a host write of a command word to an instance
that is not BUSY runs the decoded instruction on it; the engine's turn of a BUSY instance runs the
instruction that `CMD` decodes to; with no action left, the first busy instance has its turn. Around
`exec` a step takes the action from the list and brings the instance into place and back. -/
def Obligations.StepRunsDecodedInstruction : Prop :=
  (∀ (s : State) (k : Nat) (v : Word) (rest : List Event) (i : Instr), s.record = none →
      s.events = .wr k 8 v :: rest → k ≤ s.peers.length → (s.focus k).block.busy = false →
      decodeValue v = .ok i →
      step s = mapNext (fun t => t.focus k) (exec i ({ s with events := rest }.focus k))) ∧
    (∀ (s : State) (k : Nat) (rest : List Event) (i : Instr), s.record = none →
      s.events = .engine k :: rest → k ≤ s.peers.length → (s.focus k).block.busy = true →
      decode (s.focus k).block.cmd = .ok i →
      step s = mapNext (fun t => t.focus k) (exec i ({ s with events := rest }.focus k))) ∧
    ∀ (s : State) (k : Nat) (i : Instr), s.record = none → s.events = [] →
      s.firstBusy = some k → decode (s.focus k).block.cmd = .ok i →
      step s = mapNext (fun t => t.focus k) (exec i (s.focus k))

/-- The state made for an instruction's bits runs exactly that instruction next (log 11). -/
def Obligations.FetchWordRunsDecodedInstruction : Prop :=
  ∀ (s : State) (nbits w : Nat) (i : Instr), decodeTableWord nbits w = some i →
    step (s.withFetchWord nbits w) =
      if s.block.busy then
        exec i { s with block := { s.block with cmd := encode i }, record := none }
      else exec i { s with record := none }

/-! ### The clamp -/

/-- 40_clamp.md R72, (a) to (d). -/
def Obligations.ClampTestableProperties : Prop :=
  ∀ v : Int, (0 ≤ (clamp v).toNat ∧ (clamp v).toNat ≤ 255) ∧
    (0 ≤ v → v ≤ 255 → ((clamp v).toNat : Int) = v) ∧
    (v < 0 → (clamp v).toNat = 0) ∧ (255 < v → (clamp v).toNat = 255)

/-- 40_clamp.md R73, (e) to (h). -/
def Obligations.ClampMonotoneIdempotentMinMax : Prop :=
  (∀ a b : Int, a ≤ b → (clamp a).toNat ≤ (clamp b).toNat) ∧
    (∀ v : Int, clamp (clamp v).toNat = clamp v) ∧
    (∀ v : Int, ((clamp v).toNat : Int) = min 255 (max 0 v) ∧
      ((clamp v).toNat : Int) = max 0 (min 255 v)) ∧
    ∀ b : Byte, clamp (sample b) = b

/-- 40_clamp.md R75: the ranges of the pre-clamp values and where they are attained; a clamp port of
10 bits or more gives the same outputs; the BGRA converter presents samples in [0, 255]. -/
def Obligations.ClampPortOfTenBitsSuffices : Prop :=
  (∀ y u v : Byte,
      (-179 ≤ redPre (sample y) (sample v) ∧ redPre (sample y) (sample v) ≤ 433) ∧
      (-137 ≤ greenPre (sample y) (sample u) (sample v) ∧
        greenPre (sample y) (sample u) (sample v) ≤ 390) ∧
      (-227 ≤ bluePre (sample y) (sample u) ∧ bluePre (sample y) (sample u) ≤ 479)) ∧
    (redPre 0 0 = -179 ∧ redPre 255 255 = 433 ∧ greenPre 0 255 255 = -137 ∧
      greenPre 255 0 0 = 390 ∧ bluePre 0 0 = -227 ∧ bluePre 255 255 = 479) ∧
    (∀ (cw : Nat) (y u v : Byte), 10 ≤ cw →
      clampUnit cw (BitVec.ofInt cw (redPre (sample y) (sample v))) = red y v ∧
      clampUnit cw (BitVec.ofInt cw (greenPre (sample y) (sample u) (sample v))) = green y u v ∧
      clampUnit cw (BitVec.ofInt cw (bluePre (sample y) (sample u))) = blue y u) ∧
    ∀ b : Byte, 0 ≤ sample b ∧ sample b ≤ 255

/-! ### Operands and index equations -/

/-- 30_encoding.md R58, R59: an address operand is the low AW bits as a natural, a geometry operand the
low GW bits as a two's complement integer; the bits above are ignored. The last two clauses say which
operand of which operation is which. -/
def Obligations.OperandExtraction : Prop :=
  ∀ (p : Params) (w : Word), p.wf = true →
    (addressOf p w = w.toNat % 2 ^ p.aw ∧ addressOf p w < 2 ^ p.aw) ∧
    (geometryOf p w = Int.bmod w.toNat (2 ^ p.gw) ∧ Fits p.gw (geometryOf p w)) ∧
    (∀ x : Word, x.toNat % 2 ^ p.aw = w.toNat % 2 ^ p.aw → addressOf p x = addressOf p w) ∧
    (∀ x : Word, x.toNat % 2 ^ p.gw = w.toNat % 2 ^ p.gw → geometryOf p x = geometryOf p w) ∧
    (∀ b : Block, b.yuvOperands p =
      { yBase := addressOf p b.arg[0], uBase := addressOf p b.arg[1],
        vBase := addressOf p b.arg[2], width := geometryOf p b.arg[3],
        height := geometryOf p b.arg[4], pp := geometryOf p b.arg[5],
        pr := geometryOf p b.arg[6], rgbBase := addressOf p b.arg[7] }) ∧
    ∀ b : Block, b.bgraOperands p =
      { bgraBase := addressOf p b.arg[0], width := geometryOf p b.arg[1],
        height := geometryOf p b.arg[2], rowBytes := geometryOf p b.arg[3],
        rgbBase := addressOf p b.arg[4] }

/-- 41_yuv420_to_rgb.md R94: the chroma pair contributes three integers, the same for the four pixels
of a 2 by 2 block, in these ranges; neutral chroma gives (yp, yp - 1, yp - 1) clamped. -/
def Obligations.ChromaDeltas : Prop :=
  (∀ y u v : Byte, red y v = clamp (sample y + deltaRed (sample v)) ∧
      green y u v = clamp (sample y + deltaGreen (sample u) (sample v)) ∧
      blue y u = clamp (sample y + deltaBlue (sample u))) ∧
    (∀ u v : Byte, (-179 ≤ deltaRed (sample v) ∧ deltaRed (sample v) ≤ 178) ∧
      (-137 ≤ deltaGreen (sample u) (sample v) ∧ deltaGreen (sample u) (sample v) ≤ 135) ∧
      (-227 ≤ deltaBlue (sample u) ∧ deltaBlue (sample u) ≤ 224)) ∧
    (deltaRed 128 = 0 ∧ deltaGreen 128 128 = -1 ∧ deltaBlue 128 = -1) ∧
    (∀ y : Byte, red y 128 = y ∧ green y 128 128 = clamp (sample y - 1) ∧
      blue y 128 = clamp (sample y - 1)) ∧
    ∀ (o : YuvOperands) (i j i' j' : Nat), i / 2 = i' / 2 → j / 2 = j' / 2 →
      (o.chromaU i j).addr = (o.chromaU i' j').addr ∧
      (o.chromaV i j).addr = (o.chromaV i' j').addr

/-- 20_memory.md R40, 41_yuv420_to_rgb.md R84: every byte of the output buffer is an output byte of
exactly one pixel and one channel. -/
def Obligations.YuvEveryOutputByteExactlyOnce : Prop :=
  ∀ (o : YuvOperands) (a : Int), 1 ≤ o.width → 1 ≤ o.height → o.footprint.HasOutput a →
    ∃! q : Nat × Nat × Nat, o.HasPixel q.1 q.2.1 ∧ q.2.2 < 3 ∧ a = o.outAddr q.1 q.2.1 + q.2.2

/-! ### START -/

/-- 43_host_interface.md R117: START of `YUV420_TO_RGB` in contract. -/
def Obligations.YuvStartCompletes : Prop :=
  ∀ s : State, s.block.busy = false → YuvContract s.params s.block →
    exec .yuv420ToRgb s = .next { s with
      block := { s.block with cmd := 0x00000001, status := 0x1, seqI := 0, seqJ := 0 } }

/-- 43_host_interface.md R117: START of `BGRA_TO_RGB` in contract. -/
def Obligations.BgraStartCompletes : Prop :=
  ∀ s : State, s.block.busy = false → BgraContract s.params s.block →
    exec .bgraToRgb s = .next { s with
      block := { s.block with
        cmd := 0x00000002, status := 0x1, seqR := 0, seqC := 0,
        seqOptr := addressOf s.params s.block.arg[4] } }

/-- 60_exceptions.md R132, R137, 41_yuv420_to_rgb.md R80: where START of `YUV420_TO_RGB` stops, class
by class in the order of R137. R137 orders the classes only: which register or operand is named where
several of one class are broken (the lowest register; WIDTH, HEIGHT, PP, PR in this order) is the
model's choice (log 22). R137 adds that no claim about an operation may depend on which fault it was. -/
def Obligations.YuvStartFaultOrder : Prop :=
  ∀ s : State, s.block.busy = false →
    let o := s.block.yuvOperands s.params
    let al : Int := s.params.pitchAlign
    (∀ n : Fin 8, s.block.written[n] = false → (∀ m : Fin 8, m < n → s.block.written[m] = true) →
      exec .yuv420ToRgb s = .fault (.unwrittenOperand n)) ∧
    ((∀ n : Fin 8, s.block.written[n] = true) →
      (o.width < 1 → exec .yuv420ToRgb s = .fault (.badGeometry .yuv420ToRgb .width)) ∧
      (1 ≤ o.width → o.height < 1 →
        exec .yuv420ToRgb s = .fault (.badGeometry .yuv420ToRgb .height)) ∧
      (1 ≤ o.width → 1 ≤ o.height → o.pp % al ≠ 0 →
        exec .yuv420ToRgb s = .fault (.badGeometry .yuv420ToRgb .pp)) ∧
      (1 ≤ o.width → 1 ≤ o.height → o.pp % al = 0 → o.pr % al ≠ 0 →
        exec .yuv420ToRgb s = .fault (.badGeometry .yuv420ToRgb .pr)) ∧
      (1 ≤ o.width → 1 ≤ o.height → o.pp % al = 0 → o.pr % al = 0 →
        ((∃ i j, o.HasPixel i j ∧ ¬ o.PixelFits s.params i j) ∨
          2 ^ s.params.aw ≤ o.rgbBase + 3 * o.width * o.height - 1) →
        ∃ e, exec .yuv420ToRgb s = .fault (.indexOverflow .yuv420ToRgb e)) ∧
      (1 ≤ o.width → 1 ≤ o.height → o.pp % al = 0 → o.pr % al = 0 →
        (∀ i j, o.HasPixel i j → o.PixelFits s.params i j) →
        o.rgbBase + 3 * o.width * o.height - 1 < 2 ^ s.params.aw →
        ¬ o.footprint.Disjoint →
        ∃ a, exec .yuv420ToRgb s = .fault (.inOutOverlap a) ∧
          o.footprint.HasInput a ∧ o.footprint.HasOutput a))

/-- 60_exceptions.md R132, R137, 42_bgra_to_rgb.md R102: where START of `BGRA_TO_RGB` stops, class by
class in the order of R137. R137 orders the classes only: which register or operand is named where
several of one class are broken (the lowest register; WIDTH, HEIGHT, ROW_BYTES in this order) is the
model's choice (log 22), and which products clause CB4 means is its reading (log 15). -/
def Obligations.BgraStartFaultOrder : Prop :=
  ∀ s : State, s.block.busy = false →
    let o := s.block.bgraOperands s.params
    let al : Int := s.params.pitchAlign
    (∀ n : Fin 8, n < 5 → s.block.written[n] = false →
      (∀ m : Fin 8, m < n → s.block.written[m] = true) →
      exec .bgraToRgb s = .fault (.unwrittenOperand n)) ∧
    ((∀ n : Fin 8, n < 5 → s.block.written[n] = true) →
      (o.width < 1 → exec .bgraToRgb s = .fault (.badGeometry .bgraToRgb .width)) ∧
      (1 ≤ o.width → o.height < 1 →
        exec .bgraToRgb s = .fault (.badGeometry .bgraToRgb .height)) ∧
      (1 ≤ o.width → 1 ≤ o.height → (o.rowBytes < 4 * o.width ∨ o.rowBytes % al ≠ 0) →
        exec .bgraToRgb s = .fault (.badGeometry .bgraToRgb .rowBytes)) ∧
      (1 ≤ o.width → 1 ≤ o.height → 4 * o.width ≤ o.rowBytes → o.rowBytes % al = 0 →
        (¬ o.InputFits s.params ∨ ¬ o.OutputFits s.params ∨
          2 ^ s.params.aw < o.rgbBase + 3 * o.width * o.height) →
        ∃ e, exec .bgraToRgb s = .fault (.indexOverflow .bgraToRgb e)) ∧
      (1 ≤ o.width → 1 ≤ o.height → 4 * o.width ≤ o.rowBytes → o.rowBytes % al = 0 →
        o.InputFits s.params → o.OutputFits s.params →
        o.rgbBase + 3 * o.width * o.height ≤ 2 ^ s.params.aw →
        ¬ o.footprint.Disjoint →
        ∃ a, exec .bgraToRgb s = .fault (.inOutOverlap a) ∧
          o.footprint.HasInput a ∧ o.footprint.HasOutput a))

/-- 41_yuv420_to_rgb.md R99: a zero or negative dimension is a fault at START, never an empty loop. -/
def Obligations.NonPositiveDimensionFaultsAtStart : Prop :=
  ∀ s : State, s.block.busy = false → (∀ n : Fin 8, s.block.written[n] = true) →
    ((s.block.yuvOperands s.params).width ≤ 0 ∨ (s.block.yuvOperands s.params).height ≤ 0) →
    ∃ which, (which = .width ∧ (s.block.yuvOperands s.params).width ≤ 0 ∨
        which = .height ∧ (s.block.yuvOperands s.params).height ≤ 0) ∧
      exec .yuv420ToRgb s = .fault (.badGeometry .yuv420ToRgb which)

/-! ### The engine's steps of YUV420_TO_RGB -/

/-- 41_yuv420_to_rgb.md R82, R84, R86, R88, R90, R91: the pixel step, the whole next state. -/
def Obligations.YuvPixelStep : Prop :=
  ∀ s : State, s.block.busy = true → s.block.cmd = 0x00000001 →
    let o := s.block.yuvOperands s.params
    let i := s.block.seqI
    let j := s.block.seqJ
    let ci : Int := o.pp * (i / 2 : Nat) + o.pr * (j / 2 : Nat)
    let out : Int := o.rgbBase + 3 * (j * o.width + i)
    let y := Memory.read s.mem (o.yBase + (j * o.pr + i) : Int).toNat
    let u := Memory.read s.mem (o.uBase + ci).toNat
    let v := Memory.read s.mem (o.vBase + ci).toNat
    i < o.width → s.ReadOk (o.yBase + (j * o.pr + i)) → s.ReadOk (o.uBase + ci) →
    s.ReadOk (o.vBase + ci) → s.WriteOk out → s.WriteOk (out + 1) → s.WriteOk (out + 2) →
    exec .yuv420ToRgb s = .next { s with
      mem := Memory.write (Memory.write (Memory.write s.mem out.toNat
          (clamp (y.toNat + 1436 * v.toNat / 2 ^ 10 - 179)))
          (out.toNat + 1) (clamp (y.toNat - (46549 * u.toNat + 93604 * v.toNat) / 2 ^ 17 + 135)))
          (out.toNat + 2) (clamp (y.toNat + 1814 * u.toNat / 2 ^ 10 - 227)),
      block := { s.block with
        seqJ := if (j : Int) + 1 < o.height then j + 1 else 0,
        seqI := if (j : Int) + 1 < o.height then i else i + 1 } }

/-- 41_yuv420_to_rgb.md R92, 43_host_interface.md R125: the finish step, also where `SEQ.I` is above W,
which no run reaches (the model's choice, log 20). The model notes the ended operation for the host and
for the instances that still run (logs 13 and 24). -/
def Obligations.YuvFinishStep : Prop :=
  ∀ s : State, s.block.busy = true → s.block.cmd = 0x00000001 →
    (s.block.yuvOperands s.params).width ≤ s.block.seqI →
    let ended : Ended := ⟨s.sel, .yuv (s.block.yuvOperands s.params)⟩
    exec .yuv420ToRgb s = .next { s with
      block := { s.block with status := 0x2 },
      unread := ended :: s.unread,
      rivals := (s.rivals.filter fun r => r.of != s.sel) ++ s.busyPeers.map fun k => ⟨k, ended⟩ }

/-- 41_yuv420_to_rgb.md R91: the n-th pixel step handles column n div H and row n mod H. -/
def Obligations.YuvVisitOrder : Prop :=
  ∀ (s t : State) (n : Nat), s.block.busy = true →
    let w := (s.block.yuvOperands s.params).width.toNat
    let h := (s.block.yuvOperands s.params).height.toNat
    n < w * h → s.block.seqI = n / h → s.block.seqJ = n % h →
    exec .yuv420ToRgb s = .next t → t.block.seqI = (n + 1) / h ∧ t.block.seqJ = (n + 1) % h

/-- Frame of `YUV420_TO_RGB`: START, pixel step and finish step. A pixel step stores to the three bytes
from `outAddr SEQ.I SEQ.J`; START and the finish step store nothing (R77 "Writes", R90, R92, R117). -/
def Obligations.YuvFrame : Prop :=
  ∀ s t : State, exec .yuv420ToRgb s = .next t →
    let o := s.block.yuvOperands s.params
    SameElsewhere s t ∧ t.block.arg = s.block.arg ∧ t.block.written = s.block.written ∧
    t.block.seqR = s.block.seqR ∧ t.block.seqC = s.block.seqC ∧
    t.block.seqOptr = s.block.seqOptr ∧
    (s.block.busy = true → t.block.cmd = s.block.cmd) ∧
    (s.block.busy = true → (s.block.seqI : Int) < o.width →
      t.block.status = s.block.status ∧
      ∀ a : Nat, ¬ (o.outAddr s.block.seqI s.block.seqJ ≤ a ∧
          (a : Int) < o.outAddr s.block.seqI s.block.seqJ + 3) →
        Memory.read t.mem a = Memory.read s.mem a) ∧
    ((s.block.busy = false ∨ o.width ≤ s.block.seqI) →
      ∀ a : Nat, Memory.read t.mem a = Memory.read s.mem a) ∧
    ((s.block.busy = false ∨ (s.block.seqI : Int) < o.width) →
      t.unread = s.unread ∧ t.rivals = s.rivals)

/-- 41_yuv420_to_rgb.md R93, for one schedule: an operation in contract, run from what START left with
the engine ALONE, takes W*H pixel steps and one finish step and leaves the closed form. That every step
is this engine's turn is the model's choice where no action is listed (log 5); any other schedule is
the matter of StepKeepsFinishedPixels. -/
def Obligations.YuvClosedForm : Prop :=
  ∀ s : State, s.record = none → s.events = [] → s.block.busy = true →
    s.block.cmd = 0x00000001 → s.block.seqI = 0 → s.block.seqJ = 0 →
    YuvContract s.params s.block →
    s.Accessible (s.block.yuvOperands s.params).footprint →
    let o := s.block.yuvOperands s.params
    ∃ t : State,
      Host.Core.run Sys2Proof.core (o.width.toNat * o.height.toNat + 1) s = .next t ∧
      SameElsewhere s t ∧
      t.block = { s.block with status := 0x2, seqI := o.width.toNat, seqJ := 0 } ∧
      (∀ i j : Nat, o.HasPixel i j →
        let y : Int := (Memory.read s.mem (o.yBase + (j * o.pr + i) : Int).toNat).toNat
        let ci : Int := o.pp * (i / 2 : Nat) + o.pr * (j / 2 : Nat)
        let u : Int := (Memory.read s.mem (o.uBase + ci).toNat).toNat
        let v : Int := (Memory.read s.mem (o.vBase + ci).toNat).toNat
        let out : Nat := (o.rgbBase + 3 * (j * o.width + i) : Int).toNat
        Memory.read t.mem (out + 0) = clamp (y + 1436 * v / 2 ^ 10 - 179) ∧
        Memory.read t.mem (out + 1) = clamp (y - (46549 * u + 93604 * v) / 2 ^ 17 + 135) ∧
        Memory.read t.mem (out + 2) = clamp (y + 1814 * u / 2 ^ 10 - 227)) ∧
      ∀ a : Nat, ¬ o.footprint.HasOutput a → Memory.read t.mem a = Memory.read s.mem a

/-! ### The engine's steps of BGRA_TO_RGB -/

/-- 42_bgra_to_rgb.md R104, R106, R108, R109: the pixel step, the whole next state. -/
def Obligations.BgraPixelStep : Prop :=
  ∀ s : State, s.block.busy = true → s.block.cmd = 0x00000002 →
    let o := s.block.bgraOperands s.params
    let r := s.block.seqR
    let c := s.block.seqC
    let p : Int := o.bgraBase + r * o.rowBytes + 4 * c
    let out := s.block.seqOptr
    r < o.height → s.ReadOk (p + 0) → s.ReadOk (p + 1) → s.ReadOk (p + 2) → s.ReadOk (p + 3) →
    s.WriteOk out → s.WriteOk (out + 1) → s.WriteOk (out + 2) →
    exec .bgraToRgb s = .next { s with
      mem := Memory.write (Memory.write (Memory.write s.mem out
          (Memory.read s.mem (p + 2).toNat))
          (out + 1) (Memory.read s.mem (p + 1).toNat))
          (out + 2) (Memory.read s.mem (p + 0).toNat),
      block := { s.block with
        seqOptr := out + 3,
        seqC := if (c : Int) + 1 < o.width then c + 1 else 0,
        seqR := if (c : Int) + 1 < o.width then r else r + 1 } }

/-- 42_bgra_to_rgb.md R110, 43_host_interface.md R125: the finish step, also where `SEQ.R` is above H,
which no run reaches (the model's choice, log 20). The model notes the ended operation for the host and
for the instances that still run (logs 13 and 24). -/
def Obligations.BgraFinishStep : Prop :=
  ∀ s : State, s.block.busy = true → s.block.cmd = 0x00000002 →
    (s.block.bgraOperands s.params).height ≤ s.block.seqR →
    let ended : Ended := ⟨s.sel, .bgra (s.block.bgraOperands s.params)⟩
    exec .bgraToRgb s = .next { s with
      block := { s.block with status := 0x2 },
      unread := ended :: s.unread,
      rivals := (s.rivals.filter fun r => r.of != s.sel) ++ s.busyPeers.map fun k => ⟨k, ended⟩ }

/-- 42_bgra_to_rgb.md R109: the n-th pixel step handles row n div W and column n mod W, and moves the
output pointer by 3. -/
def Obligations.BgraVisitOrder : Prop :=
  ∀ (s t : State) (n : Nat), s.block.busy = true →
    let w := (s.block.bgraOperands s.params).width.toNat
    let h := (s.block.bgraOperands s.params).height.toNat
    n < w * h → s.block.seqR = n / w → s.block.seqC = n % w →
    exec .bgraToRgb s = .next t →
    t.block.seqR = (n + 1) / w ∧ t.block.seqC = (n + 1) % w ∧
      t.block.seqOptr = s.block.seqOptr + 3

/-- 42_bgra_to_rgb.md R112: what a pixel step writes does not depend on the alpha byte, on padding or
on any byte but the pixel's B, G and R. -/
def Obligations.AlphaAndPaddingNeverReachOutput : Prop :=
  ∀ (s t t' : State) (m : Memory), s.block.busy = true →
    let o := s.block.bgraOperands s.params
    (s.block.seqR : Int) < o.height →
    (∀ k : Nat, k < 3 → Memory.read m (o.lane s.block.seqR s.block.seqC k).addr.toNat =
      Memory.read s.mem (o.lane s.block.seqR s.block.seqC k).addr.toNat) →
    exec .bgraToRgb s = .next t → exec .bgraToRgb { s with mem := m } = .next t' →
    ∀ k : Nat, k < 3 →
      Memory.read t'.mem (s.block.seqOptr + k) = Memory.read t.mem (s.block.seqOptr + k)

/-- Frame of `BGRA_TO_RGB`: START, pixel step and finish step. A pixel step stores to the three bytes
from `SEQ.OPTR`; START and the finish step store nothing (R100 "Writes", R108, R110, R117). -/
def Obligations.BgraFrame : Prop :=
  ∀ s t : State, exec .bgraToRgb s = .next t →
    let o := s.block.bgraOperands s.params
    SameElsewhere s t ∧ t.block.arg = s.block.arg ∧ t.block.written = s.block.written ∧
    t.block.seqI = s.block.seqI ∧ t.block.seqJ = s.block.seqJ ∧
    (s.block.busy = true → t.block.cmd = s.block.cmd) ∧
    (s.block.busy = true → (s.block.seqR : Int) < o.height →
      t.block.status = s.block.status ∧
      ∀ a : Nat, ¬ (s.block.seqOptr ≤ a ∧ a < s.block.seqOptr + 3) →
        Memory.read t.mem a = Memory.read s.mem a) ∧
    ((s.block.busy = false ∨ o.height ≤ s.block.seqR) →
      ∀ a : Nat, Memory.read t.mem a = Memory.read s.mem a) ∧
    (s.block.busy = true → o.height ≤ s.block.seqR → t.block.seqR = s.block.seqR ∧
      t.block.seqC = s.block.seqC ∧ t.block.seqOptr = s.block.seqOptr) ∧
    ((s.block.busy = false ∨ (s.block.seqR : Int) < o.height) →
      t.unread = s.unread ∧ t.rivals = s.rivals)

/-- 42_bgra_to_rgb.md R111, for one schedule: an operation in contract, run from what START left with
the engine ALONE, takes W*H pixel steps and one finish step and leaves the closed form. That every step
is this engine's turn is the model's choice where no action is listed (log 5); any other schedule is
the matter of StepKeepsFinishedPixels. -/
def Obligations.BgraClosedForm : Prop :=
  ∀ s : State, s.record = none → s.events = [] → s.block.busy = true →
    s.block.cmd = 0x00000002 → s.block.seqR = 0 → s.block.seqC = 0 →
    s.block.seqOptr = (s.block.bgraOperands s.params).rgbBase →
    BgraContract s.params s.block →
    s.Accessible (s.block.bgraOperands s.params).footprint →
    let o := s.block.bgraOperands s.params
    ∃ t : State,
      Host.Core.run Sys2Proof.core (o.width.toNat * o.height.toNat + 1) s = .next t ∧
      SameElsewhere s t ∧
      t.block = { s.block with
        status := 0x2, seqR := o.height.toNat, seqC := 0,
        seqOptr := o.rgbBase + 3 * o.width.toNat * o.height.toNat } ∧
      (∀ r c : Nat, (r : Int) < o.height → (c : Int) < o.width →
        let p : Int := o.bgraBase + r * o.rowBytes + 4 * c
        let out : Nat := (o.rgbBase + 3 * (r * o.width + c) : Int).toNat
        Memory.read t.mem (out + 0) = Memory.read s.mem (p + 2).toNat ∧
        Memory.read t.mem (out + 1) = Memory.read s.mem (p + 1).toNat ∧
        Memory.read t.mem (out + 2) = Memory.read s.mem (p + 0).toNat) ∧
      ∀ a : Nat, ¬ o.footprint.HasOutput a → Memory.read t.mem a = Memory.read s.mem a

/-! ### The closed form under every schedule -/

/-- 41_yuv420_to_rgb.md R93, 42_bgra_to_rgb.md R111, 10_state.md R16: whatever the agents do between the
engine's steps. At START no pixel is before the sequencer and the inputs are those of the memory `m0` at
START. Every step that is no reset, whoever acts (a poll, a WAIT, a host access, another instance),
keeps that the inputs are those of `m0` and that every pixel before the sequencer holds the closed form
from `m0`; the step after which the instance is no longer BUSY leaves the whole image so. -/
def Obligations.StepKeepsFinishedPixels : Prop :=
  (∀ (s t : State) (i : Instr), exec i s = .next t → s.block.busy = false →
      t.block.PixelsHold t.params s.mem t.mem i) ∧
    ∀ (s t : State) (n : Nat) (b : Block) (i : Instr) (m0 : Memory), s.Inv → step s = .next t →
      ¬ s.ResetNext → s.blockAt n = some b → b.busy = true → b.cmd = encode i →
      b.PixelsHold s.params m0 s.mem i →
      ∃ b', t.blockAt n = some b' ∧ b'.arg = b.arg ∧ b'.cmd = b.cmd ∧
        b'.PixelsHold t.params m0 t.mem i ∧
        (b'.busy = false → b'.ImageHolds t.params m0 t.mem i)

/-! ### Accesses outside the contract -/

/-- 20_memory.md R54, R41, 60_exceptions.md R132. The first two clauses are about one engine access of an
existing address: of device memory it is refused; of other memory outside the caller's buffers it stops
with the address and the pixel; neither returns a value. The last two carry the stop outside the buffers
(not the refusal of a device) to `exec`, for every access of a pixel step, each where the ones before it
are permitted: Y, U, V or B, G, R, A, then the three writes. Where ONE access breaks several rules, that
the device is named before the missing buffer, and the missing buffer before a conflict, is the model's
choice, which no rule of the spec makes (log 22; that a device region wins over an ordinary one, log 4). -/
def Obligations.AccessOutsideBuffersStops : Prop :=
  (∀ (s : State) (t : Touch), Params.InSpace s.params t.addr →
      (s.isDevice t.addr.toNat = true →
        s.engineRead t = .error (.refused (.deviceMemory t.addr.toNat))) ∧
      (s.isDevice t.addr.toNat = false → s.mayRead t.addr.toNat = false →
        s.engineRead t = .error (.fault (.readOutOfBuffer t.addr t.column t.row t.plane)))) ∧
    (∀ (s : State) (a : Int) (c r : Nat) (v : Byte), Params.InSpace s.params a →
      (s.isDevice a.toNat = true →
        s.engineWrite a c r v = .error (.refused (.deviceMemory a.toNat))) ∧
      (s.isDevice a.toNat = false → s.mayWrite a.toNat = false →
        s.engineWrite a c r v = .error (.fault (.writeOutOfBuffer a c r)))) ∧
    (∀ (s : State) (n : Nat), s.block.busy = true → s.block.cmd = 0x00000001 → n < 3 →
      let o := s.block.yuvOperands s.params
      let i := s.block.seqI
      let j := s.block.seqJ
      let a := (o.touch i j n).addr
      let w := o.outAddr i j + n
      (i : Int) < o.width → (∀ m < n, s.ReadOk (o.touch i j m).addr) →
      (Params.InSpace s.params a → s.isDevice a.toNat = false → s.mayRead a.toNat = false →
        exec .yuv420ToRgb s = .fault (.readOutOfBuffer a i j (o.touch i j n).plane)) ∧
      ((∀ m < 3, s.ReadOk (o.touch i j m).addr) → (∀ m < n, s.WriteOk (o.outAddr i j + m)) →
        Params.InSpace s.params w → s.isDevice w.toNat = false → s.mayWrite w.toNat = false →
        exec .yuv420ToRgb s = .fault (.writeOutOfBuffer w i j))) ∧
    ∀ (s : State) (n : Nat), s.block.busy = true → s.block.cmd = 0x00000002 →
      let o := s.block.bgraOperands s.params
      let r := s.block.seqR
      let c := s.block.seqC
      let a := (o.lane r c n).addr
      let w : Int := s.block.seqOptr + n
      (r : Int) < o.height →
      (n < 4 → (∀ m < n, s.ReadOk (o.lane r c m).addr) → Params.InSpace s.params a →
        s.isDevice a.toNat = false → s.mayRead a.toNat = false →
        exec .bgraToRgb s = .fault (.readOutOfBuffer a c r .bgra)) ∧
      (n < 3 → (∀ m < 4, s.ReadOk (o.lane r c m).addr) →
        (∀ m < n, s.WriteOk ((s.block.seqOptr : Int) + m)) → Params.InSpace s.params w →
        s.isDevice w.toNat = false → s.mayWrite w.toNat = false →
        exec .bgraToRgb s = .fault (.writeOutOfBuffer w c r))

/-- 60_exceptions.md R132 code 9, R141: an engine's read of an output byte, and its write of an input or
output byte, of another operation that runs, or that ran at once with its own (the model notes which:
log 24), stops with `ConcurrentConflict`; of no such byte it is performed. So it is at every access of a
pixel step, each where the ones before it are permitted. -/
def Obligations.AccessOfAnotherOperationConflicts : Prop :=
  (∀ (s : State) (t : Touch), Params.InSpace s.params t.addr → s.isDevice t.addr.toNat = false →
      s.mayRead t.addr.toNat = true →
      ((∃ f, s.AtOnce f ∧ f.HasOutput t.addr) → ∃ k, s.engineRead t =
        .error (.fault (.concurrentConflict t.addr (.engine s.sel) (.engine k)))) ∧
      ((∀ f, s.AtOnce f → ¬ f.HasOutput t.addr) →
        s.engineRead t = .ok (Memory.read s.mem t.addr.toNat))) ∧
    (∀ (s : State) (a : Int) (c r : Nat) (v : Byte), Params.InSpace s.params a →
      s.isDevice a.toNat = false → s.mayWrite a.toNat = true →
      ((∃ f, s.AtOnce f ∧ (f.HasInput a ∨ f.HasOutput a)) → ∃ k, s.engineWrite a c r v =
        .error (.fault (.concurrentConflict a (.engine s.sel) (.engine k)))) ∧
      ((∀ f, s.AtOnce f → ¬ f.HasInput a ∧ ¬ f.HasOutput a) →
        s.engineWrite a c r v = .ok { s with mem := Memory.write s.mem a.toNat v })) ∧
    (∀ (s : State) (n : Nat), s.block.busy = true → s.block.cmd = 0x00000001 → n < 3 →
      let o := s.block.yuvOperands s.params
      let i := s.block.seqI
      let j := s.block.seqJ
      let a := (o.touch i j n).addr
      let w := o.outAddr i j + n
      (i : Int) < o.width → (∀ m < n, s.ReadOk (o.touch i j m).addr) →
      (Params.InSpace s.params a → s.isDevice a.toNat = false → s.mayRead a.toNat = true →
        (∃ f, s.AtOnce f ∧ f.HasOutput a) →
        ∃ k, exec .yuv420ToRgb s = .fault (.concurrentConflict a (.engine s.sel) (.engine k))) ∧
      ((∀ m < 3, s.ReadOk (o.touch i j m).addr) → (∀ m < n, s.WriteOk (o.outAddr i j + m)) →
        Params.InSpace s.params w → s.isDevice w.toNat = false → s.mayWrite w.toNat = true →
        (∃ f, s.AtOnce f ∧ (f.HasInput w ∨ f.HasOutput w)) →
        ∃ k, exec .yuv420ToRgb s = .fault (.concurrentConflict w (.engine s.sel) (.engine k)))) ∧
    ∀ (s : State) (n : Nat), s.block.busy = true → s.block.cmd = 0x00000002 →
      let o := s.block.bgraOperands s.params
      let r := s.block.seqR
      let c := s.block.seqC
      let a := (o.lane r c n).addr
      let w : Int := s.block.seqOptr + n
      (r : Int) < o.height →
      (n < 4 → (∀ m < n, s.ReadOk (o.lane r c m).addr) → Params.InSpace s.params a →
        s.isDevice a.toNat = false → s.mayRead a.toNat = true →
        (∃ f, s.AtOnce f ∧ f.HasOutput a) →
        ∃ k, exec .bgraToRgb s = .fault (.concurrentConflict a (.engine s.sel) (.engine k))) ∧
      (n < 3 → (∀ m < 4, s.ReadOk (o.lane r c m).addr) →
        (∀ m < n, s.WriteOk ((s.block.seqOptr : Int) + m)) → Params.InSpace s.params w →
        s.isDevice w.toNat = false → s.mayWrite w.toNat = true →
        (∃ f, s.AtOnce f ∧ (f.HasInput w ∨ f.HasOutput w)) →
        ∃ k, exec .bgraToRgb s = .fault (.concurrentConflict w (.engine s.sel) (.engine k)))

/-- 60_exceptions.md R141, 70_reset_and_hazards.md R155 HZ3 (logs 13 and 24): the step that ends an
operation notes it for the host and for every instance whose operation is running; no step but a reset
loses what an instance must spare while its operation runs, nor what the host must spare before it has
read DONE = 1 of that instance. -/
def Obligations.EndedOperationsAreRemembered : Prop :=
  ∀ s t : State, s.Inv → step s = .next t → ¬ s.ResetNext →
    (∀ (n : Nat) (b b' : Block) (i : Instr), s.blockAt n = some b → t.blockAt n = some b' →
      b.busy = true → b'.busy = false → b.cmd = encode i →
      (⟨n, b.operationOf s.params i⟩ : Ended) ∈ t.unread ∧
      ∀ (m : Nat) (c : Block), m ≠ n → s.blockAt m = some c → c.busy = true →
        (⟨m, ⟨n, b.operationOf s.params i⟩⟩ : Rival) ∈ t.rivals) ∧
    (∀ r ∈ s.rivals, (∀ b, t.blockAt r.of = some b → b.busy = true) → r ∈ t.rivals) ∧
    ∀ e ∈ s.unread, e ∉ t.unread →
      (∃ b, s.blockAt e.block = some b ∧ b.done = true) ∧
        ∃ rest, s.events = .rd e.block 9 :: rest ∨ s.events = .wait e.block :: rest

/-- 43_host_interface.md R117: an instruction presented to an instance that runs the other operation is
a forbidden write of `CMD` (that `exec` says so is the model's choice, log 20). -/
def Obligations.OtherCommandWhileBusyStops : Prop :=
  ∀ (s : State) (i : Instr), s.block.busy = true → s.block.cmd ≠ encode i →
    exec i s = .fault (.hostWriteWhileBusy 8 ((encode i).setWidth 64))

/-! ### The host interface -/

/-- 43_host_interface.md R115: a register read returns the register's current value, at any time,
changes no register, memory or buffer, and clears nothing; a register never written since reset returns
some value; the numbers 10 and above are reserved. A read of `STATUS` with DONE set tells the host that
the instance's operations are over, which the model notes (log 13). -/
def Obligations.RegisterReadHasNoSideEffect : Prop :=
  ∀ (s : State) (n : Nat),
    (∀ h : n < 8, s.block.written[n] = true →
      hostRead n s = .next { s with readData := some s.block.arg[n], free := s.free + 1 }) ∧
    (∀ h : n < 8, s.block.written[n] = false →
      hostRead n s =
        .next { s with readData := some (Config.freeWord s.free), free := s.free + 1 }) ∧
    (n = 8 → hostRead n s =
      .next { s with readData := some (s.block.cmd.setWidth 64), free := s.free + 1 }) ∧
    (n = 9 → hostRead n s = .next { s with
      readData := some (s.block.status.setWidth 64), free := s.free + 1,
      unread := s.unread.filter fun e => !s.block.done || e.block != s.sel }) ∧
    (10 ≤ n → hostRead n s = .fault (.illegalCommand (.register n)))

/-- 43_host_interface.md R116: an operand write of an instance that is not BUSY changes that register
and nothing else; while BUSY it stops. -/
def Obligations.OperandWrite : Prop :=
  ∀ (s : State) (n : Fin 8) (v : Word),
    (s.block.busy = false →
      hostWrite n v s = .next { s with
        block := { s.block with
          arg := s.block.arg.set n v, written := s.block.written.set n true } } ∧
      hostRead n { s with
        block := { s.block with
          arg := s.block.arg.set n v, written := s.block.written.set n true } } =
        .next { s with
          block := { s.block with
            arg := s.block.arg.set n v, written := s.block.written.set n true }
          readData := some v, free := s.free + 1 }) ∧
    (s.block.busy = true → hostWrite n v s = .fault (.hostWriteWhileBusy n v))

/-- 30_encoding.md R63: a write of `STATUS` and any access to a register number 10 or above. -/
def Obligations.ReservedRegisterActionsFault : Prop :=
  ∀ (s : State) (n : Nat) (v : Word),
    (n = 9 → hostWrite n v s = .fault (.illegalCommand (.register n))) ∧
    (10 ≤ n → hostWrite n v s = .fault (.illegalCommand (.register n))) ∧
    (10 ≤ n → hostRead n s = .fault (.illegalCommand (.register n)))

/-- 60_exceptions.md R137, 20_memory.md R50: while BUSY a write of `CMD` stops with
`HostWriteWhileBusy`, also where the word is reserved. -/
def Obligations.CommandWriteWhileBusyStops : Prop :=
  ∀ (s : State) (v : Word), s.block.busy = true →
    hostWrite 8 v s = .fault (.hostWriteWhileBusy 8 v)

/-- 20_memory.md R45, R35, R26, R41, 43_host_interface.md R123, 70_reset_and_hazards.md R155 HZ3: the
host's memory accesses. A write of an input or output byte and a read of an output byte conflict, of an
operation that runs or whose DONE the host has not read since (log 13); every other access of ordinary
memory is performed, and needs no allocation (log 19). Device memory is refused (log 19), and an address
outside the address space stops with the model's own fault (log 9). That the absent address and the
device are named before a conflict is the model's choice (log 22). -/
def Obligations.HostMemoryAccess : Prop :=
  ∀ (s : State) (a : Nat) (v : Byte),
    (2 ^ s.params.aw ≤ a →
      hostMemWrite a v s = .fault (.noSuchAddress a) ∧
      hostMemRead a s = .fault (.noSuchAddress a)) ∧
    (a < 2 ^ s.params.aw → s.isDevice a = true →
      hostMemWrite a v s = .refused (.deviceMemory a) ∧
      hostMemRead a s = .refused (.deviceMemory a)) ∧
    (a < 2 ^ s.params.aw → s.isDevice a = false →
      ((∃ f, s.NotOver f ∧ (f.HasInput a ∨ f.HasOutput a)) →
        ∃ k, hostMemWrite a v s = .fault (.concurrentConflict a .host (.engine k))) ∧
      ((∀ f, s.NotOver f → ¬ f.HasInput a ∧ ¬ f.HasOutput a) →
        hostMemWrite a v s = .next { s with mem := Memory.write s.mem a v }) ∧
      ((∃ f, s.NotOver f ∧ f.HasOutput a) →
        ∃ k, hostMemRead a s = .fault (.concurrentConflict a .host (.engine k))) ∧
      ((∀ f, s.NotOver f → ¬ f.HasOutput a) →
        hostMemRead a s =
          .next { s with readData := some ((Memory.read s.mem a).setWidth 64) }))

/-- 70_reset_and_hazards.md R155 HZ5, 43_host_interface.md R123: freeing a buffer that holds a byte of a
running operation stops, at the free (the model's reading, log 17), with `ReadOutOfBuffer` and an input
byte of such an operation in the freed buffer, or with `WriteOutOfBuffer` and such an output byte.
Freeing any other buffer, whoever is BUSY, only frees it; a device is not freed. -/
def Obligations.FreeingBuffersOfRunningOperationStops : Prop :=
  ∀ (s : State) (base : Nat),
    let freed : Region → Prop := fun r => r ∈ s.regions ∧ r.base = base ∧ r.kind = .ordinary
    let needsRead : Footprint → Touch → Prop := fun f u =>
      s.Running f ∧ u ∈ f.reads ∧ ∃ r, freed r ∧ r.readableAt u.addr.toNat = true
    let needsWrite : Footprint → Nat → Prop := fun f n =>
      s.Running f ∧ n < f.outLen ∧ ∃ r, freed r ∧ r.writableAt (f.outBase + n) = true
    (((∃ f u, needsRead f u) ∨ ∃ f n, needsWrite f n) →
      (∃ f u, needsRead f u ∧
        hostFree base s = .fault (.readOutOfBuffer u.addr u.column u.row u.plane)) ∨
      ∃ f n, needsWrite f n ∧ hostFree base s =
        .fault (.writeOutOfBuffer (f.outBase + n : Nat) (f.outColumn n) (f.outRow n))) ∧
    ((¬ ∃ f u, needsRead f u) → (¬ ∃ f n, needsWrite f n) →
      hostFree base s = .next { s with
        regions := s.regions.filter fun r => !(r.base == base && r.kind == .ordinary) })

/-- 20_memory.md R54, 70_reset_and_hazards.md R155 HZ5: allocating a buffer completes, and an engine may
then access its bytes, unless a running operation gets a byte only now: that operation was out of
contract at START (R80 CY4, CY5, R102 CB5, CB6), and the model stops here, with the byte (its reading,
log 23). That naming a device region always completes is the model's choice (log 26); an engine's access
of it is then refused (log 4). -/
def Obligations.AllocatingBuffers : Prop :=
  ∀ (s : State) (r : Region),
    let getsRead : Footprint → Touch → Prop := fun f u => s.Running f ∧ u ∈ f.reads ∧
      r.readableAt u.addr.toNat = true ∧ s.mayRead u.addr.toNat = false
    let getsWrite : Footprint → Nat → Prop := fun f n => s.Running f ∧ n < f.outLen ∧
      r.writableAt (f.outBase + n) = true ∧ s.mayWrite (f.outBase + n) = false
    (((∃ f u, getsRead f u) ∨ ∃ f n, getsWrite f n) →
      (∃ f u, getsRead f u ∧
        hostAlloc r s = .fault (.readOutOfBuffer u.addr u.column u.row u.plane)) ∨
      ∃ f n, getsWrite f n ∧ hostAlloc r s =
        .fault (.writeOutOfBuffer (f.outBase + n : Nat) (f.outColumn n) (f.outRow n))) ∧
    ((¬ ∃ f u, getsRead f u) → (¬ ∃ f n, getsWrite f n) →
      ∃ t, hostAlloc r s = .next t ∧ t = { s with regions := r :: s.regions } ∧
        ∀ a : Nat, t.mayRead a = (r.readableAt a || s.mayRead a) ∧
          t.mayWrite a = (r.writableAt a || s.mayWrite a))

/-- 43_host_interface.md R118: WAIT ends when the value read has DONE set, and until then reads again
after the engine's turn (the turn is the model's choice, log 5). With DONE read, the instance's
operations are over for the host (log 13). -/
def Obligations.WaitPollsUntilDone : Prop :=
  ∀ (s : State) (k : Nat),
    (s.block.done = true →
      hostWait k s = .next { s with
        readData := some (s.block.status.setWidth 64),
        unread := s.unread.filter fun e => e.block != s.sel }) ∧
    (s.block.done = false →
      hostWait k s = .next { s with
        readData := some (s.block.status.setWidth 64),
        events := .engine k :: .wait k :: s.events })

/-- 43_host_interface.md R125: an instance that is not BUSY has no enabled step; with no action left
and no instance BUSY nothing changes (the model's choice, log 5). -/
def Obligations.IdleEngineChangesNothing : Prop :=
  (∀ s : State, s.block.busy = false → engineTurn s = .next s) ∧
    ∀ s : State, s.record = none → s.events = [] → s.block.busy = false →
      (∀ b ∈ s.peers, b.busy = false) → step s = .next s

/-- 43_host_interface.md R125: in contract the engine's turn always completes, and a running operation
has exactly one step less to take after it; just started it has W*H + 1. -/
def Obligations.EngineProgress : Prop :=
  (∀ (s : State) (i : Instr), s.Inv → s.block.busy = true → s.block.cmd = encode i →
      s.Accessible (s.block.footprintOf s.params i) →
      ∃ t, engineTurn s = .next t ∧
        (t.block.busy = true → t.block.remaining t.params i = s.block.remaining s.params i - 1) ∧
        (t.block.busy = false → s.block.remaining s.params i = 1)) ∧
    (∀ b : Block, ∀ p, b.seqI = 0 → b.seqJ = 0 → b.remaining p .yuv420ToRgb =
      (b.yuvOperands p).width * (b.yuvOperands p).height + 1) ∧
    ∀ b : Block, ∀ p, b.seqR = 0 → b.seqC = 0 → b.remaining p .bgraToRgb =
      (b.bgraOperands p).width * (b.bgraOperands p).height + 1

/-! ### Reset and the fault record -/

/-- 10_state.md R31: what reset leaves, as far as R31 gives a value. -/
def Obligations.ResetState : Prop :=
  State.reset.block.cmd = 0x00000000 ∧ State.reset.block.status = 0x00000000 ∧
    State.reset.block.busy = false ∧ State.reset.block.done = false ∧
    (∀ n : Fin 8, State.reset.block.written[n] = false) ∧
    State.reset.record = none

/-- 70_reset_and_hazards.md R150 to R152: a reset is performed whatever the state. It clears CMD,
STATUS and the record of every instance and makes its operands unwritten; it leaves memory as it is,
but for the output sets of the operations it aborts. That one reset reaches every instance is the
model's choice (log 14), and after a fault no claim may rely on the bytes it leaves (log 21). -/
def Obligations.ResetEvent : Prop :=
  ∀ (s : State) (rest : List Event), s.events = .reset :: rest →
    ∃ t, step s = .next t ∧ t.record = none ∧ t.events = rest ∧ t.params = s.params ∧
      t.regions = s.regions ∧ t.peers.length = s.peers.length ∧ t.unread = [] ∧ t.rivals = [] ∧
      (∀ b ∈ t.block :: t.peers, b.cmd = 0 ∧ b.status = 0 ∧
        ∀ n : Fin 8, b.written[n] = false) ∧
      ((∀ b ∈ s.block :: s.peers, b.busy = false) → t.mem = s.mem) ∧
      ∀ a : Nat, (∀ b ∈ s.block :: s.peers, ∀ f, b.footprint? s.params = some f →
          ¬ f.HasOutput a) →
        Memory.read t.mem a = Memory.read s.mem a

/-- 60_exceptions.md R133, 10_state.md R30: a fault is recorded and sticks; with a fault recorded a
launch changes nothing but that it drops the next action, and only a reset ends it. How the record and
the stop go together, and that actions are dropped, is the model's choice (log 12). -/
def Obligations.FaultIsSticky : Prop :=
  (∀ (s : State) (f : Fault), step s = .fault f → (launchStep s).record = some f) ∧
    (∀ (s : State) (f : Fault), s.record = some f → ¬ s.ResetNext →
      step s = .fault f ∧ launchStep s = { s with events := s.events.tail }) ∧
    ∀ (s : State) (f : Fault), s.record = some f → s.ResetNext → (launchStep s).record = none

/-- 60_exceptions.md R134: a pixel step that faults has performed every access before the one that
faulted, and no later one; that it does not advance the sequencer is R133 (no further step). First
clause: a host action that faults, a START among them, changes nothing but the record. Of a START the
spec says only that it makes no memory access (R117, R134): that it, like the other host actions, leaves
`CMD`, `STATUS` and every other register as they were is the model's choice (log 25). The action itself
is dropped: the model's choice too (log 12). -/
def Obligations.FaultingStepKeepsEarlierAccesses : Prop :=
  ∀ (s : State) (f : Fault), s.sel = 0 → s.record = none → step s = .fault f →
    let left : Memory → State := fun m =>
      { s with events := s.events.tail, record := some f, mem := m }
    (s.turn = none → launchStep s = left s.mem) ∧
    ∀ k, s.turn = some k →
      let u := s.focus k
      u.block.busy = true →
      (u.block.cmd = 0x00000001 →
        let o := u.block.yuvOperands u.params
        let i := u.block.seqI
        let j := u.block.seqJ
        let a := o.outAddr i j
        (i : Int) < o.width →
        ((∃ n < 3, ¬ u.ReadOk (o.touch i j n).addr) → launchStep s = left s.mem) ∧
        ((∀ n < 3, u.ReadOk (o.touch i j n).addr) →
          (¬ u.WriteOk a → launchStep s = left s.mem) ∧
          (u.WriteOk a → ¬ u.WriteOk (a + 1) →
            launchStep s = left (Memory.write s.mem a.toNat (o.closedForm s.mem i j 0))) ∧
          (u.WriteOk a → u.WriteOk (a + 1) → ¬ u.WriteOk (a + 2) →
            launchStep s =
              left (Memory.write (Memory.write s.mem a.toNat (o.closedForm s.mem i j 0))
                (a.toNat + 1) (o.closedForm s.mem i j 1))))) ∧
      (u.block.cmd = 0x00000002 →
        let o := u.block.bgraOperands u.params
        let r := u.block.seqR
        let c := u.block.seqC
        let a : Int := u.block.seqOptr
        (r : Int) < o.height →
        ((∃ n < 4, ¬ u.ReadOk (o.lane r c n).addr) → launchStep s = left s.mem) ∧
        ((∀ n < 4, u.ReadOk (o.lane r c n).addr) →
          (¬ u.WriteOk a → launchStep s = left s.mem) ∧
          (u.WriteOk a → ¬ u.WriteOk (a + 1) →
            launchStep s = left (Memory.write s.mem a.toNat (o.closedForm s.mem r c 0))) ∧
          (u.WriteOk a → u.WriteOk (a + 1) → ¬ u.WriteOk (a + 2) →
            launchStep s =
              left (Memory.write (Memory.write s.mem a.toNat (o.closedForm s.mem r c 0))
                (a.toNat + 1) (o.closedForm s.mem r c 1)))))

/-! ### Invariants and rules of the whole machine -/

/-- The invariant holds right after reset. -/
def Obligations.ResetMeetsInvariant : Prop := State.reset.Inv

/-- Every step keeps the invariant: canonical memory of existing addresses; STATUS one of its three
values; CMD a command word or zero; a running operation started, in contract as far as its operands
decide, its sequencer in range and its output pointer at the pixel (10_state.md R18 to R22, R26). -/
def Obligations.StepKeepsInvariant : Prop :=
  ∀ s t : State, s.Inv → step s = .next t → t.Inv

/-- Every step keeps the canonical form of memory, in every state. -/
def Obligations.StepKeepsMemoryCanonical : Prop :=
  ∀ s t : State, Memory.Wf s.mem → step s = .next t → Memory.Wf t.mem

/-- No step changes the model's parameters or the number of instances (10_state.md R29). -/
def Obligations.StepKeepsParameters : Prop :=
  ∀ s t : State, step s = .next t →
    t.params = s.params ∧ t.peers.length = s.peers.length

/-- 60_exceptions.md R141: instances share nothing but memory. A step that is no reset changes the
registers and the sequencer of the instance it acts on only. -/
def Obligations.InstancesShareOnlyMemory : Prop :=
  ∀ s t : State, s.sel = 0 → step s = .next t → ¬ s.ResetNext →
    (s.acting ≠ some 0 → t.block = s.block) ∧
    ∀ n : Nat, s.acting ≠ some (n + 1) → t.peers[n]? = s.peers[n]?

/-- 10_state.md R16, R18, 20_memory.md R50: while an operation runs, on whichever instance, no step but
a reset changes an operand register or `CMD` of that instance. -/
def Obligations.OperandsFixedWhileBusy : Prop :=
  ∀ (s t : State) (n : Nat) (b : Block), s.sel = 0 → step s = .next t → ¬ s.ResetNext →
    s.blockAt n = some b → b.busy = true →
    ∃ b', t.blockAt n = some b' ∧ b'.arg = b.arg ∧ b'.written = b.written ∧ b'.cmd = b.cmd

/-- 20_memory.md R45, R52, 60_exceptions.md R141: while an operation runs, on whichever instance, no step
but a reset changes one of its input bytes, and none but its own engine's one of its output bytes. -/
def Obligations.BuffersOfRunningOperationProtected : Prop :=
  ∀ (s t : State) (n : Nat) (b : Block) (f : Footprint), s.Inv → step s = .next t →
    ¬ s.ResetNext → s.blockAt n = some b → b.footprint? s.params = some f →
    (∀ u ∈ f.reads, Memory.read t.mem u.addr.toNat = Memory.read s.mem u.addr.toNat) ∧
    (s.acting ≠ some n → ∀ a : Nat, f.HasOutput a → Memory.read t.mem a = Memory.read s.mem a)

/-- 10_state.md R19: DONE of an instance is set by its finish step alone, and cleared by its START alone
(or a reset). -/
def Obligations.DoneBitLifetime : Prop :=
  ∀ (s t : State) (n : Nat) (b b' : Block), s.sel = 0 → step s = .next t → ¬ s.ResetNext →
    s.blockAt n = some b → t.blockAt n = some b' →
    (b.done = false → b'.done = true →
      s.acting = some n ∧ b.busy = true ∧ b'.busy = false) ∧
    (b.done = true → b'.done = false →
      b'.busy = true ∧ ∃ v rest, s.events = .wr n 8 v :: rest ∧ (v = 1 ∨ v = 2))
end

