-- ==== Sys2Proof/Laws/Memory.lean ====
section
/-!
SUPPORT. The laws of memory: a read after a write, canonical form, spoiling.
-/
namespace Sys2Proof.Machine

@[simp] theorem Memory.read_nil (a : Nat) : Memory.read [] a = Config.unlistedByte := rfl

theorem Memory.read_filter_self (m : Memory) (a : Nat) :
    Memory.read (m.filter fun c => c.1 ≠ a) a = Config.unlistedByte := by
  induction m with
  | nil => rfl
  | cons c m ih =>
    by_cases h : c.1 = a
    · simpa [List.filter_cons, h] using ih
    · simpa [List.filter_cons, h, Memory.read] using ih

theorem Memory.read_filter_of_ne (m : Memory) {a x : Nat} (h : x ≠ a) :
    Memory.read (m.filter fun c => c.1 ≠ a) x = Memory.read m x := by
  induction m with
  | nil => rfl
  | cons c m ih =>
    by_cases hc : c.1 = a
    · have : c.1 ≠ x := fun e => h (e ▸ hc)
      simpa [List.filter_cons, hc, Memory.read, this, Ne.symm h] using ih
    · by_cases hx : c.1 = x
      · simp [Memory.read, hx, h]
      · simpa [List.filter_cons, hc, Memory.read, hx] using ih

theorem Memory.read_insertCell_self (m : Memory) (a : Nat) (b : Byte)
    (h : Memory.read m a = Config.unlistedByte ∧ ∀ c ∈ m, c.1 ≠ a) :
    Memory.read (Memory.insertCell m (a, b)) a = b := by
  induction m with
  | nil => simp [Memory.insertCell, Memory.read]
  | cons d m ih =>
    have hd : d.1 ≠ a := h.2 d (by simp)
    unfold Memory.insertCell
    split
    · simp [Memory.read]
    · have := ih ⟨by simpa [Memory.read, hd] using h.1, fun c hc => h.2 c (by simp [hc])⟩
      simpa [Memory.read, hd] using this

theorem Memory.read_insertCell_of_ne (m : Memory) {a x : Nat} (b : Byte) (h : x ≠ a) :
    Memory.read (Memory.insertCell m (a, b)) x = Memory.read m x := by
  induction m with
  | nil => simp [Memory.insertCell, Memory.read, Ne.symm h]
  | cons d m ih =>
    unfold Memory.insertCell
    split
    · simp [Memory.read, Ne.symm h]
    · simp only [Memory.read]
      split
      · rfl
      · exact ih

/-- A byte that was written reads back (20_memory.md R41). -/
@[simp] theorem Memory.read_write_self (m : Memory) (a : Nat) (b : Byte) :
    Memory.read (Memory.write m a b) a = b := by
  unfold Memory.write
  split
  · next h => rw [Memory.read_filter_self, h]
  · refine Memory.read_insertCell_self _ a b ⟨Memory.read_filter_self m a, ?_⟩
    intro c hc
    simpa using (List.mem_filter.1 hc).2

/-- A write leaves every other byte alone (20_memory.md R41). -/
theorem Memory.read_write_of_ne (m : Memory) {a x : Nat} (b : Byte) (h : x ≠ a) :
    Memory.read (Memory.write m a b) x = Memory.read m x := by
  unfold Memory.write
  split
  · exact Memory.read_filter_of_ne m h
  · rw [Memory.read_insertCell_of_ne _ b h, Memory.read_filter_of_ne m h]

theorem Memory.read_write (m : Memory) (a x : Nat) (b : Byte) :
    Memory.read (Memory.write m a b) x = if x = a then b else Memory.read m x := by
  split
  · next h => rw [h, Memory.read_write_self]
  · next h => exact Memory.read_write_of_ne m b h

/-! ### Canonical form -/

theorem Memory.mem_insertCell {m : Memory} {c d : Host.Cell} :
    d ∈ Memory.insertCell m c ↔ d = c ∨ d ∈ m := by
  induction m with
  | nil => simp [Memory.insertCell]
  | cons e m ih =>
    unfold Memory.insertCell
    split
    · simp
    · simp only [List.mem_cons, ih]; tauto

theorem Memory.pairwise_insertCell {m : Memory} {c : Host.Cell}
    (h : m.Pairwise fun c d => c.1 < d.1) (hc : ∀ d ∈ m, d.1 ≠ c.1) :
    (Memory.insertCell m c).Pairwise fun c d => c.1 < d.1 := by
  induction m with
  | nil => simp [Memory.insertCell]
  | cons e m ih =>
    obtain ⟨he, hm⟩ := List.pairwise_cons.1 h
    unfold Memory.insertCell
    split
    · next hlt =>
      refine List.pairwise_cons.2 ⟨fun d hd => ?_, h⟩
      rcases List.mem_cons.1 hd with rfl | hd
      · exact hlt
      · exact lt_trans hlt (he d hd)
    · next hge =>
      refine List.pairwise_cons.2 ⟨fun d hd => ?_, ih hm fun d hd => hc d (by simp [hd])⟩
      rcases Memory.mem_insertCell.1 hd with rfl | hd
      · have := hc e (by simp); omega
      · exact he d hd

/-- A write keeps the canonical form. -/
theorem Memory.wf_write {m : Memory} (h : Memory.Wf m) (a : Nat) (b : Byte) :
    Memory.Wf (Memory.write m a b) := by
  have hp : (m.filter fun c => c.1 ≠ a).Pairwise fun c d => c.1 < d.1 := h.1.filter _
  have hn : ∀ c ∈ m.filter (fun c => c.1 ≠ a), c.2 ≠ Config.unlistedByte :=
    fun c hc => h.2 c (List.mem_filter.1 hc).1
  unfold Memory.write
  split
  · exact ⟨hp, hn⟩
  · next hb =>
    refine ⟨Memory.pairwise_insertCell hp fun d hd => by simpa using (List.mem_filter.1 hd).2, ?_⟩
    intro c hc
    rcases Memory.mem_insertCell.1 hc with rfl | hc
    · exact hb
    · exact hn c hc

/-- A write lists no address but its own anew. -/
theorem Memory.addr_of_mem_write {m : Memory} {a : Nat} {b : Byte} {c : Host.Cell}
    (h : c ∈ Memory.write m a b) : c.1 = a ∨ c ∈ m := by
  unfold Memory.write at h
  split at h
  · exact .inr (List.mem_filter.1 h).1
  · rcases Memory.mem_insertCell.1 h with rfl | h
    · exact .inl rfl
    · exact .inr (List.mem_filter.1 h).1

/-- Spoiling keeps the canonical form. -/
theorem Memory.wf_spoil {m : Memory} (h : Memory.Wf m) (base k n : Nat) :
    Memory.Wf (Memory.spoil m base k n) := by
  induction n with
  | zero => exact h
  | succ n ih => exact Memory.wf_write ih _ _

/-- Spoiling leaves every byte outside the output set alone (70_reset_and_hazards.md R152). -/
theorem Memory.read_spoil_of_outside (m : Memory) {base k n x : Nat}
    (h : x < base ∨ base + n ≤ x) :
    Memory.read (Memory.spoil m base k n) x = Memory.read m x := by
  induction n with
  | zero => rfl
  | succ n ih =>
    rw [Memory.spoil, Memory.read_write_of_ne _ _ (by omega), ih (by omega)]

/-- A spoiled byte holds its free value (70_reset_and_hazards.md R152). -/
theorem Memory.read_spoil_of_inside (m : Memory) {base k n x : Nat} (h : x < n) :
    Memory.read (Memory.spoil m base k n) (base + x) = Config.freeByte (k + x) := by
  induction n with
  | zero => omega
  | succ n ih =>
    rw [Memory.spoil, Memory.read_write]
    split
    · next e => rw [show x = n by omega]
    · next e => exact ih (by omega)

/-- Spoiling lists addresses of the output set only. -/
theorem Memory.addr_of_mem_spoil {m : Memory} {base k n : Nat} {c : Host.Cell}
    (h : c ∈ Memory.spoil m base k n) : (base ≤ c.1 ∧ c.1 < base + n) ∨ c ∈ m := by
  induction n with
  | zero => exact .inr h
  | succ n ih =>
    rcases Memory.addr_of_mem_write h with e | h
    · exact .inl (by omega)
    · rcases ih h with ⟨h1, h2⟩ | h
      · exact .inl (by omega)
      · exact .inr h

end Sys2Proof.Machine
end

