-- ==== Sys2Proof/Laws/State.lean ====
section
/-!
SUPPORT. What each named update of the state leaves as it was, one lemma per field, so that no proof
unfolds a record update.
-/
namespace Sys2Proof.Machine

/-! ### STATUS -/

@[simp] theorem statusWord_busy (b d : Bool) : (statusWord b d).getLsbD 0 = b := by
  cases b <;> cases d <;> decide
@[simp] theorem statusWord_done (b d : Bool) : (statusWord b d).getLsbD 1 = d := by
  cases b <;> cases d <;> decide
theorem statusWord_running : statusWord true false = 1 := by decide
theorem statusWord_finished : statusWord false true = 2 := by decide

/-! ### Updates of an instance -/

section setStatus
variable (b : Block) (x y : Bool)
@[simp] theorem Block.setStatus_arg : (b.setStatus x y).arg = b.arg := rfl
@[simp] theorem Block.setStatus_written : (b.setStatus x y).written = b.written := rfl
@[simp] theorem Block.setStatus_cmd : (b.setStatus x y).cmd = b.cmd := rfl
@[simp] theorem Block.setStatus_status : (b.setStatus x y).status = statusWord x y := rfl
@[simp] theorem Block.setStatus_seqI : (b.setStatus x y).seqI = b.seqI := rfl
@[simp] theorem Block.setStatus_seqJ : (b.setStatus x y).seqJ = b.seqJ := rfl
@[simp] theorem Block.setStatus_seqR : (b.setStatus x y).seqR = b.seqR := rfl
@[simp] theorem Block.setStatus_seqC : (b.setStatus x y).seqC = b.seqC := rfl
@[simp] theorem Block.setStatus_seqOptr : (b.setStatus x y).seqOptr = b.seqOptr := rfl
@[simp] theorem Block.setStatus_busy : (b.setStatus x y).busy = x := statusWord_busy x y
@[simp] theorem Block.setStatus_done : (b.setStatus x y).done = y := statusWord_done x y
end setStatus

section begin_
variable (b : Block) (i : Instr)
@[simp] theorem Block.begin_arg : (b.begin i).arg = b.arg := rfl
@[simp] theorem Block.begin_written : (b.begin i).written = b.written := rfl
@[simp] theorem Block.begin_cmd : (b.begin i).cmd = encode i := rfl
@[simp] theorem Block.begin_status : (b.begin i).status = statusWord true false := rfl
@[simp] theorem Block.begin_busy : (b.begin i).busy = true := statusWord_busy true false
@[simp] theorem Block.begin_done : (b.begin i).done = false := statusWord_done true false
end begin_

section writeArg
variable (b : Block) (n : Fin 8) (v : Word)
@[simp] theorem Block.writeArg_cmd : (b.writeArg n v).cmd = b.cmd := rfl
@[simp] theorem Block.writeArg_status : (b.writeArg n v).status = b.status := rfl
@[simp] theorem Block.writeArg_seqI : (b.writeArg n v).seqI = b.seqI := rfl
@[simp] theorem Block.writeArg_seqJ : (b.writeArg n v).seqJ = b.seqJ := rfl
@[simp] theorem Block.writeArg_seqR : (b.writeArg n v).seqR = b.seqR := rfl
@[simp] theorem Block.writeArg_seqC : (b.writeArg n v).seqC = b.seqC := rfl
@[simp] theorem Block.writeArg_seqOptr : (b.writeArg n v).seqOptr = b.seqOptr := rfl
@[simp] theorem Block.writeArg_busy : (b.writeArg n v).busy = b.busy := rfl
@[simp] theorem Block.writeArg_done : (b.writeArg n v).done = b.done := rfl
theorem Block.writeArg_arg_self : (b.writeArg n v).arg[n] = v := by simp [Block.writeArg]
theorem Block.writeArg_arg_of_ne {m : Fin 8} (h : m ≠ n) : (b.writeArg n v).arg[m] = b.arg[m] := by
  have : n.val ≠ m.val := fun e => h (Fin.ext e.symm)
  simp [Block.writeArg, Vector.getElem_set_ne _ _ this]
end writeArg

section advance
variable (b : Block) (x : Int)
@[simp] theorem Block.advanceYuv_arg : (b.advanceYuv x).arg = b.arg := by
  unfold Block.advanceYuv; split <;> rfl
@[simp] theorem Block.advanceYuv_written : (b.advanceYuv x).written = b.written := by
  unfold Block.advanceYuv; split <;> rfl
@[simp] theorem Block.advanceYuv_cmd : (b.advanceYuv x).cmd = b.cmd := by
  unfold Block.advanceYuv; split <;> rfl
@[simp] theorem Block.advanceYuv_status : (b.advanceYuv x).status = b.status := by
  unfold Block.advanceYuv; split <;> rfl
@[simp] theorem Block.advanceYuv_seqR : (b.advanceYuv x).seqR = b.seqR := by
  unfold Block.advanceYuv; split <;> rfl
@[simp] theorem Block.advanceYuv_seqC : (b.advanceYuv x).seqC = b.seqC := by
  unfold Block.advanceYuv; split <;> rfl
@[simp] theorem Block.advanceYuv_seqOptr : (b.advanceYuv x).seqOptr = b.seqOptr := by
  unfold Block.advanceYuv; split <;> rfl
@[simp] theorem Block.advanceYuv_busy : (b.advanceYuv x).busy = b.busy := by
  unfold Block.advanceYuv; split <;> rfl
@[simp] theorem Block.advanceYuv_done : (b.advanceYuv x).done = b.done := by
  unfold Block.advanceYuv; split <;> rfl
@[simp] theorem Block.advanceBgra_arg : (b.advanceBgra x).arg = b.arg := by
  unfold Block.advanceBgra; split <;> rfl
@[simp] theorem Block.advanceBgra_written : (b.advanceBgra x).written = b.written := by
  unfold Block.advanceBgra; split <;> rfl
@[simp] theorem Block.advanceBgra_cmd : (b.advanceBgra x).cmd = b.cmd := by
  unfold Block.advanceBgra; split <;> rfl
@[simp] theorem Block.advanceBgra_status : (b.advanceBgra x).status = b.status := by
  unfold Block.advanceBgra; split <;> rfl
@[simp] theorem Block.advanceBgra_seqI : (b.advanceBgra x).seqI = b.seqI := by
  unfold Block.advanceBgra; split <;> rfl
@[simp] theorem Block.advanceBgra_seqJ : (b.advanceBgra x).seqJ = b.seqJ := by
  unfold Block.advanceBgra; split <;> rfl
@[simp] theorem Block.advanceBgra_seqOptr : (b.advanceBgra x).seqOptr = b.seqOptr + 3 := by
  unfold Block.advanceBgra; split <;> rfl
@[simp] theorem Block.advanceBgra_busy : (b.advanceBgra x).busy = b.busy := by
  unfold Block.advanceBgra; split <;> rfl
@[simp] theorem Block.advanceBgra_done : (b.advanceBgra x).done = b.done := by
  unfold Block.advanceBgra; split <;> rfl
end advance

/-! ### Updates of the machine -/

section withBlock
variable (s : State) (b : Block)
@[simp] theorem State.withBlock_block : (s.withBlock b).block = b := rfl
@[simp] theorem State.withBlock_params : (s.withBlock b).params = s.params := rfl
@[simp] theorem State.withBlock_peers : (s.withBlock b).peers = s.peers := rfl
@[simp] theorem State.withBlock_mem : (s.withBlock b).mem = s.mem := rfl
@[simp] theorem State.withBlock_regions : (s.withBlock b).regions = s.regions := rfl
@[simp] theorem State.withBlock_record : (s.withBlock b).record = s.record := rfl
@[simp] theorem State.withBlock_events : (s.withBlock b).events = s.events := rfl
@[simp] theorem State.withBlock_readData : (s.withBlock b).readData = s.readData := rfl
@[simp] theorem State.withBlock_free : (s.withBlock b).free = s.free := rfl
@[simp] theorem State.withBlock_unread : (s.withBlock b).unread = s.unread := rfl
@[simp] theorem State.withBlock_rivals : (s.withBlock b).rivals = s.rivals := rfl
@[simp] theorem State.withBlock_sel : (s.withBlock b).sel = s.sel := rfl
end withBlock

section store
variable (s : State) (a : Nat) (v : Byte)
@[simp] theorem State.store_block : (s.store a v).block = s.block := rfl
@[simp] theorem State.store_params : (s.store a v).params = s.params := rfl
@[simp] theorem State.store_peers : (s.store a v).peers = s.peers := rfl
@[simp] theorem State.store_mem : (s.store a v).mem = Memory.write s.mem a v := rfl
@[simp] theorem State.store_regions : (s.store a v).regions = s.regions := rfl
@[simp] theorem State.store_record : (s.store a v).record = s.record := rfl
@[simp] theorem State.store_events : (s.store a v).events = s.events := rfl
@[simp] theorem State.store_readData : (s.store a v).readData = s.readData := rfl
@[simp] theorem State.store_free : (s.store a v).free = s.free := rfl
@[simp] theorem State.store_unread : (s.store a v).unread = s.unread := rfl
@[simp] theorem State.store_rivals : (s.store a v).rivals = s.rivals := rfl
@[simp] theorem State.store_sel : (s.store a v).sel = s.sel := rfl
@[simp] theorem State.store_isDevice : (s.store a v).isDevice = s.isDevice := rfl
@[simp] theorem State.store_mayRead : (s.store a v).mayRead = s.mayRead := rfl
@[simp] theorem State.store_mayWrite : (s.store a v).mayWrite = s.mayWrite := rfl
@[simp] theorem State.store_peerClash : (s.store a v).peerClash = s.peerClash := rfl
end store

section finish
variable (s : State) (i : Instr)
@[simp] theorem State.finish_block : (s.finish i).block = s.block.setStatus false true := rfl
@[simp] theorem State.finish_params : (s.finish i).params = s.params := rfl
@[simp] theorem State.finish_peers : (s.finish i).peers = s.peers := rfl
@[simp] theorem State.finish_mem : (s.finish i).mem = s.mem := rfl
@[simp] theorem State.finish_regions : (s.finish i).regions = s.regions := rfl
@[simp] theorem State.finish_record : (s.finish i).record = s.record := rfl
@[simp] theorem State.finish_events : (s.finish i).events = s.events := rfl
@[simp] theorem State.finish_readData : (s.finish i).readData = s.readData := rfl
@[simp] theorem State.finish_free : (s.finish i).free = s.free := rfl
@[simp] theorem State.finish_sel : (s.finish i).sel = s.sel := rfl
end finish

section sawStatus
variable (s : State)
@[simp] theorem State.sawStatus_block : s.sawStatus.block = s.block := by
  unfold State.sawStatus; split <;> rfl
@[simp] theorem State.sawStatus_params : s.sawStatus.params = s.params := by
  unfold State.sawStatus; split <;> rfl
@[simp] theorem State.sawStatus_peers : s.sawStatus.peers = s.peers := by
  unfold State.sawStatus; split <;> rfl
@[simp] theorem State.sawStatus_mem : s.sawStatus.mem = s.mem := by
  unfold State.sawStatus; split <;> rfl
@[simp] theorem State.sawStatus_regions : s.sawStatus.regions = s.regions := by
  unfold State.sawStatus; split <;> rfl
@[simp] theorem State.sawStatus_record : s.sawStatus.record = s.record := by
  unfold State.sawStatus; split <;> rfl
@[simp] theorem State.sawStatus_events : s.sawStatus.events = s.events := by
  unfold State.sawStatus; split <;> rfl
@[simp] theorem State.sawStatus_readData : s.sawStatus.readData = s.readData := by
  unfold State.sawStatus; split <;> rfl
@[simp] theorem State.sawStatus_free : s.sawStatus.free = s.free := by
  unfold State.sawStatus; split <;> rfl
@[simp] theorem State.sawStatus_rivals : s.sawStatus.rivals = s.rivals := by
  unfold State.sawStatus; split <;> rfl
@[simp] theorem State.sawStatus_sel : s.sawStatus.sel = s.sel := by
  unfold State.sawStatus; split <;> rfl
theorem State.sawStatus_unread : s.sawStatus.unread =
    if s.block.done then s.unread.filter fun e => e.block != s.sel else s.unread := by
  unfold State.sawStatus; split <;> rfl
/-- Seeing `STATUS` is an update of one field. -/
theorem State.sawStatus_eq : s.sawStatus = { s with
    unread := if s.block.done then s.unread.filter fun e => e.block != s.sel else s.unread } := by
  unfold State.sawStatus; split <;> rfl
end sawStatus

/-! ### Instances -/

@[simp] theorem State.focus_zero (s : State) : s.focus 0 = s := rfl
@[simp] theorem State.focus_params (s : State) (k : Nat) : (s.focus k).params = s.params := by
  unfold State.focus; split <;> [rfl; split <;> rfl]
@[simp] theorem State.focus_mem (s : State) (k : Nat) : (s.focus k).mem = s.mem := by
  unfold State.focus; split <;> [rfl; split <;> rfl]
@[simp] theorem State.focus_regions (s : State) (k : Nat) : (s.focus k).regions = s.regions := by
  unfold State.focus; split <;> [rfl; split <;> rfl]
@[simp] theorem State.focus_record (s : State) (k : Nat) : (s.focus k).record = s.record := by
  unfold State.focus; split <;> [rfl; split <;> rfl]
@[simp] theorem State.focus_events (s : State) (k : Nat) : (s.focus k).events = s.events := by
  unfold State.focus; split <;> [rfl; split <;> rfl]
@[simp] theorem State.focus_readData (s : State) (k : Nat) : (s.focus k).readData = s.readData := by
  unfold State.focus; split <;> [rfl; split <;> rfl]
@[simp] theorem State.focus_free (s : State) (k : Nat) : (s.focus k).free = s.free := by
  unfold State.focus; split <;> [rfl; split <;> rfl]
@[simp] theorem State.focus_unread (s : State) (k : Nat) : (s.focus k).unread = s.unread := by
  unfold State.focus; split <;> [rfl; split <;> rfl]
@[simp] theorem State.focus_rivals (s : State) (k : Nat) : (s.focus k).rivals = s.rivals := by
  unfold State.focus; split <;> [rfl; split <;> rfl]
@[simp] theorem State.focus_peers_length (s : State) (k : Nat) :
    (s.focus k).peers.length = s.peers.length := by
  unfold State.focus; split <;> [rfl; split <;> simp]

/-- Bringing instance `k > 0` into place: it acts, and instance 0 stands where it was. -/
theorem State.focus_succ {s : State} {n : Nat} {b : Block} (h : s.peers[n]? = some b) :
    s.focus (n + 1) =
      { s with block := b, peers := s.peers.set n s.block, sel := if s.sel = 0 then n + 1 else 0 } := by
  simp [State.focus, h]

/-- Doing it twice changes nothing, when instance 0 was in its place. -/
theorem State.focus_focus {s : State} (h : s.sel = 0) (k : Nat) : (s.focus k).focus k = s := by
  cases k with
  | zero => rfl
  | succ n =>
    rcases hb : s.peers[n]? with _ | b
    · simp [State.focus, hb]
    · have hn : n < s.peers.length := (List.getElem?_eq_some_iff.1 hb).1
      rw [State.focus_succ hb, State.focus_succ (b := s.block) (by simp [hn])]
      have hset : s.peers.set n b = s.peers := by
        rw [← (List.getElem?_eq_some_iff.1 hb).2]; exact List.set_getElem_self hn
      cases s
      simp_all

/-- What bringing instance `k` into place, letting it act and bringing it back leaves, when the action
touched no other instance: instance `k` alone is replaced. -/
theorem State.focus_back {s u : State} {k : Nat} (hk : k ≤ s.peers.length) (hs : s.sel = 0)
    (hp : u.peers = (s.focus k).peers) (hsel : u.sel = (s.focus k).sel) :
    (u.focus k).sel = 0 ∧
      (k = 0 → (u.focus k).block = u.block ∧ (u.focus k).peers = s.peers) ∧
      ∀ n, k = n + 1 →
        (u.focus k).block = s.block ∧ (u.focus k).peers = s.peers.set n u.block := by
  cases k with
  | zero => simp_all
  | succ n =>
    have hn : n < s.peers.length := hk
    rw [State.focus_succ (b := s.peers[n]) (by simp [hn])] at hp hsel
    have hub : u.peers[n]? = some s.block := by rw [hp]; simp [hn]
    rw [State.focus_succ hub]
    refine ⟨by simp [hsel, hs], by omega, fun m hm => ?_⟩
    cases hm
    exact ⟨rfl, by simp [hp]⟩

/-- Bringing an instance into place does not look at the actions still to happen. -/
theorem State.focus_with_events (s : State) (k : Nat) (es : List Event) :
    ({ s with events := es } : State).focus k = { s.focus k with events := es } := by
  unfold State.focus
  split
  · rfl
  · simp only; split <;> rfl

/-- Which instances there are does not depend on the actions still to happen. -/
@[simp] theorem State.focus_block_events (s : State) (k : Nat) (es : List Event) :
    (({ s with events := es } : State).focus k).block = (s.focus k).block := by
  unfold State.focus
  split
  · rfl
  · simp only; split <;> rfl

@[simp] theorem mapNext_next (f : State → State) (s : State) :
    mapNext f (.next s) = .next (f s) := rfl

theorem mapNext_eq_next {f : State → State} {o : Host.Outcome State Fault Refusal} {t : State} :
    mapNext f o = .next t ↔ ∃ u, o = .next u ∧ f u = t := by
  cases o <;> simp [mapNext]

/-- Everything an action on an instance can do when it answers a next state. -/
theorem onBlock_eq_next {k : Nat} {act : State → Host.Outcome State Fault Refusal} {s t : State}
    (h : onBlock k act s = .next t) :
    k ≤ s.peers.length ∧ ∃ u, act (s.focus k) = .next u ∧ t = u.focus k := by
  unfold onBlock at h
  split at h
  · next hk =>
    obtain ⟨u, hu, rfl⟩ := mapNext_eq_next.1 h
    exact ⟨hk, u, hu, rfl⟩
  · cases h

theorem onBlock_zero (act : State → Host.Outcome State Fault Refusal) (s : State) :
    onBlock 0 act s = act s := by
  unfold onBlock
  simp only [Nat.zero_le, if_true, State.focus_zero]
  cases act s <;> rfl

end Sys2Proof.Machine
end

