-- ==== Sys2Proof/Laws/Access.lean ====
section
/-!
SUPPORT. What the engine's guarded accesses, the gathers, the saturation pack and the pixel steps can
do: they come to their end exactly with permission for every access, and then did exactly this.
-/
namespace Sys2Proof.Machine

theorem outcomeOf_eq_next {x : Reached} {t : State} : outcomeOf x = .next t ↔ x = ⟨t, none⟩ := by
  rcases x with ⟨u, _ | _ | _⟩ <;> simp [outcomeOf]

/-- A sequence comes to its end exactly when both its parts do. -/
theorem Reached.andThen_eq {r : Reached} {next : State → Reached} {t : State} :
    r.andThen next = ⟨t, none⟩ ↔ ∃ u, r = ⟨u, none⟩ ∧ next u = ⟨t, none⟩ := by
  rcases r with ⟨u, _ | _⟩ <;> simp [Reached.andThen]

@[simp] theorem Reached.andThen_none (u : State) (next : State → Reached) :
    (⟨u, none⟩ : Reached).andThen next = next u := rfl

@[simp] theorem Reached.andThen_some (u : State) (e : Stop) (next : State → Reached) :
    (⟨u, some e⟩ : Reached).andThen next = ⟨u, some e⟩ := rfl

/-- A read succeeds exactly with permission, and returns the byte that memory holds. -/
theorem State.engineRead_eq_ok {s : State} {t : Touch} {v : Byte} :
    s.engineRead t = .ok v ↔ s.ReadOk t.addr ∧ v = Memory.read s.mem t.addr.toNat := by
  constructor
  · intro h
    unfold State.engineRead at h
    split_ifs at h with h1 h2 h3
    split at h
    · cases h
    · next hc =>
      cases h
      exact ⟨⟨h1, by simpa using h2, by simpa using h3, hc⟩, rfl⟩
  · rintro ⟨⟨h1, h2, h3, h4⟩, rfl⟩
    unfold State.engineRead
    rw [if_neg (not_not.2 h1), if_neg (by simp [h2]), if_neg (by simp [h3]), h4]

theorem State.engineRead_of_ok {s : State} {t : Touch} (h : s.ReadOk t.addr) :
    s.engineRead t = .ok (Memory.read s.mem t.addr.toNat) :=
  State.engineRead_eq_ok.2 ⟨h, rfl⟩

/-- A write succeeds exactly with permission, and stores the one byte. -/
theorem State.engineWrite_eq_ok {s u : State} {a : Int} {c r : Nat} {v : Byte} :
    s.engineWrite a c r v = .ok u ↔ s.WriteOk a ∧ u = s.store a.toNat v := by
  constructor
  · intro h
    unfold State.engineWrite at h
    split_ifs at h with h1 h2 h3
    split at h
    · cases h
    · next hc =>
      cases h
      exact ⟨⟨h1, by simpa using h2, by simpa using h3, hc⟩, rfl⟩
  · rintro ⟨⟨h1, h2, h3, h4⟩, rfl⟩
    unfold State.engineWrite
    rw [if_neg (not_not.2 h1), if_neg (by simp [h2]), if_neg (by simp [h3]), h4]

/-- One write of a sequence goes on exactly with permission. -/
theorem State.tryWrite_eq {s u : State} {a : Int} {c r : Nat} {v : Byte} :
    s.tryWrite a c r v = ⟨u, none⟩ ↔ s.WriteOk a ∧ u = s.store a.toNat v := by
  rw [← State.engineWrite_eq_ok (c := c) (r := r)]
  unfold State.tryWrite
  cases s.engineWrite a c r v <;> simp

/-- A store changes no permission. -/
@[simp] theorem State.store_writeOk (s : State) (a : Nat) (v : Byte) (x : Int) :
    (s.store a v).WriteOk x ↔ s.WriteOk x := Iff.rfl

/-- What `pack` leaves: three bytes stored, R lowest. -/
def State.packed (s : State) (a : Nat) (r g b : Byte) : State :=
  { s with mem := Memory.write (Memory.write (Memory.write s.mem a r) (a + 1) g) (a + 2) b }

section packed
variable (s : State) (a : Nat) (r g b : Byte)
@[simp] theorem State.packed_block : (s.packed a r g b).block = s.block := rfl
@[simp] theorem State.packed_params : (s.packed a r g b).params = s.params := rfl
@[simp] theorem State.packed_peers : (s.packed a r g b).peers = s.peers := rfl
@[simp] theorem State.packed_regions : (s.packed a r g b).regions = s.regions := rfl
@[simp] theorem State.packed_record : (s.packed a r g b).record = s.record := rfl
@[simp] theorem State.packed_events : (s.packed a r g b).events = s.events := rfl
@[simp] theorem State.packed_readData : (s.packed a r g b).readData = s.readData := rfl
@[simp] theorem State.packed_free : (s.packed a r g b).free = s.free := rfl
@[simp] theorem State.packed_unread : (s.packed a r g b).unread = s.unread := rfl
@[simp] theorem State.packed_rivals : (s.packed a r g b).rivals = s.rivals := rfl
@[simp] theorem State.packed_sel : (s.packed a r g b).sel = s.sel := rfl
end packed

/-- The bytes after a pack: the three packed ones, and every other byte as before. -/
theorem State.read_packed (s : State) (a : Nat) (r g b : Byte) (x : Nat) :
    Memory.read (s.packed a r g b).mem x =
      if x = a then r else if x = a + 1 then g else if x = a + 2 then b
      else Memory.read s.mem x := by
  simp only [State.packed, Memory.read_write]
  by_cases h0 : x = a
  · subst h0; simp
  · by_cases h1 : x = a + 1
    · subst h1; simp
    · simp [h0, h1]

/-- A pack comes to its end exactly with permission for its three bytes. -/
theorem State.pack_eq {s u : State} {a : Int} {c r : Nat} {x y z : Byte} :
    s.pack a c r x y z = ⟨u, none⟩ ↔
      (s.WriteOk a ∧ s.WriteOk (a + 1) ∧ s.WriteOk (a + 2)) ∧ u = s.packed a.toNat x y z := by
  have hmem : 0 ≤ a → ((s.store a.toNat x).store (a + 1).toNat y).store (a + 2).toNat z =
      s.packed a.toNat x y z := by
    intro h
    rw [show (a + 1).toNat = a.toNat + 1 by omega, show (a + 2).toNat = a.toNat + 2 by omega]
    rfl
  simp only [State.pack, Reached.andThen_eq, State.tryWrite_eq]
  constructor
  · rintro ⟨_, ⟨_, ⟨w1, rfl⟩, w2, rfl⟩, w3, rfl⟩
    exact ⟨⟨w1, w2, w3⟩, hmem w1.1.1⟩
  · rintro ⟨⟨w1, w2, w3⟩, rfl⟩
    exact ⟨_, ⟨_, ⟨w1, rfl⟩, w2, rfl⟩, w3, (hmem w1.1.1).symm⟩

/-- The gather succeeds exactly with permission for its three bytes (R85). -/
theorem State.gather_eq_ok {s : State} {o : YuvOperands} {i j : Nat} {r : Byte × Byte × Byte} :
    s.gather o i j = .ok r ↔
      (s.ReadOk (o.luma i j).addr ∧ s.ReadOk (o.chromaU i j).addr ∧
        s.ReadOk (o.chromaV i j).addr) ∧
      r = (Memory.read s.mem (o.luma i j).addr.toNat,
        Memory.read s.mem (o.chromaU i j).addr.toNat,
        Memory.read s.mem (o.chromaV i j).addr.toNat) := by
  constructor
  · intro h
    simp only [State.gather, bind, Except.bind] at h
    split at h
    · cases h
    · next y hy =>
      split at h
      · cases h
      · next u hu =>
        split at h
        · cases h
        · next v hv =>
          obtain ⟨k1, rfl⟩ := State.engineRead_eq_ok.1 hy
          obtain ⟨k2, rfl⟩ := State.engineRead_eq_ok.1 hu
          obtain ⟨k3, rfl⟩ := State.engineRead_eq_ok.1 hv
          cases h
          exact ⟨⟨k1, k2, k3⟩, rfl⟩
  · rintro ⟨⟨k1, k2, k3⟩, rfl⟩
    simp only [State.gather, bind, Except.bind, State.engineRead_of_ok k1,
      State.engineRead_of_ok k2, State.engineRead_of_ok k3]
    rfl

/-- What the pixel step of `YUV420_TO_RGB` leaves (R90). -/
def State.yuvPixelDone (s : State) (o : YuvOperands) : State :=
  let i := s.block.seqI
  let j := s.block.seqJ
  let y := Memory.read s.mem (o.luma i j).addr.toNat
  let u := Memory.read s.mem (o.chromaU i j).addr.toNat
  let v := Memory.read s.mem (o.chromaV i j).addr.toNat
  (s.packed (o.outAddr i j).toNat (red y v) (green y u v) (blue y u)).withBlock
    (s.block.advanceYuv o.height)

/-- Permission for the six accesses of the pixel the sequencer is at (R90). -/
abbrev State.YuvPixelOk (s : State) (o : YuvOperands) (i j : Nat) : Prop :=
  (s.ReadOk (o.luma i j).addr ∧ s.ReadOk (o.chromaU i j).addr ∧ s.ReadOk (o.chromaV i j).addr) ∧
    (s.WriteOk (o.outAddr i j) ∧ s.WriteOk (o.outAddr i j + 1) ∧ s.WriteOk (o.outAddr i j + 2))

/-- The pixel step comes to its end exactly with permission for its six accesses. -/
theorem yuvPixel_eq {s t : State} {o : YuvOperands} :
    yuvPixel s o = ⟨t, none⟩ ↔
      s.YuvPixelOk o s.block.seqI s.block.seqJ ∧ t = s.yuvPixelDone o := by
  have hg := @State.gather_eq_ok s o s.block.seqI s.block.seqJ
  unfold yuvPixel
  simp only
  split
  · next e he =>
    refine Iff.intro (fun h => nomatch h) ?_
    rintro ⟨⟨kr, _⟩, _⟩
    rw [State.gather_eq_ok.2 ⟨kr, rfl⟩] at he
    cases he
  · next y u v h =>
    obtain ⟨kr, hr⟩ := hg.1 h
    simp only [Prod.mk.injEq] at hr
    obtain ⟨rfl, rfl, rfl⟩ := hr
    rw [Reached.andThen_eq]
    simp only [State.pack_eq, Reached.mk.injEq, and_true]
    constructor
    · rintro ⟨_, ⟨kw, rfl⟩, rfl⟩
      exact ⟨⟨kr, kw⟩, rfl⟩
    · rintro ⟨⟨_, kw⟩, rfl⟩
      exact ⟨_, ⟨kw, rfl⟩, rfl⟩

/-- The four reads succeed exactly with permission, alpha included (R108). -/
theorem State.gatherBgra_eq_ok {s : State} {o : BgraOperands} {r c : Nat} {x : Byte × Byte × Byte} :
    s.gatherBgra o r c = .ok x ↔
      (s.ReadOk (o.lane r c 0).addr ∧ s.ReadOk (o.lane r c 1).addr ∧ s.ReadOk (o.lane r c 2).addr ∧
        s.ReadOk (o.lane r c 3).addr) ∧
      x = (Memory.read s.mem (o.lane r c 0).addr.toNat,
        Memory.read s.mem (o.lane r c 1).addr.toNat,
        Memory.read s.mem (o.lane r c 2).addr.toNat) := by
  constructor
  · intro h
    simp only [State.gatherBgra, bind, Except.bind] at h
    split at h
    · cases h
    · next b hb =>
      split at h
      · cases h
      · next g hg =>
        split at h
        · cases h
        · next rr hrr =>
          split at h
          · cases h
          · next al hal =>
            obtain ⟨k0, rfl⟩ := State.engineRead_eq_ok.1 hb
            obtain ⟨k1, rfl⟩ := State.engineRead_eq_ok.1 hg
            obtain ⟨k2, rfl⟩ := State.engineRead_eq_ok.1 hrr
            obtain ⟨k3, rfl⟩ := State.engineRead_eq_ok.1 hal
            cases h
            exact ⟨⟨k0, k1, k2, k3⟩, rfl⟩
  · rintro ⟨⟨k0, k1, k2, k3⟩, rfl⟩
    simp only [State.gatherBgra, bind, Except.bind, State.engineRead_of_ok k0,
      State.engineRead_of_ok k1, State.engineRead_of_ok k2, State.engineRead_of_ok k3]
    rfl

/-- What the pixel step of `BGRA_TO_RGB` leaves (R108). -/
def State.bgraPixelDone (s : State) (o : BgraOperands) : State :=
  let r := s.block.seqR
  let c := s.block.seqC
  (s.packed s.block.seqOptr (Memory.read s.mem (o.lane r c 2).addr.toNat)
    (Memory.read s.mem (o.lane r c 1).addr.toNat)
    (Memory.read s.mem (o.lane r c 0).addr.toNat)).withBlock (s.block.advanceBgra o.width)

/-- Permission for the seven accesses of the pixel the sequencer is at (R108). -/
abbrev State.BgraPixelOk (s : State) (o : BgraOperands) (r c : Nat) : Prop :=
  (s.ReadOk (o.lane r c 0).addr ∧ s.ReadOk (o.lane r c 1).addr ∧ s.ReadOk (o.lane r c 2).addr ∧
    s.ReadOk (o.lane r c 3).addr) ∧
    (s.WriteOk s.block.seqOptr ∧ s.WriteOk (s.block.seqOptr + 1) ∧
      s.WriteOk (s.block.seqOptr + 2))

/-- The pixel step comes to its end exactly with permission for its seven accesses. -/
theorem bgraPixel_eq {s t : State} {o : BgraOperands} :
    bgraPixel s o = ⟨t, none⟩ ↔
      s.BgraPixelOk o s.block.seqR s.block.seqC ∧ t = s.bgraPixelDone o := by
  have hg := @State.gatherBgra_eq_ok s o s.block.seqR s.block.seqC
  unfold bgraPixel
  simp only
  split
  · next e he =>
    refine Iff.intro (fun h => nomatch h) ?_
    rintro ⟨⟨kr, _⟩, _⟩
    rw [State.gatherBgra_eq_ok.2 ⟨kr, rfl⟩] at he
    cases he
  · next b g rr h =>
    obtain ⟨kr, hr⟩ := hg.1 h
    simp only [Prod.mk.injEq] at hr
    obtain ⟨rfl, rfl, rfl⟩ := hr
    rw [Reached.andThen_eq]
    simp only [State.pack_eq, Reached.mk.injEq, and_true]
    constructor
    · rintro ⟨_, ⟨kw, rfl⟩, rfl⟩
      exact ⟨⟨kr, kw⟩, rfl⟩
    · rintro ⟨⟨_, kw⟩, rfl⟩
      exact ⟨_, ⟨kw, rfl⟩, rfl⟩

/-! ### Where a sequence stops -/

/-- A write without permission stops where it is. -/
theorem State.tryWrite_of_error {s : State} {a : Int} {c r : Nat} {v : Byte} {e : Stop}
    (h : s.engineWrite a c r v = .error e) : s.tryWrite a c r v = ⟨s, some e⟩ := by
  simp [State.tryWrite, h]

/-- Everything an engine read can stop on, in its order. -/
theorem State.engineRead_eq_error {s : State} {t : Touch} {e : Stop} :
    s.engineRead t = .error e ↔
      (¬ Params.InSpace s.params t.addr ∧ e = .fault (.noSuchAddress t.addr)) ∨
      (Params.InSpace s.params t.addr ∧ s.isDevice t.addr.toNat = true ∧
        e = .refused (.deviceMemory t.addr.toNat)) ∨
      (Params.InSpace s.params t.addr ∧ s.isDevice t.addr.toNat = false ∧
        s.mayRead t.addr.toNat = false ∧ e = .fault (.readOutOfBuffer t.addr t.column t.row t.plane)) ∨
      (Params.InSpace s.params t.addr ∧ s.isDevice t.addr.toNat = false ∧
        s.mayRead t.addr.toNat = true ∧ ∃ k, s.peerClash Footprint.clashesRead t.addr = some k ∧
          e = .fault (.concurrentConflict t.addr (.engine s.sel) (.engine k))) := by
  unfold State.engineRead
  by_cases h1 : Params.InSpace s.params t.addr
  · rw [if_neg (not_not.2 h1), eq_true h1]
    by_cases h2 : s.isDevice t.addr.toNat = true
    · simp [h2, eq_comm (a := e)]
    · rw [if_neg h2]
      by_cases h3 : s.mayRead t.addr.toNat = true
      · rw [if_neg (not_not.2 h3)]
        simp only [h2, h3]
        cases s.peerClash Footprint.clashesRead t.addr <;> simp [eq_comm (a := e)]
      · simp [h2, h3, eq_comm (a := e)]
  · rw [if_pos h1, eq_false h1]; simp [eq_comm (a := e)]

/-- Everything an engine write can stop on, in its order. -/
theorem State.engineWrite_eq_error {s : State} {a : Int} {c r : Nat} {v : Byte}
    {e : Stop} :
    s.engineWrite a c r v = .error e ↔
      (¬ Params.InSpace s.params a ∧ e = .fault (.noSuchAddress a)) ∨
      (Params.InSpace s.params a ∧ s.isDevice a.toNat = true ∧
        e = .refused (.deviceMemory a.toNat)) ∨
      (Params.InSpace s.params a ∧ s.isDevice a.toNat = false ∧
        s.mayWrite a.toNat = false ∧ e = .fault (.writeOutOfBuffer a c r)) ∨
      (Params.InSpace s.params a ∧ s.isDevice a.toNat = false ∧
        s.mayWrite a.toNat = true ∧ ∃ k, s.peerClash Footprint.clashesWrite a = some k ∧
          e = .fault (.concurrentConflict a (.engine s.sel) (.engine k))) := by
  unfold State.engineWrite
  by_cases h1 : Params.InSpace s.params a
  · rw [if_neg (not_not.2 h1), eq_true h1]
    by_cases h2 : s.isDevice a.toNat = true
    · simp [h2, eq_comm (a := e)]
    · rw [if_neg h2]
      by_cases h3 : s.mayWrite a.toNat = true
      · rw [if_neg (not_not.2 h3)]
        simp only [h2, h3]
        cases s.peerClash Footprint.clashesWrite a <;> simp [eq_comm (a := e)]
      · simp [h2, h3, eq_comm (a := e)]
  · rw [if_pos h1, eq_false h1]; simp [eq_comm (a := e)]

/-- A store changes no later write's stop. -/
theorem State.engineWrite_store_error {s : State} {a : Int} {c r n : Nat} {v w : Byte} {e : Stop} :
    (s.store n w).engineWrite a c r v = .error e ↔ s.engineWrite a c r v = .error e := by
  rw [State.engineWrite_eq_error, State.engineWrite_eq_error]
  rfl

/-- A write without permission stops. -/
theorem State.engineWrite_of_not_ok {s : State} {a : Int} (c r : Nat) (h : ¬ s.WriteOk a) :
    ∃ e, ∀ v, s.engineWrite a c r v = .error e := by
  rcases hw : s.engineWrite a c r 0 with e | u
  · exact ⟨e, fun v => State.engineWrite_eq_error.2 (State.engineWrite_eq_error.1 hw)⟩
  · exact absurd (State.engineWrite_eq_ok.1 hw).1 h

/-- A read without permission stops. -/
theorem State.engineRead_of_not_ok {s : State} {t : Touch} (h : ¬ s.ReadOk t.addr) :
    ∃ e, s.engineRead t = .error e := by
  rcases hr : s.engineRead t with e | v
  · exact ⟨e, rfl⟩
  · exact absurd (State.engineRead_eq_ok.1 hr).1 h

@[simp] theorem YuvOperands.touch_zero (o : YuvOperands) (i j : Nat) : o.touch i j 0 = o.luma i j :=
  rfl
@[simp] theorem YuvOperands.touch_one (o : YuvOperands) (i j : Nat) : o.touch i j 1 = o.chromaU i j :=
  rfl
@[simp] theorem YuvOperands.touch_two (o : YuvOperands) (i j : Nat) : o.touch i j 2 = o.chromaV i j :=
  rfl

section stops
variable {s : State} {a : Int} {c r : Nat} {x y z : Byte} {e : Stop}

/-- A pack that may not write its first byte leaves memory as it was (60_exceptions.md R134). -/
theorem State.pack_stop_zero (h : s.engineWrite a c r x = .error e) :
    s.pack a c r x y z = ⟨s, some e⟩ := by
  simp [State.pack, State.tryWrite_of_error h]

/-- A pack that may not write its second byte has written its first. -/
theorem State.pack_stop_one (w : s.WriteOk a) (h : s.engineWrite (a + 1) c r y = .error e) :
    s.pack a c r x y z = ⟨s.store a.toNat x, some e⟩ := by
  simp only [State.pack, State.tryWrite_eq.2 ⟨w, rfl⟩, Reached.andThen_none,
    State.tryWrite_of_error (State.engineWrite_store_error.2 h), Reached.andThen_some]

/-- A pack that may not write its third byte has written the other two. -/
theorem State.pack_stop_two (w0 : s.WriteOk a) (w1 : s.WriteOk (a + 1))
    (h : s.engineWrite (a + 2) c r z = .error e) :
    s.pack a c r x y z = ⟨(s.store a.toNat x).store (a + 1).toNat y, some e⟩ := by
  simp only [State.pack, State.tryWrite_eq.2 ⟨w0, rfl⟩, Reached.andThen_none,
    State.tryWrite_eq.2 ⟨(State.store_writeOk ..).2 w1, rfl⟩,
    State.tryWrite_of_error (State.engineWrite_store_error.2 (State.engineWrite_store_error.2 h))]

variable {o : YuvOperands} {q : BgraOperands} {n : Nat}

/-- A pixel step stops at the first read it may not make, and has written nothing. -/
theorem yuvPixel_stop_read (hn : n < 3)
    (hk : ∀ m < n, s.ReadOk (o.touch s.block.seqI s.block.seqJ m).addr)
    (h : s.engineRead (o.touch s.block.seqI s.block.seqJ n) = .error e) :
    yuvPixel s o = ⟨s, some e⟩ := by
  have hg : s.gather o s.block.seqI s.block.seqJ = .error e := by
    unfold State.gather
    rw [← YuvOperands.touch_zero, ← YuvOperands.touch_one, ← YuvOperands.touch_two]
    obtain rfl | rfl | rfl : n = 0 ∨ n = 1 ∨ n = 2 := by omega
    · rw [h]; rfl
    · rw [State.engineRead_of_ok (hk 0 (by omega)), h]; rfl
    · rw [State.engineRead_of_ok (hk 0 (by omega)), State.engineRead_of_ok (hk 1 (by omega)), h]; rfl
  unfold yuvPixel
  simp only [hg]

/-- With its reads permitted, a pixel step is the pack of the three bytes and the advance. -/
theorem yuvPixel_of_reads
    (hk : ∀ m < 3, s.ReadOk (o.touch s.block.seqI s.block.seqJ m).addr) :
    yuvPixel s o =
      (s.pack (o.outAddr s.block.seqI s.block.seqJ) s.block.seqI s.block.seqJ
        (o.closedForm s.mem s.block.seqI s.block.seqJ 0)
        (o.closedForm s.mem s.block.seqI s.block.seqJ 1)
        (o.closedForm s.mem s.block.seqI s.block.seqJ 2)).andThen
        fun t => ⟨t.withBlock (t.block.advanceYuv o.height), none⟩ := by
  have hg := State.gather_eq_ok.2 ⟨⟨hk 0 (by omega), hk 1 (by omega), hk 2 (by omega)⟩, rfl⟩
  unfold yuvPixel
  simp only [hg]
  rfl

/-- A pixel step stops at the first read it may not make, and has written nothing. -/
theorem bgraPixel_stop_read (hn : n < 4)
    (hk : ∀ m < n, s.ReadOk (q.lane s.block.seqR s.block.seqC m).addr)
    (h : s.engineRead (q.lane s.block.seqR s.block.seqC n) = .error e) :
    bgraPixel s q = ⟨s, some e⟩ := by
  have hg : s.gatherBgra q s.block.seqR s.block.seqC = .error e := by
    unfold State.gatherBgra
    obtain rfl | rfl | rfl | rfl : n = 0 ∨ n = 1 ∨ n = 2 ∨ n = 3 := by omega
    · rw [h]; rfl
    · rw [State.engineRead_of_ok (hk 0 (by omega)), h]; rfl
    · rw [State.engineRead_of_ok (hk 0 (by omega)), State.engineRead_of_ok (hk 1 (by omega)), h]; rfl
    · rw [State.engineRead_of_ok (hk 0 (by omega)), State.engineRead_of_ok (hk 1 (by omega)),
        State.engineRead_of_ok (hk 2 (by omega)), h]; rfl
  unfold bgraPixel
  simp only [hg]

/-- With its reads permitted, a pixel step is the pack of the three bytes and the advance. -/
theorem bgraPixel_of_reads
    (hk : ∀ m < 4, s.ReadOk (q.lane s.block.seqR s.block.seqC m).addr) :
    bgraPixel s q =
      (s.pack s.block.seqOptr s.block.seqC s.block.seqR
        (q.closedForm s.mem s.block.seqR s.block.seqC 0)
        (q.closedForm s.mem s.block.seqR s.block.seqC 1)
        (q.closedForm s.mem s.block.seqR s.block.seqC 2)).andThen
        fun t => ⟨t.withBlock (t.block.advanceBgra q.width), none⟩ := by
  have hg := State.gatherBgra_eq_ok.2
    ⟨⟨hk 0 (by omega), hk 1 (by omega), hk 2 (by omega), hk 3 (by omega)⟩, rfl⟩
  unfold bgraPixel
  simp only [hg]
  rfl

end stops

end Sys2Proof.Machine
end

