-- ==== Sys2Proof/Laws/Contract.lean ====
section
/-!
SUPPORT. START's checks against the contract: an affine function lies between its values at the ends
of an interval, so clause CY3 at the four corner pixels is clause CY3 at every pixel (R80, R81); START
finds no fault exactly when the operands meet the contract.
-/
namespace Sys2Proof.Machine

theorem Fits.mono {gw : Nat} {lo hi v : Int} (hl : Fits gw lo) (hh : Fits gw hi)
    (h : (lo ≤ v ∧ v ≤ hi) ∨ (hi ≤ v ∧ v ≤ lo)) : Fits gw v := by
  unfold Fits at *; omega

/-- A product by `n`, `0 ≤ n ≤ m`, lies between zero and the product by `m`. -/
theorem mul_between (k : Int) {n m : Nat} (h : n ≤ m) :
    (0 ≤ (n : Int) * k ∧ (n : Int) * k ≤ m * k) ∨ ((m : Int) * k ≤ n * k ∧ (n : Int) * k ≤ 0) := by
  have hn : (0 : Int) ≤ n := by omega
  have hm : (n : Int) ≤ m := by omega
  rcases le_total 0 k with hk | hk
  · exact .inl ⟨mul_nonneg hn hk, mul_le_mul_of_nonneg_right hm hk⟩
  · exact .inr ⟨mul_le_mul_of_nonpos_right hm hk, mul_nonpos_of_nonneg_of_nonpos hn hk⟩

theorem YuvOperands.pixelOverflow?_eq_none {p : Params} {o : YuvOperands} {i j : Nat} :
    o.pixelOverflow? p (i, j) = none ↔ o.PixelFits p i j := by
  unfold YuvOperands.pixelOverflow? YuvOperands.PixelFits
  by_cases h1 : o.LumaFits p i j
  · by_cases h2 : o.ChromaFits p i j
    · by_cases h3 : o.OutputFits p i j
      · rw [if_neg (not_not.2 h1), if_neg (not_not.2 h2), if_neg (not_not.2 h3)]
        exact iff_of_true rfl ⟨h1, h2, h3⟩
      · rw [if_neg (not_not.2 h1), if_neg (not_not.2 h2), if_pos h3]
        exact iff_of_false nofun fun h => h3 h.2.2
    · rw [if_neg (not_not.2 h1), if_pos h2]
      exact iff_of_false nofun fun h => h2 h.2.1
  · rw [if_pos h1]
    exact iff_of_false nofun fun h => h1 h.1

theorem YuvOperands.lumaFits_of_corners {p : Params} {o : YuvOperands} {i j I J : Nat}
    (hi : i ≤ I) (hj : j ≤ J) (_h00 : o.LumaFits p 0 0) (hI0 : o.LumaFits p I 0)
    (h0J : o.LumaFits p 0 J) (hIJ : o.LumaFits p I J) : o.LumaFits p i j := by
  have hb := mul_between o.pr hj
  unfold YuvOperands.LumaFits YuvOperands.yi Fits at *
  refine ⟨?_, ?_, ?_, ?_⟩ <;> push_cast at * <;> omega

theorem YuvOperands.chromaFits_of_corners {p : Params} {o : YuvOperands} {i j I J : Nat}
    (hi : i ≤ I) (hj : j ≤ J) (h00 : o.ChromaFits p 0 0) (hI0 : o.ChromaFits p I 0)
    (h0J : o.ChromaFits p 0 J) (hIJ : o.ChromaFits p I J) : o.ChromaFits p i j := by
  have hbi := mul_between o.pp (Nat.div_le_div_right hi : i / 2 ≤ I / 2)
  have hbj := mul_between o.pr (Nat.div_le_div_right hj : j / 2 ≤ J / 2)
  unfold YuvOperands.ChromaFits YuvOperands.ci Fits at *
  simp only [mul_comm o.pp, mul_comm o.pr, Nat.zero_div, Nat.cast_zero, zero_mul] at *
  generalize ((i / 2 : Nat) : Int) * o.pp = a at *
  generalize ((I / 2 : Nat) : Int) * o.pp = A at *
  generalize ((j / 2 : Nat) : Int) * o.pr = b at *
  generalize ((J / 2 : Nat) : Int) * o.pr = B at *
  refine ⟨?_, ?_, ?_, ?_, ?_, ?_⟩ <;> omega

theorem YuvOperands.outputFits_of_corners {p : Params} {o : YuvOperands} {i j I J : Nat}
    (hi : i ≤ I) (hj : j ≤ J) (h00 : o.OutputFits p 0 0) (hI0 : o.OutputFits p I 0)
    (h0J : o.OutputFits p 0 J) (hIJ : o.OutputFits p I J) : o.OutputFits p i j := by
  have hb := mul_between o.width hj
  unfold YuvOperands.OutputFits YuvOperands.oi Fits at *
  refine ⟨?_, ?_, ?_, ?_⟩ <;> push_cast at * <;> omega

/-- Clause CY3 holds at every pixel exactly when it holds at the corner pixels. -/
theorem YuvOperands.pixelOverflow_corners {p : Params} {o : YuvOperands} (hw : 1 ≤ o.width)
    (hh : 1 ≤ o.height) :
    o.corners.findSome? (o.pixelOverflow? p) = none ↔
      ∀ i j, o.HasPixel i j → o.PixelFits p i j := by
  simp only [YuvOperands.corners, List.findSome?_eq_none_iff, List.mem_cons, List.not_mem_nil,
    or_false, forall_eq_or_imp, forall_eq, YuvOperands.pixelOverflow?_eq_none]
  constructor
  · rintro ⟨h00, hI0, h0J, hIJ⟩ i j ⟨hi, hj⟩
    have hi' : i ≤ o.width.toNat - 1 := by omega
    have hj' : j ≤ o.height.toNat - 1 := by omega
    exact ⟨o.lumaFits_of_corners hi' hj' h00.1 hI0.1 h0J.1 hIJ.1,
      o.chromaFits_of_corners hi' hj' h00.2.1 hI0.2.1 h0J.2.1 hIJ.2.1,
      o.outputFits_of_corners hi' hj' h00.2.2 hI0.2.2 h0J.2.2 hIJ.2.2⟩
  · intro h
    refine ⟨h _ _ ?_, h _ _ ?_, h _ _ ?_, h _ _ ?_⟩ <;>
      (unfold YuvOperands.HasPixel; omega)

/-! ### Each check against its clause -/

theorem Block.unwritten?_eq_none {b : Block} {i : Instr} :
    b.unwritten? i = none ↔ ∀ n ∈ operandRegisters i, b.written[n] = true := by
  simp [Block.unwritten?, List.find?_eq_none]

theorem Footprint.overlapFault?_eq_none {f : Footprint} :
    f.overlapFault? = none ↔ f.Disjoint := by
  simp [Footprint.overlapFault?, Footprint.overlap?, List.find?_eq_none, Footprint.Disjoint]

theorem YuvOperands.badGeometry?_eq_none {p : Params} {o : YuvOperands} :
    o.badGeometry? p = none ↔
      1 ≤ o.width ∧ 1 ≤ o.height ∧ o.pp % p.pitchAlign = 0 ∧ o.pr % p.pitchAlign = 0 := by
  unfold YuvOperands.badGeometry?
  repeat' split
  all_goals simp_all

theorem YuvOperands.overflow?_eq_none {p : Params} {o : YuvOperands} (hw : 1 ≤ o.width)
    (hh : 1 ≤ o.height) :
    o.overflow? p = none ↔
      (∀ i j, o.HasPixel i j → o.PixelFits p i j) ∧
        o.rgbBase + 3 * o.width * o.height - 1 < 2 ^ p.aw := by
  rw [← YuvOperands.pixelOverflow_corners hw hh]
  unfold YuvOperands.overflow?
  split
  · next e he => simp [he]
  · next he =>
    split
    · next h => simp [he, h]
    · next h => simp [he, h]

/-- START of `YUV420_TO_RGB` finds no fault exactly when the operands meet the contract (R80, R117). -/
theorem yuvStartFault?_eq_none {p : Params} {b : Block} :
    yuvStartFault? p b = none ↔ YuvContract p b := by
  simp only [yuvStartFault?, Option.or_eq_none_iff, Block.unwritten?_eq_none,
    YuvOperands.badGeometry?_eq_none, Footprint.overlapFault?_eq_none]
  constructor
  · rintro ⟨h1, ⟨h2, h3, h4, h5⟩, h6, h7⟩
    obtain ⟨h8, h9⟩ := (YuvOperands.overflow?_eq_none h2 h3).1 h6
    exact ⟨h1, h2, h3, h4, h5, h8, h9, h7⟩
  · intro h
    exact ⟨h.written, ⟨h.width, h.height, h.ppAligned, h.prAligned⟩,
      (YuvOperands.overflow?_eq_none h.width h.height).2 ⟨h.fits, h.outputEnd⟩, h.disjoint⟩

theorem BgraOperands.badGeometry?_eq_none {p : Params} {o : BgraOperands} :
    o.badGeometry? p = none ↔
      1 ≤ o.width ∧ 1 ≤ o.height ∧ 4 * o.width ≤ o.rowBytes ∧ o.rowBytes % p.pitchAlign = 0 := by
  unfold BgraOperands.badGeometry?
  repeat' split
  all_goals simp_all

theorem BgraOperands.overflow?_eq_none {p : Params} {o : BgraOperands} :
    o.overflow? p = none ↔
      o.InputFits p ∧ o.OutputFits p ∧ o.rgbBase + 3 * o.width * o.height ≤ 2 ^ p.aw := by
  unfold BgraOperands.overflow?
  by_cases h1 : o.InputFits p
  · by_cases h2 : o.OutputFits p
    · rw [if_neg (not_not.2 h1), if_neg (not_not.2 h2)]
      by_cases h3 : (o.rgbBase : Int) + 3 * o.width * o.height ≤ 2 ^ p.aw
      · rw [if_pos h3]
        exact iff_of_true rfl ⟨h1, h2, h3⟩
      · rw [if_neg h3]
        exact iff_of_false nofun fun h => h3 h.2.2
    · rw [if_neg (not_not.2 h1), if_pos h2]
      exact iff_of_false nofun fun h => h2 h.2.1
  · rw [if_pos h1]
    exact iff_of_false nofun fun h => h1 h.1

/-- START of `BGRA_TO_RGB` finds no fault exactly when the operands meet the contract (R102, R117). -/
theorem bgraStartFault?_eq_none {p : Params} {b : Block} :
    bgraStartFault? p b = none ↔ BgraContract p b := by
  simp only [bgraStartFault?, Option.or_eq_none_iff, Block.unwritten?_eq_none,
    BgraOperands.badGeometry?_eq_none, Footprint.overlapFault?_eq_none,
    BgraOperands.overflow?_eq_none]
  constructor
  · rintro ⟨h1, ⟨h2, h3, h4, h5⟩, ⟨h6, h7, h8⟩, h9⟩
    exact ⟨h1, h2, h3, h4, h5, h6, h7, h8, h9⟩
  · intro h
    exact ⟨h.written, ⟨h.width, h.height, h.rowBytes, h.aligned⟩,
      ⟨h.inputFits, h.outputFits, h.outputEnd⟩, h.disjoint⟩

end Sys2Proof.Machine
end

