-- ==== Sys2Proof/Laws/Decode.lean ====
section
/-!
SUPPORT. The laws of decoding and encoding.
-/
namespace Sys2Proof

@[simp] theorem encode_yuv : encode .yuv420ToRgb = 1 := by decide
@[simp] theorem encode_bgra : encode .bgraToRgb = 2 := by decide

/-- The fields of a word make the word (30_encoding.md R56). -/
theorem CmdWord.fields (w : CmdWord) : CmdWord.rsvd w ++ CmdWord.opcode w = w := by
  ext i hi
  simp only [CmdWord.rsvd, CmdWord.opcode, BitVec.getElem_append, BitVec.getElem_extractLsb']
  split
  · simp [BitVec.getLsbD_eq_getElem hi]
  · next h =>
    have : 8 + (i - 8) = i := by omega
    rw [this, BitVec.getLsbD_eq_getElem hi]

theorem instrOfOpcode_ok_iff (op : BitVec 8) (i : Instr) :
    instrOfOpcode op = .ok i ↔ op = i.opcode := by
  unfold instrOfOpcode
  split
  · next h => subst h; cases i <;> simp [Instr.opcode]
  · next h =>
    split
    · next h2 => subst h2; cases i <;> simp [Instr.opcode]
    · next h2 => cases i <;> simp_all [Instr.opcode]

end Sys2Proof
end

