-- ==== Sys2Proof/Laws/Exec.lean ====
section
/-!
SUPPORT. Everything an instruction can do when it answers a next state: START in contract, a pixel
step with permission, or the finish step. Proofs cite these instead of unfolding `exec`.
-/
namespace Sys2Proof.Machine

/-- What START of `YUV420_TO_RGB` leaves of the instance (43_host_interface.md R117). -/
def Block.startedYuv (b : Block) : Block := { b.begin .yuv420ToRgb with seqI := 0, seqJ := 0 }

/-- What START of `BGRA_TO_RGB` leaves of the instance (43_host_interface.md R117). -/
def Block.startedBgra (p : Params) (b : Block) : Block :=
  { b.begin .bgraToRgb with seqR := 0, seqC := 0, seqOptr := (b.bgraOperands p).rgbBase }

theorem exec_yuv_cases {s t : State} (h : exec .yuv420ToRgb s = .next t) :
    (s.block.busy = false ∧ YuvContract s.params s.block ∧ t = s.withBlock s.block.startedYuv) ∨
    (s.block.busy = true ∧ s.block.cmd = encode .yuv420ToRgb ∧
      (s.block.seqI : Int) < (s.block.yuvOperands s.params).width ∧
      s.YuvPixelOk (s.block.yuvOperands s.params) s.block.seqI s.block.seqJ ∧
      t = s.yuvPixelDone (s.block.yuvOperands s.params)) ∨
    (s.block.busy = true ∧ s.block.cmd = encode .yuv420ToRgb ∧
      (s.block.yuvOperands s.params).width ≤ s.block.seqI ∧
      t = s.finish .yuv420ToRgb) := by
  simp only [exec, execYuv420ToRgb] at h
  split at h
  · next hb =>
    split at h
    · next hc =>
      unfold yuvEngine at h
      simp only at h
      split at h
      · next hi =>
        obtain ⟨hk, rfl⟩ := yuvPixel_eq.1 (outcomeOf_eq_next.1 h)
        exact .inr (.inl ⟨hb, hc, hi, hk, rfl⟩)
      · next hi =>
        cases h
        exact .inr (.inr ⟨hb, hc, not_lt.1 hi, rfl⟩)
    · cases h
  · next hb =>
    unfold yuvStart at h
    split at h
    · cases h
    · next hn =>
      cases h
      exact .inl ⟨by simpa using hb, yuvStartFault?_eq_none.1 hn, rfl⟩

theorem exec_bgra_cases {s t : State} (h : exec .bgraToRgb s = .next t) :
    (s.block.busy = false ∧ BgraContract s.params s.block ∧
      t = s.withBlock (s.block.startedBgra s.params)) ∨
    (s.block.busy = true ∧ s.block.cmd = encode .bgraToRgb ∧
      (s.block.seqR : Int) < (s.block.bgraOperands s.params).height ∧
      s.BgraPixelOk (s.block.bgraOperands s.params) s.block.seqR s.block.seqC ∧
      t = s.bgraPixelDone (s.block.bgraOperands s.params)) ∨
    (s.block.busy = true ∧ s.block.cmd = encode .bgraToRgb ∧
      (s.block.bgraOperands s.params).height ≤ s.block.seqR ∧
      t = s.finish .bgraToRgb) := by
  simp only [exec, execBgraToRgb] at h
  split at h
  · next hb =>
    split at h
    · next hc =>
      unfold bgraEngine at h
      simp only at h
      split at h
      · next hi =>
        obtain ⟨hk, rfl⟩ := bgraPixel_eq.1 (outcomeOf_eq_next.1 h)
        exact .inr (.inl ⟨hb, hc, hi, hk, rfl⟩)
      · next hi =>
        cases h
        exact .inr (.inr ⟨hb, hc, not_lt.1 hi, rfl⟩)
    · cases h
  · next hb =>
    unfold bgraStart at h
    split at h
    · cases h
    · next hn =>
      cases h
      exact .inl ⟨by simpa using hb, bgraStartFault?_eq_none.1 hn, rfl⟩

section done
variable (s : State) (o : YuvOperands) (q : BgraOperands)
@[simp] theorem State.yuvPixelDone_block :
    (s.yuvPixelDone o).block = s.block.advanceYuv o.height := rfl
@[simp] theorem State.yuvPixelDone_params : (s.yuvPixelDone o).params = s.params := rfl
@[simp] theorem State.yuvPixelDone_peers : (s.yuvPixelDone o).peers = s.peers := rfl
@[simp] theorem State.yuvPixelDone_regions : (s.yuvPixelDone o).regions = s.regions := rfl
@[simp] theorem State.yuvPixelDone_record : (s.yuvPixelDone o).record = s.record := rfl
@[simp] theorem State.yuvPixelDone_events : (s.yuvPixelDone o).events = s.events := rfl
@[simp] theorem State.yuvPixelDone_readData : (s.yuvPixelDone o).readData = s.readData := rfl
@[simp] theorem State.yuvPixelDone_free : (s.yuvPixelDone o).free = s.free := rfl
@[simp] theorem State.yuvPixelDone_unread : (s.yuvPixelDone o).unread = s.unread := rfl
@[simp] theorem State.yuvPixelDone_rivals : (s.yuvPixelDone o).rivals = s.rivals := rfl
@[simp] theorem State.yuvPixelDone_sel : (s.yuvPixelDone o).sel = s.sel := rfl
@[simp] theorem State.bgraPixelDone_block :
    (s.bgraPixelDone q).block = s.block.advanceBgra q.width := rfl
@[simp] theorem State.bgraPixelDone_params : (s.bgraPixelDone q).params = s.params := rfl
@[simp] theorem State.bgraPixelDone_peers : (s.bgraPixelDone q).peers = s.peers := rfl
@[simp] theorem State.bgraPixelDone_regions : (s.bgraPixelDone q).regions = s.regions := rfl
@[simp] theorem State.bgraPixelDone_record : (s.bgraPixelDone q).record = s.record := rfl
@[simp] theorem State.bgraPixelDone_events : (s.bgraPixelDone q).events = s.events := rfl
@[simp] theorem State.bgraPixelDone_readData : (s.bgraPixelDone q).readData = s.readData := rfl
@[simp] theorem State.bgraPixelDone_free : (s.bgraPixelDone q).free = s.free := rfl
@[simp] theorem State.bgraPixelDone_unread : (s.bgraPixelDone q).unread = s.unread := rfl
@[simp] theorem State.bgraPixelDone_rivals : (s.bgraPixelDone q).rivals = s.rivals := rfl
@[simp] theorem State.bgraPixelDone_sel : (s.bgraPixelDone q).sel = s.sel := rfl
end done

/-- An instruction touches the acting instance, memory and what is noted of ended operations only
(60_exceptions.md R141). -/
theorem exec_same {i : Instr} {s t : State} (h : exec i s = .next t) : SameElsewhere s t := by
  cases i
  · rcases exec_yuv_cases h with ⟨_, _, rfl⟩ | ⟨_, _, _, _, rfl⟩ | ⟨_, _, _, rfl⟩ <;>
      exact ⟨rfl, rfl, rfl, rfl, rfl, rfl, rfl, rfl⟩
  · rcases exec_bgra_cases h with ⟨_, _, rfl⟩ | ⟨_, _, _, _, rfl⟩ | ⟨_, _, _, rfl⟩ <;>
      exact ⟨rfl, rfl, rfl, rfl, rfl, rfl, rfl, rfl⟩

/-- What is noted of ended operations changes at the finish step alone. -/
theorem exec_ended {i : Instr} {s t : State} (h : exec i s = .next t) :
    (t.unread = s.unread ∧ t.rivals = s.rivals) ∨ (s.block.busy = true ∧ t = s.finish i) := by
  cases i
  · rcases exec_yuv_cases h with ⟨_, _, rfl⟩ | ⟨_, _, _, _, rfl⟩ | ⟨hb, _, _, rfl⟩
    · exact .inl ⟨rfl, rfl⟩
    · exact .inl ⟨rfl, rfl⟩
    · exact .inr ⟨hb, rfl⟩
  · rcases exec_bgra_cases h with ⟨_, _, rfl⟩ | ⟨_, _, _, _, rfl⟩ | ⟨hb, _, _, rfl⟩
    · exact .inl ⟨rfl, rfl⟩
    · exact .inl ⟨rfl, rfl⟩
    · exact .inr ⟨hb, rfl⟩

/-- An instruction leaves memory as it was, or, while BUSY, packs one pixel with permission. -/
theorem exec_mem {i : Instr} {s t : State} (h : exec i s = .next t) :
    t.mem = s.mem ∨ ∃ (a : Nat) (r g b : Byte), s.block.busy = true ∧
      t.mem = (s.packed a r g b).mem ∧
      s.WriteOk (a : Int) ∧ s.WriteOk ((a : Int) + 1) ∧ s.WriteOk ((a : Int) + 2) := by
  cases i
  · rcases exec_yuv_cases h with ⟨_, _, rfl⟩ | ⟨hb, _, _, ⟨_, w0, w1, w2⟩, rfl⟩ | ⟨_, _, _, rfl⟩
    · exact .inl rfl
    · refine .inr ⟨_, _, _, _, hb, rfl, ?_⟩
      rw [Int.toNat_of_nonneg w0.1.1]
      exact ⟨w0, w1, w2⟩
    · exact .inl rfl
  · rcases exec_bgra_cases h with ⟨_, _, rfl⟩ | ⟨hb, _, _, ⟨_, w⟩, rfl⟩ | ⟨_, _, _, rfl⟩
    · exact .inl rfl
    · exact .inr ⟨_, _, _, _, hb, rfl, w⟩
    · exact .inl rfl

end Sys2Proof.Machine
end

