-- ==== Sys2Proof/Laws/Footprint.lean ====
section
/-!
SUPPORT. The bytes of an operation (10_state.md R28): what each pixel reads and writes belongs to them,
in contract every read has an address, and what a conflict is.
-/
namespace Sys2Proof.Machine

/-- Only a running operation has bytes: those of the instruction that `CMD` names. -/
theorem Block.footprint?_eq_some {p : Params} {b : Block} {f : Footprint} :
    b.footprint? p = some f ↔
      b.busy = true ∧ ∃ i, decode b.cmd = .ok i ∧ f = b.footprintOf p i := by
  unfold Block.footprint?
  constructor
  · intro h
    split at h
    · next hb =>
      split at h
      · next i hi => cases h; exact ⟨hb, i, hi, rfl⟩
      · cases h
    · cases h
  · rintro ⟨hb, i, hi, rfl⟩
    simp [hb, hi]

/-- A pixel index is below the number of pixels. -/
theorem pixel_index_lt {i j w h : Int} (hi0 : 0 ≤ i) (hi : i < w) (hj0 : 0 ≤ j) (hj : j < h) :
    0 ≤ j * w + i ∧ j * w + i < w * h := by
  have hw : 0 ≤ w := by omega
  have hm := mul_le_mul_of_nonneg_right (show j + 1 ≤ h by omega) hw
  have h0 := mul_nonneg hj0 hw
  rw [add_mul, one_mul, mul_comm h w] at hm
  omega

/-- The three reads of a pixel are reads of the operation. -/
theorem YuvOperands.mem_reads {o : YuvOperands} {i j : Nat} (h : o.HasPixel i j) :
    o.luma i j ∈ o.reads ∧ o.chromaU i j ∈ o.reads ∧ o.chromaV i j ∈ o.reads := by
  obtain ⟨h1, h2⟩ := h
  have hi : i < o.width.toNat := by omega
  have hj : j < o.height.toNat := by omega
  simp only [YuvOperands.reads, List.mem_flatMap, List.mem_range]
  exact ⟨⟨i, hi, j, hj, by simp⟩, ⟨i, hi, j, hj, by simp⟩, ⟨i, hi, j, hj, by simp⟩⟩

/-- The four reads of a pixel are reads of the operation. -/
theorem BgraOperands.mem_reads {o : BgraOperands} {r c k : Nat} (hr : (r : Int) < o.height)
    (hc : (c : Int) < o.width) (hk : k < 4) : o.lane r c k ∈ o.reads := by
  simp only [BgraOperands.reads, List.mem_flatMap, List.mem_range]
  refine ⟨r, by omega, c, by omega, ?_⟩
  have : k = 0 ∨ k = 1 ∨ k = 2 ∨ k = 3 := by omega
  rcases this with rfl | rfl | rfl | rfl <;> simp

/-- The three bytes of a pixel are output bytes (41_yuv420_to_rgb.md R84). -/
theorem YuvOperands.hasOutput_outAddr {o : YuvOperands} {i j k : Nat} (h : o.HasPixel i j)
    (hk : k < 3) : o.footprint.HasOutput (o.outAddr i j + k) := by
  obtain ⟨h1, h2⟩ := h
  have := pixel_index_lt (by omega : (0 : Int) ≤ i) h1 (by omega : (0 : Int) ≤ j) h2
  unfold Footprint.HasOutput YuvOperands.footprint YuvOperands.outAddr YuvOperands.oi
  push_cast
  rw [Int.toNat_of_nonneg (by omega), Int.toNat_of_nonneg (by omega), mul_assoc]
  omega

/-- The three bytes at the output pointer are output bytes (42_bgra_to_rgb.md R105). -/
theorem Block.hasOutput_seqOptr {p : Params} {b : Block} {k : Nat} (hs : b.BgraSequencer p)
    (hr : (b.seqR : Int) < (b.bgraOperands p).height) (hk : k < 3) :
    (b.bgraOperands p).footprint.HasOutput ((b.seqOptr : Int) + k) := by
  obtain ⟨_, hc, _, ho⟩ := hs
  have := pixel_index_lt (by omega : (0 : Int) ≤ b.seqC) hc (by omega : (0 : Int) ≤ b.seqR) hr
  rw [ho]
  unfold Footprint.HasOutput BgraOperands.footprint
  push_cast
  rw [Int.toNat_of_nonneg (by omega), Int.toNat_of_nonneg (by omega), mul_assoc]
  omega

/-- In contract every read has an address (R80 CY3). -/
theorem YuvContract.reads_nonneg {p : Params} {b : Block} (h : YuvContract p b) :
    ∀ t ∈ (b.yuvOperands p).reads, 0 ≤ t.addr := by
  intro t ht
  simp only [YuvOperands.reads, List.mem_flatMap, List.mem_range] at ht
  obtain ⟨i, hi, j, hj, ht⟩ := ht
  obtain ⟨⟨_, _, hl, _⟩, ⟨_, _, _, hc, _⟩, _⟩ := h.fits i j ⟨by omega, by omega⟩
  simp only [List.mem_cons, List.not_mem_nil, or_false] at ht
  rcases ht with rfl | rfl | rfl <;>
    simp only [YuvOperands.luma, YuvOperands.chromaU, YuvOperands.chromaV] <;> omega

/-- In contract every read has an address (R102 CB2). -/
theorem BgraContract.reads_nonneg {p : Params} {b : Block} (h : BgraContract p b) :
    ∀ t ∈ (b.bgraOperands p).reads, 0 ≤ t.addr := by
  intro t ht
  simp only [BgraOperands.reads, List.mem_flatMap, List.mem_range] at ht
  obtain ⟨r, _, c, _, ht⟩ := ht
  have h1 := h.width
  have h2 := h.rowBytes
  have h3 : 0 ≤ (r : Int) * (b.bgraOperands p).rowBytes := mul_nonneg (by omega) (by omega)
  simp only [List.mem_cons, List.not_mem_nil, or_false] at ht
  rcases ht with rfl | rfl | rfl | rfl <;> simp only [BgraOperands.lane] <;> omega

/-- The output bytes of an operation, counted from its base. -/
theorem Footprint.hasOutput_iff {f : Footprint} {a : Int} :
    f.HasOutput a ↔ ∃ n ∈ List.range f.outLen, a = (f.outBase : Int) + n := by
  constructor
  · rintro ⟨h1, h2⟩
    exact ⟨(a - f.outBase).toNat, List.mem_range.2 (by omega), by omega⟩
  · rintro ⟨n, hn, rfl⟩
    have := List.mem_range.1 hn
    exact ⟨by omega, by omega⟩

/-- Every byte of an operation may be accessed, byte by byte. -/
theorem State.accessible_of_bytes {s : State} {f : Footprint} (hr : ∀ t ∈ f.reads, s.ReadOk t.addr)
    (hw : ∀ n ∈ List.range f.outLen, s.WriteOk ((f.outBase : Int) + n)) : s.Accessible f := by
  refine ⟨hr, fun a ha => ?_⟩
  obtain ⟨n, hn, rfl⟩ := Footprint.hasOutput_iff.1 ha
  exact hw n hn

/-! ### Conflicts -/

theorem Footprint.clashesRead_iff {f : Footprint} {a : Int} :
    f.clashesRead a = true ↔ f.HasOutput a := by simp [Footprint.clashesRead]

theorem Footprint.clashesWrite_iff {f : Footprint} {a : Int} :
    f.clashesWrite a = true ↔ f.HasInput a ∨ f.HasOutput a := by
  simp only [Footprint.clashesWrite, Bool.or_eq_true, decide_eq_true_eq]
  exact or_comm

theorem Block.disturbed_iff {p : Params} {b : Block} {clashes : Footprint → Int → Bool} {a : Int} :
    b.disturbed p clashes a = true ↔ ∃ f, b.footprint? p = some f ∧ clashes f a = true := by
  unfold Block.disturbed
  cases b.footprint? p <;> simp

theorem Block.disturbed_eq_false {p : Params} {b : Block} {clashes : Footprint → Int → Bool}
    {a : Int} :
    b.disturbed p clashes a = false ↔ ∀ f, b.footprint? p = some f → clashes f a = false := by
  unfold Block.disturbed
  cases b.footprint? p <;> simp

/-- A host access disturbs nobody exactly when it disturbs no running operation, and none that has
ended without the host having read so. -/
theorem State.hostClash_eq_none {s : State} {clashes : Footprint → Int → Bool} {a : Int} :
    s.hostClash clashes a = none ↔
      (∀ b ∈ s.block :: s.peers, b.disturbed s.params clashes a = false) ∧
        ∀ e ∈ s.unread, clashes e.operation.footprint a = false := by
  rw [State.hostClash, Option.or_eq_none_iff, List.findIdx?_eq_none_iff, Option.map_eq_none_iff,
    List.find?_eq_none]
  simp

/-- An engine's access disturbs nobody exactly when it disturbs no running operation of another
instance, and none that ran at once with its own. -/
theorem State.peerClash_eq_none {s : State} {clashes : Footprint → Int → Bool} {a : Int} :
    s.peerClash clashes a = none ↔
      (∀ b ∈ s.peers, b.disturbed s.params clashes a = false) ∧
        ∀ r ∈ s.rivals, r.of = s.sel → clashes r.ended.operation.footprint a = false := by
  rw [State.peerClash, Option.or_eq_none_iff, Option.map_eq_none_iff, List.findIdx?_eq_none_iff,
    State.rivalClash, Option.map_eq_none_iff, List.find?_eq_none]
  simp

/-- Who must be spared by an engine, in the words of the statements. -/
theorem State.peerClash_eq_none_iff_atOnce {s : State} {clashes : Footprint → Int → Bool} {a : Int} :
    s.peerClash clashes a = none ↔ ∀ f, s.AtOnce f → clashes f a = false := by
  rw [State.peerClash_eq_none]
  constructor
  · rintro ⟨h1, h2⟩ f (⟨b, hb, hf⟩ | ⟨r, hr, hs, rfl⟩)
    · exact Block.disturbed_eq_false.1 (h1 b hb) f hf
    · exact h2 r hr hs
  · exact fun h => ⟨fun b hb => Block.disturbed_eq_false.2 fun f hf => h f (.inl ⟨b, hb, hf⟩),
      fun r hr hs => h _ (.inr ⟨r, hr, hs, rfl⟩)⟩

/-- Who must be spared by the host, in the words of the statements. -/
theorem State.hostClash_eq_none_iff_notOver {s : State} {clashes : Footprint → Int → Bool} {a : Int} :
    s.hostClash clashes a = none ↔ ∀ f, s.NotOver f → clashes f a = false := by
  rw [State.hostClash_eq_none]
  constructor
  · rintro ⟨h1, h2⟩ f (⟨b, hb, hf⟩ | ⟨e, he, rfl⟩)
    · exact Block.disturbed_eq_false.1 (h1 b hb) f hf
    · exact h2 e he
  · exact fun h => ⟨fun b hb => Block.disturbed_eq_false.2 fun f hf => h f (.inl ⟨b, hb, hf⟩),
      fun e he => h _ (.inr ⟨e, he, rfl⟩)⟩

/-! ### The byte that a free or an allocation names -/

/-- The byte named is one of which the predicates hold. -/
theorem Footprint.firstByte?_eq_some {reads writes : Nat → Bool} {f : Footprint} {x : Fault}
    (h : f.firstByte? reads writes = some x) :
    (∃ u ∈ f.reads, reads u.addr.toNat = true ∧
        x = .readOutOfBuffer u.addr u.column u.row u.plane) ∨
      ∃ n < f.outLen, writes (f.outBase + n) = true ∧
        x = .writeOutOfBuffer (f.outBase + n : Nat) (f.outColumn n) (f.outRow n) := by
  rw [Footprint.firstByte?, Option.or_eq_some_iff] at h
  rcases h with h | ⟨_, h⟩
  · obtain ⟨u, hu, rfl⟩ := Option.map_eq_some_iff.1 h
    exact .inl ⟨u, List.mem_of_find?_eq_some hu, by simpa using List.find?_some hu, rfl⟩
  · obtain ⟨n, hn, rfl⟩ := Option.map_eq_some_iff.1 h
    exact .inr ⟨n, List.mem_range.1 (List.mem_of_find?_eq_some hn), by simpa using List.find?_some hn, rfl⟩

/-- No byte is named exactly where the predicates hold of none. -/
theorem Footprint.firstByte?_eq_none {reads writes : Nat → Bool} {f : Footprint} :
    f.firstByte? reads writes = none ↔
      (∀ u ∈ f.reads, reads u.addr.toNat = false) ∧
        ∀ n < f.outLen, writes (f.outBase + n) = false := by
  rw [Footprint.firstByte?, Option.or_eq_none_iff, Option.map_eq_none_iff, Option.map_eq_none_iff,
    List.find?_eq_none, List.find?_eq_none]
  simp

/-- The same over the running operations: a byte is named exactly where one has such a byte. -/
theorem State.runningByte?_eq_some {s : State} {reads writes : Nat → Bool} {x : Fault}
    (h : s.runningByte? reads writes = some x) :
    ∃ f, s.Running f ∧ f.firstByte? reads writes = some x := by
  rw [State.runningByte?] at h
  obtain ⟨b, hb, hx⟩ := List.exists_of_findSome?_eq_some h
  obtain ⟨f, hf, hx⟩ := Option.bind_eq_some_iff.1 hx
  exact ⟨f, ⟨b, hb, hf⟩, hx⟩

theorem State.runningByte?_eq_none {s : State} {reads writes : Nat → Bool} :
    s.runningByte? reads writes = none ↔
      ∀ f, s.Running f → f.firstByte? reads writes = none := by
  rw [State.runningByte?, List.findSome?_eq_none_iff]
  constructor
  · rintro h f ⟨b, hb, hf⟩
    simpa [hf] using h b hb
  · intro h b hb
    cases hf : b.footprint? s.params with
    | none => rfl
    | some f => exact h f ⟨b, hb, hf⟩

end Sys2Proof.Machine
end

