-- ==== Sys2Proof/Laws/PerInstr.lean ====
section
/-!
SUPPORT. The family RoundTrip: one lemma per constructor of `Instr`.
-/
namespace Sys2Proof.Laws.RoundTrip

/-- The encoding is a well-formed command word, its two fields are the ones the spec gives it, and it
decodes to the instruction (30_encoding.md R56, R61). -/
def Statement (i : Instr) : Prop :=
  CmdWord.wf (encode i) = true ∧ CmdWord.rsvd (encode i) = 0 ∧
    CmdWord.opcode (encode i) = i.opcode ∧ decode (encode i) = .ok i

theorem yuv420ToRgb : Statement .yuv420ToRgb := by
  refine ⟨?_, ?_, ?_, ?_⟩ <;> decide

theorem bgraToRgb : Statement .bgraToRgb := by
  refine ⟨?_, ?_, ?_, ?_⟩ <;> decide

end Sys2Proof.Laws.RoundTrip
end

