-- ==== Sys2Proof/Laws/Step.lean ====
section
/-!
SUPPORT. Everything a host action, an engine's turn and a step can do when they answer a next state.
-/
namespace Sys2Proof.Machine

theorem startCommand_eq_next {v : Word} {s t : State} (h : startCommand v s = .next t) :
    ∃ i, decodeValue v = .ok i ∧ exec i s = .next t := by
  unfold startCommand at h
  split at h
  · next i hi => exact ⟨i, hi, h⟩
  · cases h

/-- A register write of the host: an operand write, or START, of an instance that is not BUSY. -/
theorem hostWrite_eq_next {n : Nat} {v : Word} {s t : State} (h : hostWrite n v s = .next t) :
    s.block.busy = false ∧
      ((∃ hn : n < 8, t = s.withBlock (s.block.writeArg ⟨n, hn⟩ v)) ∨
        (n = 8 ∧ ∃ i, decodeValue v = .ok i ∧ exec i s = .next t)) := by
  unfold hostWrite at h
  by_cases hb : s.block.busy = true ∧ n ≤ 8
  · rw [if_pos hb] at h; cases h
  · rw [if_neg hb] at h
    split at h
    · next hn =>
      cases h
      exact ⟨by simpa using fun e => hb ⟨e, by omega⟩, .inl ⟨hn, rfl⟩⟩
    · next hn =>
      split at h
      · next h8 =>
        exact ⟨by simpa using fun e => hb ⟨e, by omega⟩, .inr ⟨h8, startCommand_eq_next h⟩⟩
      · cases h

theorem hostRead_eq_next {n : Nat} {s t : State} (h : hostRead n s = .next t) :
    ∃ v, s.block.readReg (Config.freeWord s.free) n = some v ∧
      t = { s with
        readData := some v, free := s.free + 1,
        unread := if n = 9 ∧ s.block.done then s.unread.filter fun e => e.block != s.sel
          else s.unread } := by
  unfold hostRead at h
  split at h
  · next v hv =>
    cases h
    refine ⟨v, hv, ?_⟩
    split
    · next hn =>
      rw [State.sawStatus_eq]
      by_cases hd : s.block.done = true <;> simp [hn, hd, State.returns]
    · next hn => simp [hn, State.returns]
  · cases h

theorem hostWait_eq_next {k : Nat} {s t : State} (h : hostWait k s = .next t) :
    t = { s with
      readData := some (s.block.status.setWidth 64),
      events := if s.block.done then s.events else .engine k :: .wait k :: s.events,
      unread := if s.block.done then s.unread.filter fun e => e.block != s.sel else s.unread } := by
  unfold hostWait at h
  split at h
  · next hd => cases h; rw [State.sawStatus_eq]; simp [hd, State.returns]
  · next hd => cases h; simp [hd, State.returns]

/-- An engine's turn: the next step of the running operation, or nothing. -/
theorem engineTurn_eq_next {s t : State} (h : engineTurn s = .next t) :
    (s.block.busy = true ∧ ∃ i, decode s.block.cmd = .ok i ∧ exec i s = .next t) ∨
      (s.block.busy = false ∧ t = s) := by
  unfold engineTurn at h
  split at h
  · next hb =>
    split at h
    · next i hi => exact .inl ⟨hb, i, hi, h⟩
    · cases h
  · next hb => cases h; exact .inr ⟨by simpa using hb, rfl⟩

theorem hostMemWrite_eq_next {a : Nat} {v : Byte} {s t : State}
    (h : hostMemWrite a v s = .next t) :
    Params.InSpace s.params a ∧ s.isDevice a = false ∧
      s.hostClash Footprint.clashesWrite a = none ∧ t = s.store a v := by
  unfold hostMemWrite at h
  by_cases h1 : Params.InSpace s.params a
  · rw [if_neg (not_not.2 h1)] at h
    split at h
    · cases h
    · next h2 =>
      split at h
      · cases h
      · next h3 => cases h; exact ⟨h1, by simpa using h2, h3, rfl⟩
  · rw [if_pos h1] at h; cases h

theorem hostMemRead_eq_next {a : Nat} {s t : State} (h : hostMemRead a s = .next t) :
    Params.InSpace s.params a ∧ s.isDevice a = false ∧
      s.hostClash Footprint.clashesRead a = none ∧
      t = { s with readData := some ((Memory.read s.mem a).setWidth 64) } := by
  unfold hostMemRead at h
  by_cases h1 : Params.InSpace s.params a
  · rw [if_neg (not_not.2 h1)] at h
    split at h
    · cases h
    · next h2 =>
      split at h
      · cases h
      · next h3 => cases h; exact ⟨h1, by simpa using h2, h3, rfl⟩
  · rw [if_pos h1] at h; cases h

theorem hostAlloc_eq_next {r : Region} {s t : State} (h : hostAlloc r s = .next t) :
    t = { s with regions := r :: s.regions } := by
  unfold hostAlloc at h
  split at h
  · cases h
  · cases h; rfl

theorem hostFree_eq_next {base : Nat} {s t : State} (h : hostFree base s = .next t) :
    t = { s with
      regions := s.regions.filter fun r => !(r.base == base && r.kind == .ordinary) } := by
  unfold hostFree at h
  split at h
  · cases h
  · cases h; rfl

/-- With an action left and no fault recorded, a step is that action. -/
theorem step_of_event {s : State} {e : Event} {rest : List Event} (hr : s.record = none)
    (he : s.events = e :: rest) : step s = runEvent e { s with events := rest } := by
  unfold step
  rw [hr, he]

/-- With no action left and no fault recorded, a step is the turn of the first busy engine. -/
theorem step_of_idle {s : State} (hr : s.record = none) (he : s.events = []) :
    step s = runIdle s := by
  unfold step
  rw [hr, he]

/-- The first busy instance exists and is BUSY. -/
theorem State.firstBusy_eq_some {s : State} {k : Nat} (h : s.firstBusy = some k) :
    k ≤ s.peers.length ∧ (s.focus k).block.busy = true := by
  unfold State.firstBusy at h
  split at h
  · cases h
    exact ⟨Nat.zero_le _, by simpa⟩
  · rcases hf : s.peers.findIdx? Block.busy with _ | n
    · simp [hf] at h
    · simp only [hf, Option.map_some, Option.some.injEq] at h
      subst h
      obtain ⟨h1, h2, _⟩ := List.findIdx?_eq_some_iff_getElem.1 hf
      refine ⟨h1, ?_⟩
      rw [State.focus_succ (b := s.peers[n]) (by simp [h1])]
      exact h2

/-- A step: a reset that ends a faulted launch, the next action, or the turn of the first busy engine. -/
theorem step_eq_next {s t : State} (h : step s = .next t) :
    (∃ f rest, s.record = some f ∧ s.events = .reset :: rest ∧
      t = { s with events := rest }.platformReset) ∨
    (s.record = none ∧ ∃ e rest, s.events = e :: rest ∧
      runEvent e { s with events := rest } = .next t) ∨
    (s.record = none ∧ s.events = [] ∧
      ((∃ k, s.firstBusy = some k ∧ onBlock k engineTurn s = .next t) ∨
        (s.firstBusy = none ∧ t = s))) := by
  unfold step at h
  split at h
  · next f hf =>
    unfold runFaulted at h
    split at h
    · next rest hr => cases h; exact .inl ⟨f, rest, hf, hr, rfl⟩
    · cases h
  · next hn =>
    split at h
    · next e rest he => exact .inr (.inl ⟨hn, e, rest, he, h⟩)
    · next he =>
      unfold runIdle at h
      split at h
      · next k hk => exact .inr (.inr ⟨hn, he, .inl ⟨k, hk, h⟩⟩)
      · next hk => cases h; exact .inr (.inr ⟨hn, he, .inr ⟨hk, rfl⟩⟩)

/-! ### What a step can do, said once -/

/-- What an action on the acting instance can do when it answers a next state: run an instruction,
write an operand register of an instance that is not BUSY, or touch no instance and no memory. What is
noted as unread shrinks only where the acting instance shows `DONE`. -/
inductive Acts (s : State) : State → Prop where
  | runs (i : Instr) (t : State) (h : exec i s = .next t) : Acts s t
  | writes (n : Fin 8) (v : Word) (h : s.block.busy = false) :
      Acts s (s.withBlock (s.block.writeArg n v))
  | observes (events : List Event) (readData : Option Word) (free : Nat) (unread : List Ended)
      (h : ∀ e ∈ s.unread, e ∈ unread ∨ (e.block = s.sel ∧ s.block.done = true)) :
      Acts s { s with events := events, readData := readData, free := free, unread := unread }

theorem hostWrite_acts {n : Nat} {v : Word} {s t : State} (h : hostWrite n v s = .next t) :
    Acts s t := by
  obtain ⟨hb, ⟨hn, rfl⟩ | ⟨_, i, _, hi⟩⟩ := hostWrite_eq_next h
  · exact .writes _ _ hb
  · exact .runs i t hi

theorem hostRead_acts {n : Nat} {s t : State} (h : hostRead n s = .next t) : Acts s t := by
  obtain ⟨v, _, rfl⟩ := hostRead_eq_next h
  refine .observes s.events _ _ _ fun e he => ?_
  split
  · next hn => by_cases hs : e.block = s.sel <;> simp [he, hs, hn.2]
  · exact .inl he

theorem hostWait_acts {k : Nat} {s t : State} (h : hostWait k s = .next t) : Acts s t := by
  rw [hostWait_eq_next h]
  refine .observes _ _ s.free _ fun e he => ?_
  split
  · next hn => by_cases hs : e.block = s.sel <;> simp [he, hs, hn]
  · exact .inl he

theorem engineTurn_acts {s t : State} (h : engineTurn s = .next t) : Acts s t := by
  rcases engineTurn_eq_next h with ⟨_, i, _, hi⟩ | ⟨_, rfl⟩
  · exact .runs i t hi
  · exact .observes t.events t.readData t.free t.unread fun e he => .inl he

/-- An action on the acting instance changes no parameter, no other instance and no buffer. -/
theorem Acts.shape {s t : State} (h : Acts s t) :
    t.params = s.params ∧ t.peers = s.peers ∧ t.sel = s.sel ∧ t.regions = s.regions := by
  cases h with
  | runs i _ h =>
    have e := exec_same h
    exact ⟨e.params, e.peers, e.sel, e.regions⟩
  | writes n v h => exact ⟨rfl, rfl, rfl, rfl⟩
  | observes => exact ⟨rfl, rfl, rfl, rfl⟩

/-- Everything a step that is no reset can do: an action on one instance, brought into place and
back; a byte the host writes where no running operation has one; or nothing but to the list of
actions, the value read and the buffers. -/
theorem step_cases {s t : State} (h : step s = .next t) (hr : ¬ s.ResetNext) :
    (∃ k u, k ≤ s.peers.length ∧ s.acting = some k ∧
      Acts ({ s with events := s.events.tail }.focus k) u ∧ t = u.focus k) ∨
    (∃ a v, s.acting = none ∧ Params.InSpace s.params (a : Nat) ∧
      s.hostClash Footprint.clashesWrite a = none ∧
      t = { s with events := s.events.tail }.store a v) ∨
    (∃ events readData regions, s.acting = none ∧
      t = { s with events := events, readData := readData, regions := regions }) := by
  rcases step_eq_next h with ⟨f, rest, _, he, _⟩ | ⟨_, e, rest, he, hrun⟩ |
    ⟨_, he, ⟨k, hk, hon⟩ | ⟨_, rfl⟩⟩
  · exact absurd (by rw [State.ResetNext, he]; rfl) hr
  · have hact : s.acting = e.target := by rw [State.acting, he]
    have htail : s.events.tail = rest := by rw [he]; rfl
    rw [hact, htail]
    have inst : ∀ {k : Nat} {act : State → Host.Outcome State Fault Refusal},
        (∀ {x y : State}, act x = .next y → Acts x y) →
        onBlock k act { s with events := rest } = .next t → e.target = some k →
        ∃ k u, k ≤ s.peers.length ∧ e.target = some k ∧
          Acts ({ s with events := rest }.focus k) u ∧ t = u.focus k := by
      intro k act hacts hon hk
      obtain ⟨hle, u, hu, rfl⟩ := onBlock_eq_next hon
      exact ⟨k, u, hle, hk, hacts hu, rfl⟩
    cases e with
    | wr k n v => exact .inl (inst hostWrite_acts hrun rfl)
    | rd k n => exact .inl (inst hostRead_acts hrun rfl)
    | wait k => exact .inl (inst hostWait_acts hrun rfl)
    | engine k => exact .inl (inst engineTurn_acts hrun rfl)
    | memWrite a v =>
      obtain ⟨h1, _, h3, rfl⟩ := hostMemWrite_eq_next hrun
      exact .inr (.inl ⟨a, v, rfl, h1, h3, rfl⟩)
    | memRead a =>
      obtain ⟨_, _, _, rfl⟩ := hostMemRead_eq_next hrun
      exact .inr (.inr ⟨rest, _, s.regions, rfl, rfl⟩)
    | alloc r =>
      rw [hostAlloc_eq_next hrun]
      exact .inr (.inr ⟨rest, s.readData, _, rfl, rfl⟩)
    | free b =>
      rw [hostFree_eq_next hrun]
      exact .inr (.inr ⟨rest, s.readData, _, rfl, rfl⟩)
    | reset => exact absurd (by rw [State.ResetNext, he]; rfl) hr
  · have hact : s.acting = some k := by rw [State.acting, he]; exact hk
    have htail : ({ s with events := s.events.tail } : State) = s := by rw [he, List.tail_nil, ← he]
    obtain ⟨hle, u, hu, rfl⟩ := onBlock_eq_next hon
    exact .inl ⟨k, u, hle, hact, by rw [htail]; exact engineTurn_acts hu, rfl⟩
  · next hk =>
    exact .inr (.inr ⟨t.events, t.readData, t.regions, by rw [State.acting, he]; exact hk, rfl⟩)

/-! ### A step seen from instance `n` -/

/-- Bringing instance `k` into place lets exactly it act. -/
theorem State.focus_of_blockAt {s : State} {k : Nat} {b : Block} (h : s.blockAt k = some b) :
    k ≤ s.peers.length ∧ (s.focus k).block = b ∧ (s.sel = 0 → (s.focus k).sel = k) := by
  unfold State.blockAt at h
  cases k with
  | zero => simpa using h
  | succ n =>
    simp only [List.getElem?_cons_succ] at h
    rw [State.focus_succ h]
    exact ⟨(List.getElem?_eq_some_iff.1 h).1, rfl, fun hs => by simp [hs]⟩

/-- An instance exists where its number does. -/
theorem State.exists_blockAt {s : State} {k : Nat} (h : k ≤ s.peers.length) :
    ∃ b, s.blockAt k = some b :=
  ⟨(s.block :: s.peers)[k]'(by simpa using Nat.lt_succ_of_le h),
    List.getElem?_eq_getElem _⟩

/-- The other instances stand among the peers of the one that acts. -/
theorem State.mem_peers_focus {s : State} {n k : Nat} {b : Block} (hb : s.blockAt n = some b)
    (hk : k ≤ s.peers.length) (hne : n ≠ k) : b ∈ (s.focus k).peers := by
  unfold State.blockAt at hb
  cases k with
  | zero =>
    cases n with
    | zero => exact absurd rfl hne
    | succ n => exact List.mem_of_getElem? (by simpa using hb)
  | succ m =>
    have hm : m < s.peers.length := hk
    rw [State.focus_succ (b := s.peers[m]) (by simp [hm])]
    cases n with
    | zero => simp_all [List.mem_set]
    | succ n =>
      have hnm : m ≠ n := fun e => hne (by rw [e])
      refine List.mem_of_getElem? (i := n) ?_
      rw [List.getElem?_set_ne hnm]
      simpa using hb

/-- What an action on instance `k` leaves of instance `n`. -/
theorem State.blockAt_focus_back {s u : State} {k : Nat} (hk : k ≤ s.peers.length) (hs : s.sel = 0)
    (hp : u.peers = (s.focus k).peers) (hsel : u.sel = (s.focus k).sel) (n : Nat) :
    (u.focus k).blockAt n = if n = k then some u.block else s.blockAt n := by
  obtain ⟨_, h0, hn⟩ := State.focus_back hk hs hp hsel
  unfold State.blockAt
  cases k with
  | zero =>
    obtain ⟨h1, h2⟩ := h0 rfl
    rw [h1, h2]
    cases n <;> simp
  | succ m =>
    obtain ⟨h1, h2⟩ := hn m rfl
    rw [h1, h2]
    have hm : m < s.peers.length := hk
    cases n with
    | zero => simp
    | succ n =>
      by_cases hnm : n = m
      · subst hnm; simp [hm]
      · simp [hnm, List.getElem?_set_ne (Ne.symm hnm)]

/-- A step that is no reset, seen from instance `n`: the instance acts, or it stays as it is. -/
theorem step_at {s t : State} (hs : s.sel = 0) (h : step s = .next t) (hr : ¬ s.ResetNext) {n : Nat}
    {b : Block} (hb : s.blockAt n = some b) :
    (∃ u, s.acting = some n ∧ Acts ({ s with events := s.events.tail }.focus n) u ∧
      t = u.focus n ∧ t.blockAt n = some u.block) ∨
    (s.acting ≠ some n ∧ t.blockAt n = some b) := by
  rcases step_cases h hr with ⟨k, u, hk, hact, ha, rfl⟩ | ⟨a, v, hact, _, _, rfl⟩ |
    ⟨_, _, _, hact, rfl⟩
  · have hback := State.blockAt_focus_back (s := { s with events := s.events.tail }) hk hs
      ha.shape.2.1 ha.shape.2.2.1 n
    by_cases hn : n = k
    · subst hn
      exact .inl ⟨u, hact, ha, rfl, by simpa using hback⟩
    · refine .inr ⟨by simp [hact, Ne.symm hn], ?_⟩
      rw [hback, if_neg hn]
      exact hb
  · exact .inr ⟨by simp [hact], hb⟩
  · exact .inr ⟨by simp [hact], hb⟩

/-! ### Reset -/

@[simp] theorem State.spoilOutput_params (s : State) (b : Block) :
    (s.spoilOutput b).params = s.params := by unfold State.spoilOutput; split <;> rfl
@[simp] theorem State.spoilOutput_block (s : State) (b : Block) :
    (s.spoilOutput b).block = s.block := by unfold State.spoilOutput; split <;> rfl
@[simp] theorem State.spoilOutput_peers (s : State) (b : Block) :
    (s.spoilOutput b).peers = s.peers := by unfold State.spoilOutput; split <;> rfl
@[simp] theorem State.spoilOutput_regions (s : State) (b : Block) :
    (s.spoilOutput b).regions = s.regions := by unfold State.spoilOutput; split <;> rfl
@[simp] theorem State.spoilOutput_events (s : State) (b : Block) :
    (s.spoilOutput b).events = s.events := by unfold State.spoilOutput; split <;> rfl
@[simp] theorem State.spoilOutput_readData (s : State) (b : Block) :
    (s.spoilOutput b).readData = s.readData := by unfold State.spoilOutput; split <;> rfl
@[simp] theorem State.spoilOutput_sel (s : State) (b : Block) :
    (s.spoilOutput b).sel = s.sel := by unfold State.spoilOutput; split <;> rfl

/-- A property that aborting an operation keeps, aborting any list of operations keeps. -/
theorem State.foldl_spoilOutput_induct {P : State → Prop} {bs : List Block} {s : State}
    (h0 : P s) (h : ∀ t, ∀ b ∈ bs, P t → P (t.spoilOutput b)) :
    P (bs.foldl State.spoilOutput s) := by
  induction bs generalizing s with
  | nil => exact h0
  | cons b bs ih =>
    exact ih (h s b (by simp) h0) fun t c hc ht => h t c (by simp [hc]) ht

/-- A step with a reset next is the reset, whatever the fault record (70_reset_and_hazards.md R150). -/
theorem step_of_reset {s : State} (h : s.ResetNext) :
    step s = .next ({ s with events := s.events.tail } : State).platformReset := by
  rcases he : s.events with _ | ⟨e, rest⟩
  · simp [State.ResetNext, he] at h
  · obtain rfl : e = .reset := by simpa [State.ResetNext, he] using h
    by_cases hr : s.record = none
    · rw [step_of_event hr he]; rfl
    · obtain ⟨f, hf⟩ := Option.ne_none_iff_exists'.1 hr
      unfold step runFaulted
      simp only [hf, he, List.tail_cons]

/-- What a reset keeps of the machine. -/
theorem State.platformReset_shape (s : State) :
    s.platformReset.params = s.params ∧ s.platformReset.sel = s.sel ∧
      s.platformReset.events = s.events ∧ s.platformReset.regions = s.regions ∧
      s.platformReset.peers.length = s.peers.length := by
  have h : ∀ bs : List Block,
      (bs.foldl State.spoilOutput s).params = s.params ∧
      (bs.foldl State.spoilOutput s).sel = s.sel ∧
      (bs.foldl State.spoilOutput s).events = s.events ∧
      (bs.foldl State.spoilOutput s).regions = s.regions := fun bs =>
    State.foldl_spoilOutput_induct
      (P := fun t => t.params = s.params ∧ t.sel = s.sel ∧ t.events = s.events ∧
        t.regions = s.regions) ⟨rfl, rfl, rfl, rfl⟩ fun t b _ ht => by simpa using ht
  obtain ⟨h1, h2, h3, h4⟩ := h (s.block :: s.peers)
  exact ⟨h1, h2, h3, h4, by simp [State.platformReset]⟩

/-! ### Runs -/

/-- A run takes one step at a time. -/
theorem run_succ {s t : State} (h : step s = .next t) (n : Nat) :
    Host.Core.run Sys2Proof.core (n + 1) s = Host.Core.run Sys2Proof.core n t := by
  simp only [Host.Core.run, show Sys2Proof.core.step s = .next t from h]

end Sys2Proof.Machine
end

