-- ==== Sys2Proof/Tests/Slice0.lean ====
section
/-!
SUPPORT. Tests: command words written out from 30_encoding.md R56 and R61, ill-formed terms, single
steps whose results are the worked examples of spec/95_test_vectors.md, and the witnesses that meet the
hypotheses of the statements.
-/
namespace Sys2Proof.Tests
open Sys2Proof.Machine

/-! ### Decoding: the 32 bits of each word, RSVD (31:8) then OPCODE (7:0) -/

/-- R61: OPCODE 0x01 is YUV420_TO_RGB. -/
theorem test_decode_yuv420ToRgb : decode 0b000000000000000000000000_00000001 = .ok .yuv420ToRgb := by
  decide
/-- R61: OPCODE 0x02 is BGRA_TO_RGB. -/
theorem test_decode_bgraToRgb : decode 0b000000000000000000000000_00000010 = .ok .bgraToRgb := by
  decide
/-- R62, F3: a set RSVD bit is no command, whatever OPCODE says. -/
theorem test_decode_rsvd : decode 0b000000000000000000000001_00000001 = .error (.reservedBits 1) := by
  decide
theorem test_decode_top_bit : decode 0b100000000000000000000000_00000010 =
    .error (.reservedBits 0x800000) := by decide
/-- R62, F1, F2: OPCODE 0x00 and 0x03. -/
theorem test_decode_zero : decode 0 = .error (.reservedOpcode 0) := by decide
theorem test_decode_three : decode 3 = .error (.reservedOpcode 3) := by decide
/-- A value of more than 32 bits is no command word. -/
theorem test_decode_wide : decodeValue 0x100000001 = .error (.tooWide 0x100000001) := by decide
theorem test_decodeTableWord : decodeTableWord 32 1 = some .yuv420ToRgb ∧
    decodeTableWord 32 2 = some .bgraToRgb ∧ decodeTableWord 32 3 = none := by decide

/-! ### Well-formedness: an ill-formed term for each check -/

theorem test_wf_rsvdZero : CmdWord.wf 0x00000101 = false ∧ CmdWord.rsvdZero 0x00000101 = false := by
  decide
theorem test_wf_opcodeKnown : CmdWord.wf 3 = false ∧ CmdWord.opcodeKnown 3 = false := by decide
theorem test_wf_params_aw :
    Params.wf { Params.default with aw := 0 } = false ∧
      Params.wf { Params.default with aw := 65 } = false := by decide
theorem test_wf_params_gw :
    Params.wf { Params.default with gw := 0 } = false ∧
      Params.wf { Params.default with gw := 65 } = false := by decide
theorem test_wf_params_cw : Params.wf { Params.default with cw := 9 } = false := by decide
theorem test_wf_params_pitchAlign : Params.wf { Params.default with pitchAlign := 0 } = false := by
  decide

/-! ### Small states -/

/-- The step answers a next state of which `p` holds. -/
def answers (o : Host.Outcome State Fault Refusal) (p : State → Bool) : Bool :=
  match o with
  | .next t => p t
  | .fault _ => false
  | .refused _ => false

/-- The step stops with this fault. -/
def stops (o : Host.Outcome State Fault Refusal) (f : Fault) : Bool :=
  match o with
  | .next _ => false
  | .fault g => f == g
  | .refused _ => false

/-- The step stops with this refusal. -/
def refuses (o : Host.Outcome State Fault Refusal) (r : Refusal) : Bool :=
  match o with
  | .next _ => false
  | .fault _ => false
  | .refused q => r == q

theorem exists_of_answers {o : Host.Outcome State Fault Refusal} {p : State → Bool}
    (h : answers o p = true) : ∃ t, o = .next t ∧ p t = true := by
  cases o with
  | next t => exact ⟨t, rfl, h⟩
  | fault _ => cases h
  | refused _ => cases h

theorem eq_of_stops {o : Host.Outcome State Fault Refusal} {f : Fault} (h : stops o f = true) :
    o = .fault f := by
  cases o with
  | next _ => cases h
  | fault g => rw [show f = g by simpa [stops] using h]
  | refused _ => cases h

/-- A buffer the caller allocated. -/
def buffer (base size : Nat) : Region := ⟨base, size, .ordinary, true, true⟩

/-- An instance whose eight operand registers are written. -/
def blockWith (arg : Vector Word 8) : Block :=
  { Block.reset with arg := arg, written := Vector.replicate 8 true }

/-- Program P1's operands, a 2 by 2 image: `yuv420_to_rgb(0x1000, 0x2000, 0x3000, 2, 2, 2, 2, 0x4000)`. -/
def yuvBlock : Block := blockWith #v[0x1000, 0x2000, 0x3000, 2, 2, 2, 2, 0x4000]

/-- Program P1's memory: mid-grey luma and neutral chroma. -/
def yuvIdle : State :=
  { State.reset with
    block := yuvBlock
    mem := [(0x1000, 128), (0x1001, 128), (0x1002, 128), (0x1003, 128), (0x2000, 128), (0x3000, 128)]
    regions := [buffer 0x1000 4, buffer 0x2000 1, buffer 0x3000 1, buffer 0x4000 12] }

/-- The same, running, the sequencer at column `i` and row `j`. -/
def yuvBusy (i j : Nat) : State :=
  { yuvIdle with block := { yuvBlock with cmd := 1, status := 1, seqI := i, seqJ := j } }

/-- `bgra_to_rgb(0x5000, 1, 1, 4, 0x6000)`, vector S5. -/
def bgraBlock : Block := blockWith #v[0x5000, 1, 1, 4, 0x6000, 0, 0, 0]

/-- Vector S5's memory: (B, G, R, A) = (10, 20, 30, 255). -/
def bgraIdle : State :=
  { State.reset with
    block := bgraBlock
    mem := [(0x5000, 10), (0x5001, 20), (0x5002, 30), (0x5003, 255)]
    regions := [buffer 0x5000 4, buffer 0x6000 3] }

/-- The same, running, at its one pixel. -/
def bgraBusy : State :=
  { bgraIdle with block := { bgraBlock with cmd := 2, status := 1, seqOptr := 0x6000 } }

/-- The same with its one pixel done. -/
def bgraLast : State :=
  { bgraIdle with block := { bgraBlock with cmd := 2, status := 1, seqR := 1, seqOptr := 0x6003 } }

/-! ### Single steps: the worked examples of the spec -/

/-- S3: R = G = B = 128 is wrong, the formulas give (128, 127, 127). -/
theorem test_yuv_grey : answers (exec .yuv420ToRgb (yuvBusy 0 0)) (fun t =>
    Memory.read t.mem 0x4000 == 0x80 && Memory.read t.mem 0x4001 == 0x7F &&
      Memory.read t.mem 0x4002 == 0x7F && t.block.seqI == 0 && t.block.seqJ == 1) = true := by decide
/-- R91: the outer loop runs over the columns; after the last row the next column starts. -/
theorem test_yuv_next_column : answers (exec .yuv420ToRgb (yuvBusy 0 1)) (fun t =>
    Memory.read t.mem 0x4006 == 0x80 && t.block.seqI == 1 && t.block.seqJ == 0) = true := by decide
/-- S5: (B, G, R, A) = (10, 20, 30, 255) gives (30, 20, 10). -/
theorem test_bgra_reorder : answers (exec .bgraToRgb bgraBusy) (fun t =>
    Memory.read t.mem 0x6000 == 0x1E && Memory.read t.mem 0x6001 == 0x14 &&
      Memory.read t.mem 0x6002 == 0x0A && t.block.seqOptr == 0x6003) = true := by decide
/-- R110: the finish step sets DONE and clears BUSY. -/
theorem test_bgra_finish : answers (exec .bgraToRgb bgraLast) (fun t => t.block.status == 2) = true := by
  decide

/-- Table 2.2: the sum is shifted once (R87); shifting each product would give 144. -/
theorem test_green_shift_of_sum : green 10 2 2 = 143 ∧ red 10 2 = 0 ∧ blue 10 2 = 0 := by decide
/-- Table 2.2, the row of R77's worked example: (81, 90, 240) gives (238, 13, 13). -/
theorem test_yuv_red : red 81 240 = 238 ∧ green 81 90 240 = 13 ∧ blue 81 90 = 13 := by decide
/-- Table 2.1: the clamp is no truncation. -/
theorem test_clamp_bounds : clamp (-1) = 0 ∧ clamp (-227) = 0 ∧ clamp 0 = 0 ∧ clamp 255 = 255 ∧
    clamp 256 = 255 ∧ clamp 479 = 255 := by decide
/-- P3: with PP = 1 and PR = 4 the chroma indices of the four blocks are 0, 1, 4 and 5 (R83). -/
theorem test_chroma_index :
    let o : YuvOperands := ⟨0x1000, 0x2000, 0x3000, 4, 4, 1, 4, 0x4000⟩
    o.ci 1 1 = 0 ∧ o.ci 2 0 = 1 ∧ o.ci 0 2 = 4 ∧ o.ci 3 3 = 5 := by decide

/-! ### The host interface and START -/

/-- `WR CMD, 1` from the P1 operands is START: BUSY, and CMD holds the word (R117). -/
def yuvCommand : State := { yuvIdle with events := [.wr 0 8 1] }
/-- `WR CMD, 2` from the S5 operands. -/
def bgraCommand : State := { bgraIdle with events := [.wr 0 8 2] }

theorem test_start_yuv : answers (step yuvCommand) (fun t =>
    t.block.cmd == 1 && t.block.status == 1 && t.mem == yuvIdle.mem) = true := by decide
theorem test_start_bgra : answers (step bgraCommand) (fun t =>
    t.block.cmd == 2 && t.block.status == 1 && t.block.seqOptr == 0x6000) = true := by decide
/-- F4, P6 (c): a reserved word stops and leaves CMD and STATUS alone (R62). -/
theorem test_reserved_command : stops (step { State.reset with events := [.wr 0 8 4] })
    (.illegalCommand (.word 4)) = true := by decide
/-- F9: START after reset, no operand written (R31, R132 code 3). -/
theorem test_start_unwritten : stops (step (State.reset.withFetchWord 32 1))
    (.unwrittenOperand 0) = true := by decide
/-- P6 (a): zero width is a fault at START, never an empty loop (R99). -/
theorem test_zero_width : stops (exec .yuv420ToRgb { yuvIdle with
    block := blockWith #v[0x1000, 0x2000, 0x3000, 0, 2, 2, 2, 0x4000] })
    (.badGeometry .yuv420ToRgb .width) = true := by decide
/-- R137: while BUSY a reserved word is HostWriteWhileBusy, not IllegalCommand. -/
theorem test_busy_before_illegal : stops (step { yuvBusy 0 0 with events := [.wr 0 8 7] })
    (.hostWriteWhileBusy 8 7) = true := by decide
/-- F5, F6: STATUS is not writable, register 10 does not exist (R63). -/
theorem test_reserved_registers :
    stops (step { yuvIdle with events := [.wr 0 9 0] }) (.illegalCommand (.register 9)) = true ∧
      stops (step { yuvIdle with events := [.rd 0 10] }) (.illegalCommand (.register 10)) = true := by
  decide
/-- R115: a read of STATUS returns it and clears nothing. -/
theorem test_read_status : answers (step { yuvBusy 0 0 with events := [.rd 0 9] }) (fun t =>
    t.readData == some 1 && t.block.status == 1) = true := by decide
/-- R45: a host write of an input byte of a running operation conflicts. -/
theorem test_conflict : stops (step { yuvBusy 0 0 with events := [.memWrite 0x1001 3] })
    (.concurrentConflict 0x1001 .host (.engine 0)) = true := by decide
/-- R155 HZ3: nor may the host read the output of a finished operation before it has read DONE = 1;
having read it, it may. -/
theorem test_conflict_unread :
    let s : State := { yuvIdle with unread := [⟨0, .yuv (yuvBlock.yuvOperands Params.default)⟩] }
    stops (step { s with events := [.memRead 0x4000] })
        (.concurrentConflict 0x4000 .host (.engine 0)) = true ∧
      answers (step { s with block := { yuvBlock with status := 2 }, events := [.rd 0 9] })
        (fun t => t.readData == some 2 && t.unread == []) = true := by decide
/-- R45: a host read of an input byte does not. -/
theorem test_read_input : answers (step { yuvBusy 0 0 with events := [.memRead 0x1001] }) (fun t =>
    t.readData == some 128) = true := by decide
/-- F21: an output buffer of 11 bytes; the twelfth write stops, and the launch keeps the other two bytes
of the last pixel (R134). -/
def yuvShort : State :=
  { yuvBusy 1 1 with regions := [buffer 0x1000 4, buffer 0x2000 1, buffer 0x3000 1, buffer 0x4000 11] }
theorem test_launch_keeps_earlier_writes :
    stops (step yuvShort) (.writeOutOfBuffer 0x400B 1 1) = true ∧
      Memory.read (launchStep yuvShort).mem 0x4009 = 128 ∧
      Memory.read (launchStep yuvShort).mem 0x400A = 127 ∧
      Memory.read (launchStep yuvShort).mem 0x400B = 0 ∧
      (launchStep yuvShort).record = some (.writeOutOfBuffer 0x400B 1 1) := by decide
/-- F30 after one of the two operations has ended: they ran at once, so the other's write to the shared
output still conflicts (R141). -/
theorem test_rival_conflict : stops (step { yuvBusy 0 0 with
    rivals := [⟨0, 1, .yuv (yuvBlock.yuvOperands Params.default)⟩] })
    (.concurrentConflict 0x4000 (.engine 0) (.engine 1)) = true := by decide
/-- R152: a reset of an idle machine leaves memory and clears the operands' "written". -/
theorem test_reset : answers (step { yuvIdle with events := [.reset] }) (fun t =>
    t.mem == yuvIdle.mem && t.block == Block.reset) = true := by decide
/-- Canonical memory: writing the unlisted byte removes the entry. -/
theorem test_memory_canonical : Memory.write [(3, 1), (5, 2)] 5 0 = [(3, 1)] ∧
    Memory.write [(3, 1), (5, 2)] 4 7 = [(3, 1), (4, 7), (5, 2)] := by decide

/-! ### Witnesses: for each statement with hypotheses, a state and operands that meet them -/

theorem yuvBlock_contract : YuvContract Params.default yuvBlock :=
  yuvStartFault?_eq_none.1 (by decide)
theorem yuvBusy_contract : YuvContract (yuvBusy 0 0).params (yuvBusy 0 0).block :=
  yuvStartFault?_eq_none.1 (by decide)
theorem bgraBlock_contract : BgraContract Params.default bgraBlock :=
  bgraStartFault?_eq_none.1 (by decide)
theorem bgraBusy_contract : BgraContract bgraBusy.params bgraBusy.block :=
  bgraStartFault?_eq_none.1 (by decide)

theorem yuvBusy_accessible :
    (yuvBusy 0 0).Accessible ((yuvBusy 0 0).block.yuvOperands (yuvBusy 0 0).params).footprint :=
  State.accessible_of_bytes (by decide) (by decide)
theorem bgraBusy_accessible :
    bgraBusy.Accessible (bgraBusy.block.bgraOperands bgraBusy.params).footprint :=
  State.accessible_of_bytes (by decide) (by decide)

theorem yuvBusy_inv : (yuvBusy 0 0).Inv := by
  refine ⟨by decide, by decide, ⟨by decide, by decide, by decide, ?_, ?_⟩, fun _ h => absurd h List.not_mem_nil,
    by decide⟩
  · exact fun _ _ => ⟨yuvBusy_contract, by decide⟩
  · exact fun _ h => absurd h (by decide)
theorem bgraBusy_inv : bgraBusy.Inv := by
  refine ⟨by decide, by decide, ⟨by decide, by decide, by decide, ?_, ?_⟩, fun _ h => absurd h List.not_mem_nil,
    by decide⟩
  · exact fun _ h => absurd h (by decide)
  · exact fun _ _ => ⟨bgraBusy_contract, by decide⟩

/-- DecodeMatchesAllThirtyTwoBits, third clause. -/
theorem test_witness_other_word : (0x00000003 : CmdWord) ≠ 1 ∧ (0x00000003 : CmdWord) ≠ 2 := by decide

/-- ReservedCommandStartsNothing: at the word above the two commands. -/
theorem test_witness_reserved_command :
    let w : CmdWord := 3
    let s : State := { State.reset with events := [.wr 0 8 (w.setWidth 64)] }
    s.record = none ∧ s.events = [.wr 0 8 (w.setWidth 64)] ∧ 0 ≤ s.peers.length ∧
      (s.focus 0).block.busy = false ∧ w ≠ 0x00000001 ∧ w ≠ 0x00000002 := by decide
/-- TooWideCommandValueStops: the least such value. -/
theorem test_witness_wide_command :
    State.reset.block.busy = false ∧ 2 ^ 32 ≤ (0x100000000 : Word).toNat := by decide

/-- StepRunsDecodedInstruction, first clause. -/
theorem test_witness_step_command :
    yuvCommand.record = none ∧ yuvCommand.events = [.wr 0 8 1] ∧ 0 ≤ yuvCommand.peers.length ∧
      (yuvCommand.focus 0).block.busy = false ∧ decodeValue 1 = .ok .yuv420ToRgb := by decide
/-- Two instances, both running. -/
def twoBusy (events : List Event) : State :=
  { bgraBusy with peers := [(yuvBusy 0 0).block], events := events }
/-- StepRunsDecodedInstruction, second clause, on instance 1. -/
theorem test_witness_step_engine :
    let s := twoBusy [.engine 1]
    s.record = none ∧ s.events = [.engine 1] ∧ 1 ≤ s.peers.length ∧
      (s.focus 1).block.busy = true ∧ decode (s.focus 1).block.cmd = .ok .yuv420ToRgb := by decide
/-- StepRunsDecodedInstruction, third clause. -/
theorem test_witness_step_idle :
    let s := twoBusy []
    s.record = none ∧ s.events = [] ∧ s.firstBusy = some 0 ∧
      decode (s.focus 0).block.cmd = .ok .bgraToRgb := by decide

/-- FetchWordRunsDecodedInstruction. -/
theorem test_witness_fetch : decodeTableWord 32 2 = some .bgraToRgb := by decide

/-- The clamp's cases at their bounds. -/
theorem test_witness_clamp : (0 : Int) ≤ 0 ∧ (0 : Int) ≤ 255 ∧ (-1 : Int) < 0 ∧ (255 : Int) < 256 ∧
    10 ≤ 10 := by decide

/-- OperandExtraction: with AW = 32, two registers that differ above bit 31. -/
theorem test_witness_extraction :
    let p := { Params.default with aw := 32 }
    p.wf = true ∧ (0xFFFFFFFF00001000 : Word).toNat % 2 ^ p.aw = (0x1000 : Word).toNat % 2 ^ p.aw ∧
      (0x100000002 : Word).toNat % 2 ^ p.gw = (2 : Word).toNat % 2 ^ p.gw := by decide

/-- ChromaDeltas, last clause: two pixels of one block. -/
theorem test_witness_block : 2 / 2 = 3 / 2 ∧ 0 / 2 = 1 / 2 := by decide

/-- YuvEveryOutputByteExactlyOnce: the first and the last output byte. -/
theorem test_witness_output :
    let o := yuvBlock.yuvOperands Params.default
    1 ≤ o.width ∧ 1 ≤ o.height ∧ o.footprint.HasOutput 0x4000 ∧ o.footprint.HasOutput 0x400B := by
  decide

/-- YuvStartCompletes. -/
theorem test_witness_yuv_start :
    yuvIdle.block.busy = false ∧ YuvContract yuvIdle.params yuvIdle.block :=
  ⟨by decide, yuvBlock_contract⟩
/-- BgraStartCompletes. -/
theorem test_witness_bgra_start :
    bgraIdle.block.busy = false ∧ BgraContract bgraIdle.params bgraIdle.block :=
  ⟨by decide, bgraBlock_contract⟩

/-- An instance ready for START: not BUSY, every operand register written. -/
abbrev Ready (s : State) : Prop :=
  s.block.busy = false ∧ ∀ n : Fin 8, s.block.written[n] = true

/-- P1's operands with one register changed, in a machine with PITCH_ALIGN = 2. -/
def yuvWith (n : Fin 8) (v : Word) : State :=
  { yuvIdle with
    params := { Params.default with pitchAlign := 2 }
    block := { yuvBlock with arg := yuvBlock.arg.set n v } }

/-- YuvStartFaultOrder, an unwritten register: the first after reset, and the last alone. -/
theorem test_witness_yuv_unwritten :
    (State.reset.block.busy = false ∧ State.reset.block.written[(0 : Fin 8)] = false ∧
      ∀ m : Fin 8, m < 0 → State.reset.block.written[m] = true) ∧
    let b := { yuvBlock with written := yuvBlock.written.set 7 false }
    b.busy = false ∧ b.written[(7 : Fin 8)] = false ∧ ∀ m : Fin 8, m < 7 → b.written[m] = true := by
  decide
/-- YuvStartFaultOrder, WIDTH at 0 and HEIGHT at -1. -/
theorem test_witness_yuv_dimensions :
    (let s := yuvWith 3 0
     Ready s ∧ (s.block.yuvOperands s.params).width < 1) ∧
    let s := yuvWith 4 0xFFFFFFFF
    let o := s.block.yuvOperands s.params
    Ready s ∧ 1 ≤ o.width ∧ o.height < 1 := by decide
/-- YuvStartFaultOrder, an odd pitch where PITCH_ALIGN is 2. -/
theorem test_witness_yuv_pitches :
    (let s := yuvWith 5 1
     let o := s.block.yuvOperands s.params
     let al : Int := s.params.pitchAlign
     Ready s ∧ 1 ≤ o.width ∧ 1 ≤ o.height ∧ o.pp % al ≠ 0) ∧
    let s := yuvWith 6 3
    let o := s.block.yuvOperands s.params
    let al : Int := s.params.pitchAlign
    Ready s ∧ 1 ≤ o.width ∧ 1 ≤ o.height ∧ o.pp % al = 0 ∧ o.pr % al ≠ 0 := by decide
/-- YuvStartFaultOrder, an overflow: a negative luma index, and an output that ends past the space. -/
theorem test_witness_yuv_overflow :
    (let s := yuvWith 6 0xFFFFFFFE
     let o := s.block.yuvOperands s.params
     let al : Int := s.params.pitchAlign
     Ready s ∧ 1 ≤ o.width ∧ 1 ≤ o.height ∧ o.pp % al = 0 ∧ o.pr % al = 0 ∧ o.HasPixel 0 1 ∧
       ¬ o.PixelFits s.params 0 1) ∧
    let s := yuvWith 7 0xFFFFFFFFFFFFFFF5
    let o := s.block.yuvOperands s.params
    let al : Int := s.params.pitchAlign
    Ready s ∧ 1 ≤ o.width ∧ 1 ≤ o.height ∧ o.pp % al = 0 ∧ o.pr % al = 0 ∧
      2 ^ s.params.aw ≤ o.rgbBase + 3 * o.width * o.height - 1 := by decide
/-- YuvStartFaultOrder, an overlap: the output begins at the last luma byte. -/
theorem test_witness_yuv_overlap :
    let s := yuvWith 7 0x1003
    let o := s.block.yuvOperands s.params
    let al : Int := s.params.pitchAlign
    (Ready s ∧ 1 ≤ o.width ∧ 1 ≤ o.height ∧ o.pp % al = 0 ∧ o.pr % al = 0) ∧
      ((∀ i j, o.HasPixel i j → o.PixelFits s.params i j) ∧
        o.rgbBase + 3 * o.width * o.height - 1 < 2 ^ s.params.aw) ∧
      ¬ o.footprint.Disjoint :=
  ⟨by decide, (YuvOperands.overflow?_eq_none (by decide) (by decide)).1 (by decide), by decide⟩
/-- NonPositiveDimensionFaultsAtStart: WIDTH at 0, HEIGHT at -1. -/
theorem test_witness_nonpositive :
    (Ready (yuvWith 3 0) ∧ ((yuvWith 3 0).block.yuvOperands (yuvWith 3 0).params).width ≤ 0) ∧
    let s := yuvWith 4 0xFFFFFFFF
    Ready s ∧ (s.block.yuvOperands s.params).height ≤ 0 := by decide

/-- S5's operands with one register changed, in a machine with PITCH_ALIGN = 2. -/
def bgraWith (n : Fin 8) (v : Word) : State :=
  { bgraIdle with
    params := { Params.default with pitchAlign := 2 }
    block := { bgraBlock with arg := bgraBlock.arg.set n v } }

/-- BgraStartFaultOrder, an unwritten register: the last one the operation reads. -/
theorem test_witness_bgra_unwritten :
    let b := { bgraBlock with written := bgraBlock.written.set 4 false }
    b.busy = false ∧ (4 : Fin 8) < 5 ∧ b.written[(4 : Fin 8)] = false ∧
      ∀ m : Fin 8, m < 4 → b.written[m] = true := by decide
/-- BgraStartFaultOrder, WIDTH and HEIGHT at 0. -/
theorem test_witness_bgra_dimensions :
    (let s := bgraWith 1 0
     Ready s ∧ (s.block.bgraOperands s.params).width < 1) ∧
    let s := bgraWith 2 0
    let o := s.block.bgraOperands s.params
    Ready s ∧ 1 ≤ o.width ∧ o.height < 1 := by decide
/-- BgraStartFaultOrder, ROW_BYTES one below 4*W, and odd. -/
theorem test_witness_bgra_rowBytes :
    (let s := bgraWith 3 3
     let o := s.block.bgraOperands s.params
     Ready s ∧ 1 ≤ o.width ∧ 1 ≤ o.height ∧ o.rowBytes < 4 * o.width) ∧
    let s := bgraWith 3 5
    let o := s.block.bgraOperands s.params
    let al : Int := s.params.pitchAlign
    Ready s ∧ 1 ≤ o.width ∧ 1 ≤ o.height ∧ 4 * o.width ≤ o.rowBytes ∧ o.rowBytes % al ≠ 0 := by decide
/-- BgraStartFaultOrder, an overflow: the output ends one byte past the address space, and an image that
does not fit GW = 32 bits. -/
theorem test_witness_bgra_overflow :
    (let s := bgraWith 4 0xFFFFFFFFFFFFFFFE
     let o := s.block.bgraOperands s.params
     let al : Int := s.params.pitchAlign
     Ready s ∧ 1 ≤ o.width ∧ 1 ≤ o.height ∧ 4 * o.width ≤ o.rowBytes ∧ o.rowBytes % al = 0 ∧
       2 ^ s.params.aw < o.rgbBase + 3 * o.width * o.height) ∧
    let s := bgraWith 2 0x7FFFFFFF
    let o := s.block.bgraOperands s.params
    let al : Int := s.params.pitchAlign
    Ready s ∧ 1 ≤ o.width ∧ 1 ≤ o.height ∧ 4 * o.width ≤ o.rowBytes ∧ o.rowBytes % al = 0 ∧
      ¬ o.InputFits s.params ∧ ¬ o.OutputFits s.params := by decide
/-- BgraStartFaultOrder, an overlap: the output begins at the alpha byte, which is read (R108). -/
theorem test_witness_bgra_overlap :
    let s := bgraWith 4 0x5003
    let o := s.block.bgraOperands s.params
    let al : Int := s.params.pitchAlign
    Ready s ∧ 1 ≤ o.width ∧ 1 ≤ o.height ∧ 4 * o.width ≤ o.rowBytes ∧ o.rowBytes % al = 0 ∧
      o.InputFits s.params ∧ o.OutputFits s.params ∧
      o.rgbBase + 3 * o.width * o.height ≤ 2 ^ s.params.aw ∧ ¬ o.footprint.Disjoint := by decide

/-- YuvPixelStep: the last pixel. -/
theorem test_witness_yuv_pixel :
    let s := yuvBusy 1 1
    let o := s.block.yuvOperands s.params
    s.block.busy = true ∧ s.block.cmd = 0x00000001 ∧ (s.block.seqI : Int) < o.width ∧
      s.YuvPixelOk o 1 1 := by decide
/-- YuvFinishStep. -/
theorem test_witness_yuv_finish :
    let s := yuvBusy 2 0
    s.block.busy = true ∧ s.block.cmd = 0x00000001 ∧
      (s.block.yuvOperands s.params).width ≤ s.block.seqI := by decide
/-- YuvVisitOrder, at the last pixel of the first column, and YuvFrame, its pixel step. -/
theorem test_witness_yuv_visit :
    let s := yuvBusy 0 1
    let o := s.block.yuvOperands s.params
    (s.block.busy = true ∧ 1 < o.width.toNat * o.height.toNat ∧ s.block.seqI = 1 / o.height.toNat ∧
      s.block.seqJ = 1 % o.height.toNat ∧ (s.block.seqI : Int) < o.width ∧
      ¬ (o.outAddr 0 1 ≤ (0x4009 : Nat) ∧ ((0x4009 : Nat) : Int) < o.outAddr 0 1 + 3)) ∧
    ∃ t, exec .yuv420ToRgb s = .next t :=
  ⟨by decide, (exists_of_answers (p := fun _ => true) (by decide)).imp fun _ h => h.1⟩
/-- YuvFrame: START and the finish step. -/
theorem test_witness_yuv_frame :
    (yuvIdle.block.busy = false ∧ ∃ t, exec .yuv420ToRgb yuvIdle = .next t) ∧
      ∃ t, exec .yuv420ToRgb (yuvBusy 2 0) = .next t :=
  ⟨⟨by decide, (exists_of_answers (p := fun _ => true) (by decide)).imp fun _ h => h.1⟩,
    (exists_of_answers (p := fun _ => true) (by decide)).imp fun _ h => h.1⟩
/-- YuvClosedForm. -/
theorem test_witness_yuv_closed :
    let s := yuvBusy 0 0
    s.record = none ∧ s.events = [] ∧ s.block.busy = true ∧ s.block.cmd = 0x00000001 ∧
      s.block.seqI = 0 ∧ s.block.seqJ = 0 ∧ YuvContract s.params s.block ∧
      s.Accessible (s.block.yuvOperands s.params).footprint ∧
      (s.block.yuvOperands s.params).HasPixel 1 1 ∧
      ¬ (s.block.yuvOperands s.params).footprint.HasOutput 0x400C :=
  ⟨by decide, by decide, by decide, by decide, by decide, by decide, yuvBusy_contract,
    yuvBusy_accessible, by decide, by decide⟩

/-- BgraPixelStep. -/
theorem test_witness_bgra_pixel :
    let o := bgraBusy.block.bgraOperands bgraBusy.params
    bgraBusy.block.busy = true ∧ bgraBusy.block.cmd = 0x00000002 ∧
      (bgraBusy.block.seqR : Int) < o.height ∧ bgraBusy.BgraPixelOk o 0 0 := by decide
/-- BgraFinishStep. -/
theorem test_witness_bgra_finish :
    bgraLast.block.busy = true ∧ bgraLast.block.cmd = 0x00000002 ∧
      (bgraLast.block.bgraOperands bgraLast.params).height ≤ bgraLast.block.seqR := by decide
/-- BgraVisitOrder, and BgraFrame, the pixel step. -/
theorem test_witness_bgra_visit :
    let o := bgraBusy.block.bgraOperands bgraBusy.params
    (bgraBusy.block.busy = true ∧ 0 < o.width.toNat * o.height.toNat ∧
      bgraBusy.block.seqR = 0 / o.width.toNat ∧ bgraBusy.block.seqC = 0 % o.width.toNat ∧
      (bgraBusy.block.seqR : Int) < o.height ∧
      ¬ (bgraBusy.block.seqOptr ≤ 0x6003 ∧ 0x6003 < bgraBusy.block.seqOptr + 3)) ∧
    ∃ t, exec .bgraToRgb bgraBusy = .next t :=
  ⟨by decide, (exists_of_answers (p := fun _ => true) (by decide)).imp fun _ h => h.1⟩
/-- BgraFrame: START and the finish step. -/
theorem test_witness_bgra_frame :
    (bgraIdle.block.busy = false ∧ ∃ t, exec .bgraToRgb bgraIdle = .next t) ∧
      ∃ t, exec .bgraToRgb bgraLast = .next t :=
  ⟨⟨by decide, (exists_of_answers (p := fun _ => true) (by decide)).imp fun _ h => h.1⟩,
    (exists_of_answers (p := fun _ => true) (by decide)).imp fun _ h => h.1⟩
/-- AlphaAndPaddingNeverReachOutput: two memories that differ in the alpha byte. -/
theorem test_witness_alpha :
    let o := bgraBusy.block.bgraOperands bgraBusy.params
    let m : Memory := [(0x5000, 10), (0x5001, 20), (0x5002, 30), (0x5003, 1)]
    (bgraBusy.block.busy = true ∧ (bgraBusy.block.seqR : Int) < o.height ∧
      (∀ k : Nat, k < 3 → Memory.read m (o.lane 0 0 k).addr.toNat =
        Memory.read bgraBusy.mem (o.lane 0 0 k).addr.toNat) ∧ m ≠ bgraBusy.mem) ∧
    (∃ t, exec .bgraToRgb bgraBusy = .next t) ∧
      ∃ t, exec .bgraToRgb { bgraBusy with mem := m } = .next t :=
  ⟨by decide, (exists_of_answers (p := fun _ => true) (by decide)).imp fun _ h => h.1,
    (exists_of_answers (p := fun _ => true) (by decide)).imp fun _ h => h.1⟩
/-- BgraClosedForm. -/
theorem test_witness_bgra_closed :
    bgraBusy.record = none ∧ bgraBusy.events = [] ∧ bgraBusy.block.busy = true ∧
      bgraBusy.block.cmd = 0x00000002 ∧ bgraBusy.block.seqR = 0 ∧ bgraBusy.block.seqC = 0 ∧
      bgraBusy.block.seqOptr = (bgraBusy.block.bgraOperands bgraBusy.params).rgbBase ∧
      BgraContract bgraBusy.params bgraBusy.block ∧
      bgraBusy.Accessible (bgraBusy.block.bgraOperands bgraBusy.params).footprint ∧
      ¬ (bgraBusy.block.bgraOperands bgraBusy.params).footprint.HasOutput 0x6003 :=
  ⟨by decide, by decide, by decide, by decide, by decide, by decide, by decide, bgraBusy_contract,
    bgraBusy_accessible, by decide⟩

/-- StepKeepsFinishedPixels, at START. -/
theorem test_witness_pixels_start :
    (yuvIdle.block.busy = false ∧ ∃ t, exec .yuv420ToRgb yuvIdle = .next t) ∧
      bgraIdle.block.busy = false ∧ ∃ t, exec .bgraToRgb bgraIdle = .next t :=
  ⟨⟨by decide, (exists_of_answers (p := fun _ => true) (by decide)).imp fun _ h => h.1⟩,
    by decide, (exists_of_answers (p := fun _ => true) (by decide)).imp fun _ h => h.1⟩
/-- P1 running, the first column done. -/
def yuvHalf : State :=
  { yuvBusy 1 0 with
    mem := yuvIdle.mem ++ [(0x4000, 128), (0x4001, 127), (0x4002, 127), (0x4006, 128), (0x4007, 127),
      (0x4008, 127)] }
theorem yuvHalf_holds :
    yuvHalf.block.PixelsHold yuvHalf.params yuvIdle.mem yuvHalf.mem .yuv420ToRgb := by
  refine ⟨by decide, ?_⟩
  intro i j k hp hk hb
  have hi : i = 0 := by
    have h1 : Before i j 1 0 := hb
    simp only [Before] at h1
    omega
  have hj : j < 2 := by
    have h2 : (j : Int) < 2 := hp.2
    omega
  subst hi
  clear hp hb
  interval_cases j <;> interval_cases k <;> decide
theorem yuvHalf_inv : yuvHalf.Inv := by
  refine ⟨by decide, by decide, ⟨by decide, by decide, by decide, fun _ _ => ⟨?_, by decide⟩, ?_⟩,
    fun _ h => absurd h List.not_mem_nil, by decide⟩
  · exact yuvStartFault?_eq_none.1 (by decide)
  · exact fun _ h => absurd h (by decide)
/-- StepKeepsFinishedPixels: a pixel step, a poll, a host write elsewhere, each with two pixels done. -/
theorem test_witness_pixels :
    ∀ e ∈ [Event.engine 0, .rd 0 9, .memWrite 0x9000 5],
      let s : State := { yuvHalf with events := [e] }
      s.Inv ∧ ¬ s.ResetNext ∧ s.blockAt 0 = some (yuvBusy 1 0).block ∧
        (yuvBusy 1 0).block.busy = true ∧ (yuvBusy 1 0).block.cmd = encode .yuv420ToRgb ∧
        (yuvBusy 1 0).block.PixelsHold s.params yuvIdle.mem s.mem .yuv420ToRgb ∧
        ∃ t, step s = .next t := by
  intro e he
  have hi := yuvHalf_inv
  simp only [List.mem_cons, List.not_mem_nil, or_false] at he
  rcases he with rfl | rfl | rfl <;>
    exact ⟨⟨hi.mem, hi.space, hi.block, hi.peers, hi.sel⟩, by decide, by decide, by decide, by decide,
      yuvHalf_holds, (exists_of_answers (p := fun _ => true) (by decide)).imp fun _ h => h.1⟩
/-- S5 with its pixel done: the step that ends the operation. -/
def bgraDone : State :=
  { bgraLast with mem := bgraIdle.mem ++ [(0x6000, 30), (0x6001, 20), (0x6002, 10)] }
theorem bgraDone_inv : bgraDone.Inv := by
  refine ⟨by decide, by decide, ⟨by decide, by decide, by decide, ?_, ?_⟩,
    fun _ h => absurd h List.not_mem_nil, by decide⟩
  · exact fun _ h => absurd h (by decide)
  · exact fun _ _ => ⟨bgraStartFault?_eq_none.1 (by decide), by decide⟩
/-- StepKeepsFinishedPixels: the finish step. -/
theorem test_witness_pixels_finish :
    bgraDone.Inv ∧ ¬ bgraDone.ResetNext ∧ bgraDone.blockAt 0 = some bgraDone.block ∧
      bgraDone.block.busy = true ∧ bgraDone.block.cmd = encode .bgraToRgb ∧
      bgraDone.block.PixelsHold bgraDone.params bgraIdle.mem bgraDone.mem .bgraToRgb ∧
      ∃ t, step bgraDone = .next t ∧ (t.block.busy == false) = true := by
  refine ⟨bgraDone_inv, by decide, by decide, by decide, by decide, ⟨by decide, ?_⟩,
    exists_of_answers (by decide)⟩
  intro r c k hr hc hk _
  have h1 : (r : Int) < 1 := hr
  have h2 : (c : Int) < 1 := hc
  obtain rfl : r = 0 := by omega
  obtain rfl : c = 0 := by omega
  clear hr hc h1 h2
  interval_cases k <;> decide

/-- A machine with a device at 0x7000 and nothing allocated, running P1's operands. -/
def noBuffers : State :=
  { yuvBusy 0 0 with regions := [⟨0x7000, 1, .device, true, true⟩] }
/-- AccessOutsideBuffersStops: device memory and unallocated memory. -/
theorem test_witness_outside :
    let o := noBuffers.block.yuvOperands noBuffers.params
    (Params.InSpace noBuffers.params 0x7000 ∧ noBuffers.isDevice 0x7000 = true) ∧
    Params.InSpace noBuffers.params (o.luma 0 0).addr ∧
      noBuffers.isDevice (o.luma 0 0).addr.toNat = false ∧
      noBuffers.mayRead (o.luma 0 0).addr.toNat = false ∧
      Params.InSpace noBuffers.params 0x4000 ∧ noBuffers.isDevice 0x4000 = false ∧
      noBuffers.mayWrite 0x4000 = false ∧
      noBuffers.block.busy = true ∧ noBuffers.block.cmd = 0x00000001 ∧ (0 : Int) < o.width := by decide
/-- P1 running at its last pixel with the buffers given. -/
def yuvOver (regions : List Region) : State := { yuvBusy 1 1 with regions := regions }
/-- AccessOutsideBuffersStops, the reads of YUV420_TO_RGB: F19 and F20, the U and then the V plane
missing. -/
theorem test_witness_outside_yuv_reads :
    (let s := yuvOver [buffer 0x1000 4, buffer 0x3000 1, buffer 0x4000 12]
     let o := s.block.yuvOperands s.params
     s.block.busy = true ∧ s.block.cmd = 0x00000001 ∧ (1 : Int) < o.width ∧
       (∀ m < 1, s.ReadOk (o.touch 1 1 m).addr) ∧ Params.InSpace s.params (o.touch 1 1 1).addr ∧
       s.isDevice (o.touch 1 1 1).addr.toNat = false ∧
       s.mayRead (o.touch 1 1 1).addr.toNat = false) ∧
    let s := yuvOver [buffer 0x1000 4, buffer 0x2000 1, buffer 0x4000 12]
    let o := s.block.yuvOperands s.params
    (∀ m < 2, s.ReadOk (o.touch 1 1 m).addr) ∧ Params.InSpace s.params (o.touch 1 1 2).addr ∧
      s.isDevice (o.touch 1 1 2).addr.toNat = false ∧
      s.mayRead (o.touch 1 1 2).addr.toNat = false := by decide
/-- AccessOutsideBuffersStops, the writes: F21, and an output buffer that begins at the second byte of
the pixel. -/
theorem test_witness_outside_yuv_writes :
    (let s := yuvShort
     let o := s.block.yuvOperands s.params
     s.block.busy = true ∧ s.block.cmd = 0x00000001 ∧ (1 : Int) < o.width ∧
       (∀ m < 3, s.ReadOk (o.touch 1 1 m).addr) ∧ (∀ m < 2, s.WriteOk (o.outAddr 1 1 + (m : Nat))) ∧
       Params.InSpace s.params (o.outAddr 1 1 + (2 : Nat)) ∧
       s.isDevice (o.outAddr 1 1 + (2 : Nat)).toNat = false ∧
       s.mayWrite (o.outAddr 1 1 + (2 : Nat)).toNat = false) ∧
    let s := yuvOver [buffer 0x1000 4, buffer 0x2000 1, buffer 0x3000 1, buffer 0x400A 2]
    let o := s.block.yuvOperands s.params
    (∀ m < 3, s.ReadOk (o.touch 1 1 m).addr) ∧ Params.InSpace s.params (o.outAddr 1 1) ∧
      s.isDevice (o.outAddr 1 1).toNat = false ∧ s.mayWrite (o.outAddr 1 1).toNat = false := by decide
/-- AccessOutsideBuffersStops, BGRA_TO_RGB: F22, the alpha byte missing; and an output buffer of one
byte. -/
theorem test_witness_outside_bgra :
    (let s := { bgraBusy with regions := [buffer 0x5000 3, buffer 0x6000 3] }
     let o := s.block.bgraOperands s.params
     s.block.busy = true ∧ s.block.cmd = 0x00000002 ∧ (s.block.seqR : Int) < o.height ∧
       (∀ m < 3, s.ReadOk (o.lane 0 0 m).addr) ∧ Params.InSpace s.params (o.lane 0 0 3).addr ∧
       s.isDevice (o.lane 0 0 3).addr.toNat = false ∧
       s.mayRead (o.lane 0 0 3).addr.toNat = false) ∧
    let s := { bgraBusy with regions := [buffer 0x5000 4, buffer 0x6000 1] }
    let o := s.block.bgraOperands s.params
    (∀ m < 4, s.ReadOk (o.lane 0 0 m).addr) ∧
      (∀ m < 1, s.WriteOk ((s.block.seqOptr : Int) + (m : Nat))) ∧
      Params.InSpace s.params ((s.block.seqOptr : Int) + (1 : Nat)) ∧
      s.isDevice ((s.block.seqOptr : Int) + (1 : Nat)).toNat = false ∧
      s.mayWrite ((s.block.seqOptr : Int) + (1 : Nat)).toNat = false := by decide

/-- P1 and the bytes of an operation that runs beside it. -/
def yuvBeside (peers : List Block) (rivals : List Rival) : State :=
  { yuvBusy 1 1 with
    peers := peers, rivals := rivals
    regions := [buffer 0x1000 4, buffer 0x2000 1, buffer 0x3000 1, buffer 0x4000 12] }
/-- A 1 by 1 BGRA operation from `input` to `output`, running. -/
def bgraFrom (input output : Word) : Block :=
  { blockWith #v[input, 1, 1, 4, output, 0, 0, 0] with
    cmd := 2, status := 1, seqOptr := output.toNat }
/-- AccessOfAnotherOperationConflicts, YUV420_TO_RGB: its V plane is an output byte of a running
operation; its last output byte is the last input byte of one that ran at once; and no such byte. -/
theorem test_witness_at_once_yuv :
    (let s := yuvBeside [bgraFrom 0x6000 0x2FFE] []
     let o := s.block.yuvOperands s.params
     let f := (bgraFrom 0x6000 0x2FFE).footprintOf s.params .bgraToRgb
     (1 : Int) < o.width ∧ (∀ m < 2, s.ReadOk (o.touch 1 1 m).addr) ∧
       Params.InSpace s.params (o.touch 1 1 2).addr ∧ s.isDevice (o.touch 1 1 2).addr.toNat = false ∧
       s.mayRead (o.touch 1 1 2).addr.toNat = true ∧ s.AtOnce f ∧
       f.HasOutput (o.touch 1 1 2).addr) ∧
    (let q := (bgraFrom 0x400B 0x6000).bgraOperands Params.default
     let s := yuvBeside [] [⟨0, 1, .bgra q⟩]
     let o := s.block.yuvOperands s.params
     (∀ m < 3, s.ReadOk (o.touch 1 1 m).addr) ∧ (∀ m < 2, s.WriteOk (o.outAddr 1 1 + (m : Nat))) ∧
       Params.InSpace s.params (o.outAddr 1 1 + (2 : Nat)) ∧
       s.isDevice (o.outAddr 1 1 + (2 : Nat)).toNat = false ∧
       s.mayWrite (o.outAddr 1 1 + (2 : Nat)).toNat = true ∧ s.AtOnce q.footprint ∧
       q.footprint.HasInput (o.outAddr 1 1 + (2 : Nat)) ∧
       ¬ q.footprint.HasOutput (o.outAddr 1 1 + (2 : Nat))) ∧
    let s := yuvBeside [bgraFrom 0x6000 0x7000] []
    s.peers.length = 1 ∧ s.peerClash Footprint.clashesRead 0x3000 = none ∧
      s.peerClash Footprint.clashesWrite 0x4000 = none :=
  ⟨⟨by decide, by decide, by decide, by decide, by decide,
      .inl ⟨_, List.mem_cons_self .., by decide⟩, by decide⟩,
    ⟨by decide, by decide, by decide, by decide, by decide,
      .inr ⟨_, List.mem_cons_self .., by decide, by decide⟩, by decide, by decide⟩,
    by decide, by decide, by decide⟩
/-- AccessOfAnotherOperationConflicts, BGRA_TO_RGB: its alpha byte and its first output byte are output
bytes of a running operation (F30). -/
theorem test_witness_at_once_bgra :
    (let s := { bgraBusy with peers := [bgraFrom 0x8000 0x5003] }
     let o := s.block.bgraOperands s.params
     let f := (bgraFrom 0x8000 0x5003).footprintOf s.params .bgraToRgb
     (s.block.seqR : Int) < o.height ∧ (∀ m < 3, s.ReadOk (o.lane 0 0 m).addr) ∧
       Params.InSpace s.params (o.lane 0 0 3).addr ∧ s.isDevice (o.lane 0 0 3).addr.toNat = false ∧
       s.mayRead (o.lane 0 0 3).addr.toNat = true ∧ s.AtOnce f ∧ f.HasOutput (o.lane 0 0 3).addr) ∧
    let s := { bgraBusy with peers := [bgraFrom 0x8000 0x6000] }
    let o := s.block.bgraOperands s.params
    let f := (bgraFrom 0x8000 0x6000).footprintOf s.params .bgraToRgb
    (∀ m < 4, s.ReadOk (o.lane 0 0 m).addr) ∧ Params.InSpace s.params 0x6000 ∧
      s.isDevice 0x6000 = false ∧ s.mayWrite 0x6000 = true ∧ s.AtOnce f ∧ f.HasOutput 0x6000 :=
  ⟨⟨by decide, by decide, by decide, by decide, by decide,
      .inl ⟨_, List.mem_cons_self .., by decide⟩, by decide⟩,
    by decide, by decide, by decide, by decide, .inl ⟨_, List.mem_cons_self .., by decide⟩, by decide⟩
/-- EndedOperationsAreRemembered: the operation of instance 0 ends while that of instance 1 runs; the
host reads DONE of instance 0. -/
theorem test_witness_ended :
    (let s := { bgraDone with peers := [(yuvBusy 0 0).block] }
     s.Inv ∧ ¬ s.ResetNext ∧ s.blockAt 0 = some bgraLast.block ∧ bgraLast.block.busy = true ∧
       bgraLast.block.cmd = encode .bgraToRgb ∧ s.blockAt 1 = some (yuvBusy 0 0).block ∧
       (yuvBusy 0 0).block.busy = true ∧ ∃ t, step s = .next t ∧ (!t.block.busy) = true) ∧
    let s : State := { yuvIdle with
      block := { yuvBlock with status := 2 }
      unread := [⟨0, .yuv (yuvBlock.yuvOperands Params.default)⟩], events := [.rd 0 9] }
    s.Inv ∧ ¬ s.ResetNext ∧ s.unread ≠ [] ∧ ∃ t, step s = .next t ∧ (t.unread == []) = true := by
  refine ⟨⟨⟨bgraDone_inv.mem, bgraDone_inv.space, bgraDone_inv.block, ?_, rfl⟩, by decide, by decide,
      by decide, by decide, by decide, by decide, exists_of_answers (by decide)⟩,
    ⟨by decide, by decide, ⟨by decide, by decide, by decide, ?_, ?_⟩,
      fun _ h => absurd h List.not_mem_nil, by decide⟩,
    by decide, by decide, exists_of_answers (by decide)⟩
  · intro b hb
    rw [show b = (yuvBusy 0 0).block by simpa using hb]
    exact yuvBusy_inv.block
  · exact fun h => absurd h (by decide)
  · exact fun h => absurd h (by decide)
/-- EndedOperationsAreRemembered, second clause: a pixel step of the instance for which an ended
operation is noted. -/
theorem test_witness_rival_kept :
    let r : Rival := ⟨0, 1, .bgra (bgraBlock.bgraOperands Params.default)⟩
    let s : State := { yuvBusy 0 0 with rivals := [r] }
    s.Inv ∧ ¬ s.ResetNext ∧ r ∈ s.rivals ∧
      ∃ t, step s = .next t ∧ (t.blockAt r.of).all Block.busy = true :=
  ⟨⟨yuvBusy_inv.mem, yuvBusy_inv.space, yuvBusy_inv.block, yuvBusy_inv.peers, rfl⟩, by decide,
    by decide, exists_of_answers (by decide)⟩
/-- OtherCommandWhileBusyStops. -/
theorem test_witness_other_command :
    bgraBusy.block.busy = true ∧ bgraBusy.block.cmd ≠ encode .yuv420ToRgb := by decide

/-- RegisterReadHasNoSideEffect: a written and a never written register, and the reserved numbers. -/
theorem test_witness_read :
    yuvIdle.block.written[7] = true ∧ State.reset.block.written[7] = false ∧ 7 < 8 ∧ 10 ≤ 10 := by decide
/-- OperandWrite and CommandWriteWhileBusyStops. -/
theorem test_witness_write : yuvIdle.block.busy = false ∧ (yuvBusy 0 0).block.busy = true := by decide
/-- HostMemoryAccess: the first address that does not exist, a device; an input byte, the last output
byte and the byte after it of a running operation; and a byte of one whose DONE the host has not read. -/
theorem test_witness_host_memory :
    (2 ^ Params.default.aw ≤ 0x10000000000000000 ∧ 0x7000 < 2 ^ noBuffers.params.aw ∧
      noBuffers.isDevice 0x7000 = true) ∧
    (let s := yuvBusy 0 0
     let f := (s.block.yuvOperands s.params).footprint
     s.NotOver f ∧ 0x400B < 2 ^ s.params.aw ∧ s.isDevice 0x400B = false ∧ f.HasInput 0x1003 ∧
       f.HasOutput 0x400B ∧ s.hostClash Footprint.clashesWrite 0x400C = none ∧
       s.hostClash Footprint.clashesRead 0x1003 = none) ∧
    let o := yuvBlock.yuvOperands Params.default
    let s : State := { yuvIdle with unread := [⟨0, .yuv o⟩] }
    s.NotOver o.footprint ∧ o.footprint.HasOutput 0x4000 ∧ s.isDevice 0x4000 = false :=
  ⟨by decide, ⟨.inl ⟨_, List.mem_cons_self .., by decide⟩, by decide, by decide, by decide, by decide,
    by decide, by decide⟩, .inr ⟨_, List.mem_cons_self .., by decide⟩, by decide, by decide⟩
/-- FreeingBuffersOfRunningOperationStops: the luma buffer, the output buffer, and, while BUSY, a buffer
no operation needs. -/
theorem test_witness_free :
    let s := yuvBusy 0 0
    let f := (s.block.yuvOperands s.params).footprint
    let u := (s.block.yuvOperands s.params).luma 1 1
    s.Running f ∧
      (u ∈ f.reads ∧ buffer 0x1000 4 ∈ s.regions ∧ (buffer 0x1000 4).kind = .ordinary ∧
        (buffer 0x1000 4).readableAt u.addr.toNat = true) ∧
      (11 < f.outLen ∧ buffer 0x4000 12 ∈ s.regions ∧
        (buffer 0x4000 12).writableAt (f.outBase + 11) = true) ∧
      answers (step { s with regions := buffer 0x9000 2 :: s.regions, events := [.free 0x9000] })
        (fun t => t.regions == s.regions) = true :=
  ⟨⟨_, List.mem_cons_self .., by decide⟩, by decide, by decide, by decide⟩
/-- AllocatingBuffers: the V plane and the output allocated only while BUSY, and a buffer elsewhere. -/
theorem test_witness_alloc :
    let s := yuvOver [buffer 0x1000 4, buffer 0x2000 1]
    let f := (s.block.yuvOperands s.params).footprint
    let u := (s.block.yuvOperands s.params).chromaV 0 0
    s.Running f ∧
      (u ∈ f.reads ∧ (buffer 0x3000 1).readableAt u.addr.toNat = true ∧
        s.mayRead u.addr.toNat = false) ∧
      (0 < f.outLen ∧ (buffer 0x4000 12).writableAt (f.outBase + 0) = true ∧
        s.mayWrite (f.outBase + 0) = false) ∧
      answers (step { s with events := [.alloc (buffer 0x9000 2)] })
        (fun t => t.mayRead 0x9001) = true :=
  ⟨⟨_, List.mem_cons_self .., by decide⟩, by decide, by decide, by decide⟩
/-- WaitPollsUntilDone. -/
theorem test_witness_wait :
    { yuvBlock with status := 2 }.done = true ∧ (yuvBusy 0 0).block.done = false := by decide
/-- IdleEngineChangesNothing. -/
theorem test_witness_idle :
    yuvIdle.record = none ∧ yuvIdle.events = [] ∧ yuvIdle.block.busy = false ∧
      ∀ b ∈ yuvIdle.peers, b.busy = false := by decide
/-- EngineProgress, for both instructions. -/
theorem test_witness_progress :
    ((yuvBusy 0 0).Inv ∧ (yuvBusy 0 0).block.busy = true ∧
      (yuvBusy 0 0).block.cmd = encode .yuv420ToRgb ∧
      (yuvBusy 0 0).Accessible ((yuvBusy 0 0).block.footprintOf (yuvBusy 0 0).params .yuv420ToRgb)) ∧
    bgraBusy.Inv ∧ bgraBusy.block.busy = true ∧ bgraBusy.block.cmd = encode .bgraToRgb ∧
      bgraBusy.Accessible (bgraBusy.block.footprintOf bgraBusy.params .bgraToRgb) :=
  ⟨⟨yuvBusy_inv, by decide, by decide, yuvBusy_accessible⟩, bgraBusy_inv, by decide, by decide,
    bgraBusy_accessible⟩

/-- ResetEvent: an idle machine, and a running operation with a byte outside its output. -/
theorem test_witness_reset :
    let s : State := { yuvBusy 0 0 with events := [.reset] }
    s.events = [.reset] ∧ (∀ b ∈ yuvIdle.block :: yuvIdle.peers, b.busy = false) ∧
      s.block.footprint? s.params = some (s.block.yuvOperands s.params).footprint ∧
      ¬ (s.block.yuvOperands s.params).footprint.HasOutput 0x1000 := by decide
/-- FaultIsSticky: a fault raised, a fault recorded, and a reset after it. -/
theorem test_witness_fault :
    step { State.reset with events := [.wr 0 8 4] } = .fault (.illegalCommand (.word 4)) ∧
    (let s : State := { yuvBusy 0 0 with record := some (.unwrittenOperand 0) }
     s.record = some (.unwrittenOperand 0) ∧ ¬ s.ResetNext) ∧
    let s : State := { yuvBusy 0 0 with record := some (.unwrittenOperand 0), events := [.reset] }
    s.record = some (.unwrittenOperand 0) ∧ s.ResetNext :=
  ⟨eq_of_stops (by decide), by decide, by decide⟩

/-- FaultingStepKeepsEarlierAccesses: a host action; a read, and each of the three writes, that stops. -/
theorem test_witness_faulting :
    (let s : State := { State.reset with events := [.wr 0 8 4] }
     s.sel = 0 ∧ s.record = none ∧ s.turn = none ∧ step s = .fault (.illegalCommand (.word 4))) ∧
    (let s := yuvOver []
     s.sel = 0 ∧ s.record = none ∧ s.turn = some 0 ∧ (s.focus 0).block.busy = true ∧
       (s.focus 0).block.cmd = 0x00000001 ∧ ¬ s.ReadOk 0x1003 ∧
       step s = .fault (.readOutOfBuffer 0x1003 1 1 .y)) ∧
    (yuvShort.turn = some 0 ∧ yuvShort.WriteOk 0x4009 ∧ yuvShort.WriteOk 0x400A ∧
      ¬ yuvShort.WriteOk 0x400B ∧ step yuvShort = .fault (.writeOutOfBuffer 0x400B 1 1)) ∧
    (let s := { bgraBusy with regions := [buffer 0x5000 4, buffer 0x6000 1] }
     s.turn = some 0 ∧ (s.focus 0).block.cmd = 0x00000002 ∧ s.WriteOk 0x6000 ∧ ¬ s.WriteOk 0x6001 ∧
       step s = .fault (.writeOutOfBuffer 0x6001 0 0)) ∧
    let s := { bgraBusy with regions := [buffer 0x5000 4] }
    s.turn = some 0 ∧ ¬ s.WriteOk 0x6000 ∧ step s = .fault (.writeOutOfBuffer 0x6000 0 0) :=
  ⟨⟨by decide, by decide, by decide, eq_of_stops (by decide)⟩,
    ⟨by decide, by decide, by decide, by decide, by decide, by decide, eq_of_stops (by decide)⟩,
    ⟨by decide, by decide, by decide, by decide, eq_of_stops (by decide)⟩,
    ⟨by decide, by decide, by decide, by decide, eq_of_stops (by decide)⟩,
    by decide, by decide, eq_of_stops (by decide)⟩

/-- The engine of instance 0 steps: StepKeepsInvariant, StepKeepsMemoryCanonical, StepKeepsParameters,
OperandsFixedWhileBusy, and BuffersOfRunningOperationProtected's first clause. -/
theorem test_witness_step :
    let s : State := yuvBusy 0 0
    s.Inv ∧ Memory.Wf s.mem ∧ s.sel = 0 ∧ ¬ s.ResetNext ∧ s.blockAt 0 = some s.block ∧
      s.block.busy = true ∧ s.block.footprint? s.params = some (s.block.yuvOperands s.params).footprint ∧
      ∃ t, step s = .next t :=
  ⟨yuvBusy_inv, by decide, by decide, by decide, by decide, by decide, by decide,
    (exists_of_answers (p := fun _ => true) (by decide)).imp fun _ h => h.1⟩
/-- The engine of instance 1 steps while both run: InstancesShareOnlyMemory, OperandsFixedWhileBusy of
instance 1, and BuffersOfRunningOperationProtected's second clause for instance 0. -/
theorem test_witness_other_instance :
    let s : State :=
      { twoBusy [.engine 1] with regions := (yuvBusy 0 0).regions ++ bgraBusy.regions }
    s.Inv ∧ s.sel = 0 ∧ ¬ s.ResetNext ∧ s.acting = some 1 ∧ s.acting ≠ some 0 ∧
      s.acting ≠ some (1 + 1) ∧ s.blockAt 0 = some bgraBusy.block ∧
      s.blockAt 1 = some (yuvBusy 0 0).block ∧ (yuvBusy 0 0).block.busy = true ∧
      s.block.footprint? s.params = some (s.block.bgraOperands s.params).footprint ∧
      ∃ t, step s = .next t := by
  refine ⟨⟨by decide, by decide, bgraBusy_inv.block, ?_, by decide⟩, by decide, by decide, by decide,
    by decide, by decide, by decide, by decide, by decide, by decide,
    (exists_of_answers (p := fun _ => true) (by decide)).imp fun _ h => h.1⟩
  intro b hb
  rw [show b = (yuvBusy 0 0).block by simpa [twoBusy] using hb]
  exact yuvBusy_inv.block
/-- DoneBitLifetime: the finish step sets DONE, of instance 1 too; START clears it. -/
theorem test_witness_done :
    ((yuvBusy 2 0).sel = 0 ∧ ¬ (yuvBusy 2 0).ResetNext ∧ (yuvBusy 2 0).block.done = false ∧
      ∃ t, step (yuvBusy 2 0) = .next t ∧ t.block.done = true) ∧
    (let s : State := { State.reset with peers := [(yuvBusy 2 0).block], events := [.engine 1] }
     s.sel = 0 ∧ ¬ s.ResetNext ∧ s.blockAt 1 = some (yuvBusy 2 0).block ∧
       ∃ t, step s = .next t ∧ (t.blockAt 1).any (fun b => b.done && !b.busy) = true) ∧
    let s : State := { yuvCommand with block := { yuvBlock with status := 2 } }
    s.sel = 0 ∧ ¬ s.ResetNext ∧ s.block.done = true ∧
      ∃ t, step s = .next t ∧ t.block.done = false :=
  ⟨⟨by decide, by decide, by decide, exists_of_answers (by decide)⟩,
    ⟨by decide, by decide, by decide, exists_of_answers (by decide)⟩, by decide, by decide, by decide,
    (exists_of_answers (p := fun t => !t.block.done) (by decide)).imp fun _ h =>
      ⟨h.1, by simpa using h.2⟩⟩

end Sys2Proof.Tests
end

section
/-!
PROOFS. The statements of 30_encoding.md: decoding against encoding, reserved words and register
numbers, operand extraction.
-/
namespace Sys2Proof

/-! ### Decoding is the inverse of encoding -/

/-- The encoding is well formed and decodes to the instruction (30_encoding.md R56, R61). -/
theorem encode_roundTrip (i : Instr) : Laws.RoundTrip.Statement i := by
  cases i with
  | yuv420ToRgb => exact Laws.RoundTrip.yuv420ToRgb
  | bgraToRgb => exact Laws.RoundTrip.bgraToRgb

@[simp] theorem decode_encode (i : Instr) : decode (encode i) = .ok i := by
  obtain ⟨-, -, -, hdec⟩ := encode_roundTrip i
  exact hdec

/-- A word that decodes has no bit set in `RSVD` and the instruction's code point in `OPCODE`, and the
two fields are the whole word. -/
theorem decode_eq_ok_iff {w : CmdWord} {i : Instr} : decode w = .ok i ↔ w = encode i := by
  constructor
  · intro h
    unfold decode at h
    split at h
    · next hrsvd =>
      have hop : CmdWord.opcode w = i.opcode := (instrOfOpcode_ok_iff _ i).1 h
      rw [← CmdWord.fields w, hrsvd, hop, encode]
    · cases h
  · rintro rfl
    exact decode_encode i

/-- 30_encoding.md R62: every word but the two command words is reserved. -/
theorem decode_reserved {w : CmdWord} (h1 : w ≠ 0x00000001) (h2 : w ≠ 0x00000002) :
    ∃ r, decode w = .error r := by
  match h : decode w with
  | .error r => exact ⟨r, rfl⟩
  | .ok .yuv420ToRgb => exact absurd (decode_eq_ok_iff.1 h) (by simpa using h1)
  | .ok .bgraToRgb => exact absurd (decode_eq_ok_iff.1 h) (by simpa using h2)

/-- Settles O2: a word decodes to an instruction exactly when it is that instruction's encoding. -/
theorem decodeMatchesAllThirtyTwoBits : Obligations.DecodeMatchesAllThirtyTwoBits := by
  refine ⟨fun w => ?_, fun w => ?_, fun w => decode_reserved, fun i => ?_⟩
  · rw [decode_eq_ok_iff, encode_yuv]
  · rw [decode_eq_ok_iff, encode_bgra]
  · obtain ⟨hwf, -, -, hdec⟩ := encode_roundTrip i
    exact ⟨hwf, hdec⟩

/-- A value of 32 bits written to register 8 is the command word itself (30_encoding.md R68). -/
@[simp] theorem decodeValue_setWidth (w : CmdWord) : decodeValue (w.setWidth 64) = decode w := by
  have hlt : (w.setWidth 64).toNat < 2 ^ 32 := by
    rw [BitVec.toNat_setWidth_of_le (by decide)]
    exact w.isLt
  have hback : (w.setWidth 64).setWidth 32 = w := by
    simp [BitVec.setWidth_setWidth_of_le]
  rw [decodeValue, if_pos hlt, hback]

end Sys2Proof

namespace Sys2Proof.Machine

/-! ### Reserved words and register numbers -/

/-- A value that is no command, written to `CMD` while not BUSY (30_encoding.md R62). -/
theorem hostWrite_cmd_of_reject {s : State} {v : Word} {r : Reject} (hb : s.block.busy = false)
    (hv : decodeValue v = .error r) : hostWrite 8 v s = .fault (.illegalCommand (.word v)) := by
  simp [hostWrite, hb, startCommand, hv]

/-- An action that faults on the block it is brought to faults as a whole. -/
theorem onBlock_eq_fault {k : Nat} {act : State → Host.Outcome State Fault Refusal} {s : State}
    {f : Fault} (hk : k ≤ s.peers.length) (h : act (s.focus k) = .fault f) :
    onBlock k act s = .fault f := by
  rw [onBlock, if_pos hk, h]; rfl

/-- Settles O3: the write reaches block `k` in place, where the word is rejected. -/
theorem reservedCommandStartsNothing : Obligations.ReservedCommandStartsNothing := by
  intro s k w rest hrec hev hk hb h1 h2
  obtain ⟨r, hr⟩ := decode_reserved h1 h2
  rw [step_of_event hrec hev]
  refine onBlock_eq_fault hk (hostWrite_cmd_of_reject (r := r) ?_ ?_)
  · simpa using hb
  · rw [decodeValue_setWidth, hr]

/-- A host write to a register number 9 or above, BUSY or not (30_encoding.md R63). -/
theorem hostWrite_reserved {n : Nat} (h : 9 ≤ n) (v : Word) (s : State) :
    hostWrite n v s = .fault (.illegalCommand (.register n)) := by
  have hbusy : ¬ (s.block.busy = true ∧ n ≤ 8) := by omega
  have harg : ¬ n < 8 := by omega
  have hcmd : n ≠ 8 := by omega
  rw [hostWrite, if_neg hbusy, dif_neg harg, if_neg hcmd]

/-- A register number 10 or above names no register to read (30_encoding.md R63). -/
theorem Block.readReg_reserved {n : Nat} (h : 10 ≤ n) (b : Block) (v : Word) :
    b.readReg v n = none := by
  have harg : ¬ n < 8 := by omega
  have hcmd : n ≠ 8 := by omega
  have hstatus : n ≠ 9 := by omega
  rw [Block.readReg, dif_neg harg, if_neg hcmd, if_neg hstatus]

theorem hostRead_reserved {n : Nat} (h : 10 ≤ n) (s : State) :
    hostRead n s = .fault (.illegalCommand (.register n)) := by
  rw [hostRead, Block.readReg_reserved h]

/-- Settles O36: `STATUS` and the numbers from 10 up are no register to write, those from 10 up none to
read. -/
theorem reservedRegisterActionsFault : Obligations.ReservedRegisterActionsFault :=
  fun s _ v => ⟨fun h => hostWrite_reserved h.ge v s,
    fun h => hostWrite_reserved (by omega) v s, fun h => hostRead_reserved h s⟩

/-! ### Operand extraction -/

theorem addressOf_eq_mod (p : Params) (w : Word) : addressOf p w = w.toNat % 2 ^ p.aw :=
  BitVec.toNat_setWidth ..

theorem addressOf_lt (p : Params) (w : Word) : addressOf p w < 2 ^ p.aw := BitVec.isLt _

theorem geometryOf_eq_bmod (p : Params) (w : Word) :
    geometryOf p w = Int.bmod w.toNat (2 ^ p.gw) :=
  BitVec.toInt_setWidth _

theorem geometryOf_fits (p : Params) (w : Word) : Fits p.gw (geometryOf p w) :=
  ⟨BitVec.le_toInt _, BitVec.toInt_lt⟩

/-- The bits of a register from `GW` up do not reach a geometry operand (30_encoding.md R59). -/
theorem geometryOf_congr {p : Params} {x w : Word}
    (h : x.toNat % 2 ^ p.gw = w.toNat % 2 ^ p.gw) : geometryOf p x = geometryOf p w := by
  have hlow : x.setWidth p.gw = w.setWidth p.gw :=
    BitVec.eq_of_toNat_eq (by simpa only [BitVec.toNat_setWidth] using h)
  rw [geometryOf, geometryOf, hlow]

/-- Settles O10: an operand is the natural or the integer that the register's low bits spell. -/
theorem operandExtraction : Obligations.OperandExtraction := by
  intro p w _
  refine ⟨⟨addressOf_eq_mod p w, addressOf_lt p w⟩, ⟨geometryOf_eq_bmod p w, geometryOf_fits p w⟩,
    fun x hx => ?_, fun x hx => geometryOf_congr hx, fun b => rfl, fun b => rfl⟩
  rw [addressOf_eq_mod, addressOf_eq_mod, hx]

end Sys2Proof.Machine
end

section
/-!
PROOFS. The statements of 40_clamp.md: the clamp on every integer, the ranges of the three pre-clamp
values, and the width of the clamp unit's port.
-/
namespace Sys2Proof.Machine

/-! ### The clamp on every integer -/

theorem clampInt_of_neg {v : Int} (h : v < 0) : clampInt v = 0 := by
  rw [clampInt, if_neg (by omega), if_pos h]

theorem clampInt_of_gt {v : Int} (h : 255 < v) : clampInt v = 255 := if_pos h

theorem clampInt_of_mem {v : Int} (h0 : 0 ≤ v) (h1 : v ≤ 255) : clampInt v = v := by
  rw [clampInt, if_neg (by omega), if_neg (by omega)]

/-- The two comparisons are a `min` of a `max` (40_clamp.md R73 (g)). -/
theorem clampInt_eq_min_max (v : Int) : clampInt v = min 255 (max 0 v) := by
  rcases Int.lt_or_le v 0 with hneg | h0
  · rw [clampInt_of_neg hneg]; omega
  rcases Int.lt_or_le 255 v with hgt | h1
  · rw [clampInt_of_gt hgt]; omega
  · rw [clampInt_of_mem h0 h1]; omega

/-- The order of the two comparisons does not matter (40_clamp.md R73 (g)). -/
theorem clampInt_eq_max_min (v : Int) : clampInt v = max 0 (min 255 v) := by
  rw [clampInt_eq_min_max]; omega

/-- The clamped integer fits the 8-bit result, so taking its low 8 bits loses nothing. -/
@[simp] theorem toNat_clamp (v : Int) : ((clamp v).toNat : Int) = clampInt v := by
  have hrange : 0 ≤ clampInt v ∧ clampInt v < 256 := by
    rw [clampInt_eq_min_max]; omega
  rw [clamp, BitVec.toNat_ofInt]
  omega

theorem clampInt_mono {a b : Int} (h : a ≤ b) : clampInt a ≤ clampInt b := by
  rw [clampInt_eq_min_max, clampInt_eq_min_max]; omega

/-- Samples lie in [0, 255] (40_clamp.md R75, 10_state.md R27). -/
theorem sample_mem (b : Byte) : 0 ≤ sample b ∧ sample b ≤ 255 := by
  have hlt : b.toNat < 2 ^ 8 := b.isLt
  unfold sample
  omega

/-- The clamp leaves a sample as it is (40_clamp.md R73 (h)). -/
@[simp] theorem clamp_sample (b : Byte) : clamp (sample b) = b := by
  obtain ⟨h0, h1⟩ := sample_mem b
  rw [clamp, clampInt_of_mem h0 h1, sample, BitVec.ofInt_natCast, BitVec.ofNat_toNat,
    BitVec.setWidth_eq]

/-- Settles O7: each clause is one branch of the clamp, read through its 8-bit result. -/
theorem clampTestableProperties : Obligations.ClampTestableProperties := by
  intro v
  have hv := toNat_clamp v
  refine ⟨⟨Nat.zero_le _, Nat.le_of_lt_succ (clamp v).isLt⟩, fun h0 h1 => ?_, fun h => ?_,
    fun h => ?_⟩
  · rw [hv, clampInt_of_mem h0 h1]
  · rw [clampInt_of_neg h] at hv; omega
  · rw [clampInt_of_gt h] at hv; omega

/-- Settles O8: a clamped value is itself a sample; the rest is inherited from `clampInt`. -/
theorem clampMonotoneIdempotentMinMax : Obligations.ClampMonotoneIdempotentMinMax := by
  refine ⟨fun a b h => ?_, fun v => clamp_sample (clamp v), fun v => ?_, clamp_sample⟩
  · have hmono := clampInt_mono h
    rw [← toNat_clamp, ← toNat_clamp] at hmono
    exact Int.ofNat_le.1 hmono
  · exact ⟨(toNat_clamp v).trans (clampInt_eq_min_max v),
      (toNat_clamp v).trans (clampInt_eq_max_min v)⟩

/-! ### The ranges of the pre-clamp values

Each pre-clamp value is monotone in each sample: rising in luma and, for red and blue, in chroma;
falling in both chroma samples for green. So its bounds are its values at the corners. -/

theorem shiftRight_mono {a b : Int} (k : Nat) (h : a ≤ b) : shiftRight a k ≤ shiftRight b k :=
  Int.ediv_le_ediv (by positivity) h

theorem redPre_mono {y v y' v' : Int} (hy : y ≤ y') (hv : v ≤ v') :
    redPre y v ≤ redPre y' v' := by
  have hshift := shiftRight_mono 10 (show 1436 * v ≤ 1436 * v' by omega)
  unfold redPre
  omega

theorem greenPre_mono {y u v y' u' v' : Int} (hy : y ≤ y') (hu : u' ≤ u) (hv : v' ≤ v) :
    greenPre y u v ≤ greenPre y' u' v' := by
  have hshift := shiftRight_mono 17
    (show 46549 * u' + 93604 * v' ≤ 46549 * u + 93604 * v by omega)
  unfold greenPre
  omega

theorem bluePre_mono {y u y' u' : Int} (hy : y ≤ y') (hu : u ≤ u') :
    bluePre y u ≤ bluePre y' u' := by
  have hshift := shiftRight_mono 10 (show 1814 * u ≤ 1814 * u' by omega)
  unfold bluePre
  omega

/-- The bounds of 40_clamp.md R75 are the values at the corners of the sample range. -/
theorem preClamp_corners :
    redPre 0 0 = -179 ∧ redPre 255 255 = 433 ∧ greenPre 0 255 255 = -137 ∧
      greenPre 255 0 0 = 390 ∧ bluePre 0 0 = -227 ∧ bluePre 255 255 = 479 := by decide

theorem redPre_range (y v : Byte) :
    -179 ≤ redPre (sample y) (sample v) ∧ redPre (sample y) (sample v) ≤ 433 := by
  obtain ⟨hlo, hhi, -⟩ := preClamp_corners
  obtain ⟨hy0, hy1⟩ := sample_mem y
  obtain ⟨hv0, hv1⟩ := sample_mem v
  exact ⟨hlo ▸ redPre_mono hy0 hv0, hhi ▸ redPre_mono hy1 hv1⟩

theorem greenPre_range (y u v : Byte) :
    -137 ≤ greenPre (sample y) (sample u) (sample v) ∧
      greenPre (sample y) (sample u) (sample v) ≤ 390 := by
  obtain ⟨-, -, hlo, hhi, -⟩ := preClamp_corners
  obtain ⟨hy0, hy1⟩ := sample_mem y
  obtain ⟨hu0, hu1⟩ := sample_mem u
  obtain ⟨hv0, hv1⟩ := sample_mem v
  exact ⟨hlo ▸ greenPre_mono hy0 hu1 hv1, hhi ▸ greenPre_mono hy1 hu0 hv0⟩

theorem bluePre_range (y u : Byte) :
    -227 ≤ bluePre (sample y) (sample u) ∧ bluePre (sample y) (sample u) ≤ 479 := by
  obtain ⟨-, -, -, -, hlo, hhi⟩ := preClamp_corners
  obtain ⟨hy0, hy1⟩ := sample_mem y
  obtain ⟨hu0, hu1⟩ := sample_mem u
  exact ⟨hlo ▸ bluePre_mono hy0 hu0, hhi ▸ bluePre_mono hy1 hu1⟩

/-! ### The clamp unit's port -/

theorem fits_of_tenBits {cw : Nat} (hcw : 10 ≤ cw) {v : Int} (hlo : -512 ≤ v) (hhi : v ≤ 511) :
    Fits cw v := by
  have hpow : (2 : Int) ^ 9 ≤ 2 ^ (cw - 1) := pow_le_pow_right₀ (by decide) (by omega)
  exact ⟨by omega, by omega⟩

/-- Narrowing a value in [-512, 511] to a port of 10 bits or more is lossless (40_clamp.md R75). -/
theorem clampUnit_ofInt {cw : Nat} (hcw : 10 ≤ cw) {v : Int} (hlo : -512 ≤ v) (hhi : v ≤ 511) :
    clampUnit cw (BitVec.ofInt cw v) = clamp v := by
  obtain ⟨hmin, hmax⟩ := fits_of_tenBits hcw hlo hhi
  rw [clampUnit, BitVec.toInt_ofInt_eq_self (by omega) hmin hmax]

/-- Settles O9: all three ranges lie inside [-512, 511], so the port's width does not matter. -/
theorem clampPortOfTenBitsSuffices : Obligations.ClampPortOfTenBitsSuffices := by
  refine ⟨fun y u v => ⟨redPre_range y v, greenPre_range y u v, bluePre_range y u⟩,
    preClamp_corners, fun cw y u v hcw => ?_, sample_mem⟩
  have hr := redPre_range y v
  have hg := greenPre_range y u v
  have hb := bluePre_range y u
  exact ⟨clampUnit_ofInt hcw (by omega) (by omega), clampUnit_ofInt hcw (by omega) (by omega),
    clampUnit_ofInt hcw (by omega) (by omega)⟩

end Sys2Proof.Machine
end

section
/-!
PROOFS. The statements of 41_yuv420_to_rgb.md: what the chroma pair contributes, the non-positive
dimension at START, and the pixel step.
-/
namespace Sys2Proof.Machine

/-! ### The chroma deltas (41_yuv420_to_rgb.md R94) -/

theorem redPre_eq_add_delta (y v : Int) : redPre y v = y + deltaRed v := by
  unfold redPre deltaRed; omega

theorem greenPre_eq_add_delta (y u v : Int) : greenPre y u v = y + deltaGreen u v := by
  unfold greenPre deltaGreen; omega

theorem bluePre_eq_add_delta (y u : Int) : bluePre y u = y + deltaBlue u := by
  unfold bluePre deltaBlue; omega

theorem red_eq_clamp_delta (y v : Byte) : red y v = clamp (sample y + deltaRed (sample v)) := by
  rw [red, redPre_eq_add_delta]

theorem green_eq_clamp_delta (y u v : Byte) :
    green y u v = clamp (sample y + deltaGreen (sample u) (sample v)) := by
  rw [green, greenPre_eq_add_delta]

theorem blue_eq_clamp_delta (y u : Byte) : blue y u = clamp (sample y + deltaBlue (sample u)) := by
  rw [blue, bluePre_eq_add_delta]

/-- The bounds of R94 are the deltas at the ends of the sample range. -/
theorem delta_corners :
    deltaRed 0 = -179 ∧ deltaRed 255 = 178 ∧ deltaGreen 255 255 = -137 ∧ deltaGreen 0 0 = 135 ∧
      deltaBlue 0 = -227 ∧ deltaBlue 255 = 224 := by decide

theorem deltaRed_mono {v v' : Int} (h : v ≤ v') : deltaRed v ≤ deltaRed v' := by
  have hpre := redPre_mono (le_refl 0) h
  simpa only [redPre_eq_add_delta, zero_add] using hpre

theorem deltaGreen_anti {u v u' v' : Int} (hu : u' ≤ u) (hv : v' ≤ v) :
    deltaGreen u v ≤ deltaGreen u' v' := by
  have hpre := greenPre_mono (le_refl 0) hu hv
  simpa only [greenPre_eq_add_delta, zero_add] using hpre

theorem deltaBlue_mono {u u' : Int} (h : u ≤ u') : deltaBlue u ≤ deltaBlue u' := by
  have hpre := bluePre_mono (le_refl 0) h
  simpa only [bluePre_eq_add_delta, zero_add] using hpre

theorem delta_range (u v : Byte) :
    (-179 ≤ deltaRed (sample v) ∧ deltaRed (sample v) ≤ 178) ∧
      (-137 ≤ deltaGreen (sample u) (sample v) ∧ deltaGreen (sample u) (sample v) ≤ 135) ∧
      (-227 ≤ deltaBlue (sample u) ∧ deltaBlue (sample u) ≤ 224) := by
  obtain ⟨hr0, hr1, hg0, hg1, hb0, hb1⟩ := delta_corners
  obtain ⟨hu0, hu1⟩ := sample_mem u
  obtain ⟨hv0, hv1⟩ := sample_mem v
  exact ⟨⟨hr0 ▸ deltaRed_mono hv0, hr1 ▸ deltaRed_mono hv1⟩,
    ⟨hg0 ▸ deltaGreen_anti hu1 hv1, hg1 ▸ deltaGreen_anti hu0 hv0⟩,
    ⟨hb0 ▸ deltaBlue_mono hu0, hb1 ▸ deltaBlue_mono hu1⟩⟩

theorem delta_neutral : deltaRed 128 = 0 ∧ deltaGreen 128 128 = -1 ∧ deltaBlue 128 = -1 := by decide

/-- Neutral chroma makes a pixel grey, up to 1 in green and blue. -/
theorem rgb_neutral (y : Byte) :
    red y 128 = y ∧ green y 128 128 = clamp (sample y - 1) ∧ blue y 128 = clamp (sample y - 1) := by
  obtain ⟨hr, hg, hb⟩ := delta_neutral
  have hneutral : sample 128 = 128 := rfl
  rw [red_eq_clamp_delta, green_eq_clamp_delta, blue_eq_clamp_delta, hneutral, hr, hg, hb, add_zero]
  exact ⟨clamp_sample y, rfl, rfl⟩

/-- The chroma index sees the column and the row through their halves only (R83). -/
theorem YuvOperands.ci_congr (o : YuvOperands) {i j i' j' : Nat} (hi : i / 2 = i' / 2)
    (hj : j / 2 = j' / 2) : o.ci i j = o.ci i' j' := by
  rw [YuvOperands.ci, YuvOperands.ci, hi, hj]

/-- Settles O11: each pre-clamp value is luma plus a delta, and the deltas are monotone, so their bounds
are their values at the ends of the sample range. -/
theorem chromaDeltas : Obligations.ChromaDeltas := by
  refine ⟨fun y u v => ⟨red_eq_clamp_delta y v, green_eq_clamp_delta y u v, blue_eq_clamp_delta y u⟩,
    delta_range, delta_neutral, rgb_neutral, fun o i j i' j' hi hj => ?_⟩
  simp only [YuvOperands.chromaU, YuvOperands.chromaV, o.ci_congr hi hj, and_self]

/-! ### A non-positive dimension at START (41_yuv420_to_rgb.md R99) -/

/-- Presented to an idle instance, the instruction stops with the fault that START's checks find. -/
theorem exec_yuv_of_startFault {s : State} {f : Fault} (hb : s.block.busy = false)
    (hf : yuvStartFault? s.params s.block = some f) : exec .yuv420ToRgb s = .fault f := by
  simp only [exec, execYuv420ToRgb, hb, Bool.false_eq_true, if_false, yuvStart, hf]

/-- With every operand written, the geometry is the first thing START finds at fault. -/
theorem yuvStartFault?_of_badGeometry {p : Params} {b : Block} {f : Fault}
    (hw : ∀ n : Fin 8, b.written[n] = true) (hf : (b.yuvOperands p).badGeometry? p = some f) :
    yuvStartFault? p b = some f := by
  have hwritten : b.unwritten? .yuv420ToRgb = none := Block.unwritten?_eq_none.2 fun n _ => hw n
  simp only [yuvStartFault?, hwritten, hf, Option.none_or, Option.some_or]

theorem YuvOperands.badGeometry?_width {p : Params} {o : YuvOperands} (h : o.width < 1) :
    o.badGeometry? p = some (.badGeometry .yuv420ToRgb .width) := if_pos h

theorem YuvOperands.badGeometry?_height {p : Params} {o : YuvOperands} (hw : 1 ≤ o.width)
    (h : o.height < 1) : o.badGeometry? p = some (.badGeometry .yuv420ToRgb .height) := by
  rw [YuvOperands.badGeometry?, if_neg (not_lt.2 hw), if_pos h]

/-- Settles O17: `WIDTH` is named where it is not positive; else `HEIGHT`, which then is not. -/
theorem nonPositiveDimensionFaultsAtStart : Obligations.NonPositiveDimensionFaultsAtStart := by
  intro s hb hw hdim
  have hstop : ∀ f, (s.block.yuvOperands s.params).badGeometry? s.params = some f →
      exec .yuv420ToRgb s = .fault f := fun _ hf =>
    exec_yuv_of_startFault hb (yuvStartFault?_of_badGeometry hw hf)
  rcases Int.lt_or_le (s.block.yuvOperands s.params).width 1 with hwidth | hwidth
  · exact ⟨.width, .inl ⟨rfl, by omega⟩, hstop _ (YuvOperands.badGeometry?_width hwidth)⟩
  · have hheight : (s.block.yuvOperands s.params).height ≤ 0 := by omega
    exact ⟨.height, .inr ⟨rfl, hheight⟩,
      hstop _ (YuvOperands.badGeometry?_height hwidth (by omega))⟩

/-! ### The pixel step (41_yuv420_to_rgb.md R90, R91) -/

/-- The engine's turn on a pixel of the image, with permission for its six accesses. -/
theorem exec_yuv_pixel {s : State} (hb : s.block.busy = true)
    (hc : s.block.cmd = encode .yuv420ToRgb)
    (hi : (s.block.seqI : Int) < (s.block.yuvOperands s.params).width)
    (hok : s.YuvPixelOk (s.block.yuvOperands s.params) s.block.seqI s.block.seqJ) :
    exec .yuv420ToRgb s = .next (s.yuvPixelDone (s.block.yuvOperands s.params)) := by
  have hpixel := yuvPixel_eq.2 ⟨hok, rfl⟩
  simp only [exec, execYuv420ToRgb, hb, hc, if_true, yuvEngine, if_pos hi]
  exact outcomeOf_eq_next.2 hpixel

/-- The sequencer advance changes two counters: the next row, or the top of the next column (R91). -/
theorem Block.advanceYuv_eq (b : Block) (h : Int) : b.advanceYuv h = { b with
    seqJ := if (b.seqJ : Int) + 1 < h then b.seqJ + 1 else 0
    seqI := if (b.seqJ : Int) + 1 < h then b.seqI else b.seqI + 1 } := by
  unfold Block.advanceYuv
  split <;> rfl

/-- Settles O18: the step's result is the model's pixel step, whose three bytes and addresses are the
spec's formulas as written, with the advance spelled out. -/
theorem yuvPixelStep : Obligations.YuvPixelStep := by
  intro s hb hc o i j ci out y u v hi hy hu hv hr hg hbl
  have hok : s.YuvPixelOk o i j := ⟨⟨hy, hu, hv⟩, hr, hg, hbl⟩
  rw [exec_yuv_pixel hb (hc.trans encode_yuv.symm) hi hok, State.yuvPixelDone, Block.advanceYuv_eq]
  rfl

end Sys2Proof.Machine
end

section
/-!
PROOFS. The statement of 42_bgra_to_rgb.md: the pixel step.
-/
namespace Sys2Proof.Machine

/-- The engine's turn on a pixel of the image, with permission for its seven accesses (R108). -/
theorem exec_bgra_pixel {s : State} (hb : s.block.busy = true)
    (hc : s.block.cmd = encode .bgraToRgb)
    (hr : (s.block.seqR : Int) < (s.block.bgraOperands s.params).height)
    (hok : s.BgraPixelOk (s.block.bgraOperands s.params) s.block.seqR s.block.seqC) :
    exec .bgraToRgb s = .next (s.bgraPixelDone (s.block.bgraOperands s.params)) := by
  have hpixel := bgraPixel_eq.2 ⟨hok, rfl⟩
  simp only [exec, execBgraToRgb, hb, hc, if_true, bgraEngine, if_pos hr]
  exact outcomeOf_eq_next.2 hpixel

/-- The sequencer advance moves the output pointer by 3 and goes to the next column, or to the start of
the next row (R109). -/
theorem Block.advanceBgra_eq (b : Block) (w : Int) : b.advanceBgra w = { b with
    seqOptr := b.seqOptr + 3
    seqC := if (b.seqC : Int) + 1 < w then b.seqC + 1 else 0
    seqR := if (b.seqC : Int) + 1 < w then b.seqR else b.seqR + 1 } := by
  unfold Block.advanceBgra
  split <;> rfl

/-- Settles O23: the step's result is the model's pixel step, whose lanes are the spec's addresses as
written (R104) and whose stores are lanes 2, 1, 0 (R106), with the advance spelled out. -/
theorem bgraPixelStep : Obligations.BgraPixelStep := by
  intro s hb hc o r c p out hr hblue hgreen hred halpha hw0 hw1 hw2
  have hok : s.BgraPixelOk o r c := ⟨⟨hblue, hgreen, hred, halpha⟩, hw0, hw1, hw2⟩
  rw [exec_bgra_pixel hb (hc.trans encode_bgra.symm) hr hok, State.bgraPixelDone,
    Block.advanceBgra_eq]
  rfl

end Sys2Proof.Machine
end

section
/-!
PROOFS. The statement of 43_host_interface.md: the operand write.
-/
namespace Sys2Proof.Machine

/-- An operand write to an instance that is not BUSY (43_host_interface.md R116). -/
theorem hostWrite_arg {s : State} (hb : s.block.busy = false) (n : Fin 8) (v : Word) :
    hostWrite n v s = .next (s.withBlock (s.block.writeArg n v)) := by
  have hidle : ¬ (s.block.busy = true ∧ n.val ≤ 8) := by simp [hb]
  rw [hostWrite, if_neg hidle, dif_pos n.isLt]

/-- A write to any writable register of a BUSY instance (20_memory.md R50, 60_exceptions.md R137). -/
theorem hostWrite_of_busy {s : State} (hb : s.block.busy = true) {n : Nat} (hn : n ≤ 8) (v : Word) :
    hostWrite n v s = .fault (.hostWriteWhileBusy n v) := by
  rw [hostWrite, if_pos ⟨hb, hn⟩]

/-- An operand register that has been written reads as the value it holds. -/
theorem Block.readReg_written {b : Block} {n : Fin 8} (h : b.written[n] = true) (v : Word) :
    b.readReg v n = some b.arg[n] := by
  have hw : b.written[n.val] = true := h
  rw [Block.readReg, dif_pos n.isLt, if_pos hw]; rfl

/-- A host read of a written operand register (43_host_interface.md R115). -/
theorem hostRead_written {s : State} {n : Fin 8} (h : s.block.written[n] = true) :
    hostRead n s = .next ({ s with free := s.free + 1 }.returns s.block.arg[n]) := by
  have hstatus : n.val ≠ 9 := by omega
  simp only [hostRead, Block.readReg_written h, if_neg hstatus]

theorem Block.writeArg_written_self (b : Block) (n : Fin 8) (v : Word) :
    (b.writeArg n v).written[n] = true := by simp [Block.writeArg]

/-- What is read back is what was written. -/
theorem hostRead_writeArg (s : State) (n : Fin 8) (v : Word) :
    hostRead n (s.withBlock (s.block.writeArg n v)) =
      .next ({ s.withBlock (s.block.writeArg n v) with free := s.free + 1 }.returns v) := by
  have hread := hostRead_written (s := s.withBlock (s.block.writeArg n v))
    (s.block.writeArg_written_self n v)
  rw [hread, State.withBlock_block, Block.writeArg_arg_self]; rfl

/-- Settles O35: not BUSY, the write is `writeArg` and the register then reads as written; BUSY, it
stops before any register changes. -/
theorem operandWrite : Obligations.OperandWrite :=
  fun s n v => ⟨fun hb => ⟨hostWrite_arg hb n v, hostRead_writeArg s n v⟩,
    fun hb => hostWrite_of_busy hb (by omega) v⟩

end Sys2Proof.Machine
end

section
/-!
PROOFS. What every step keeps of memory, the parameters and the other instances (10_state.md R26,
R29, 60_exceptions.md R141).
-/
namespace Sys2Proof.Machine

/-! ### Memory, whatever the step -/

/-- An action on the acting instance leaves memory as it was, or packs one pixel with permission. -/
theorem Acts.mem {s t : State} (h : Acts s t) :
    t.mem = s.mem ∨ ∃ (a : Nat) (r g b : Byte), s.block.busy = true ∧
      t.mem = (s.packed a r g b).mem ∧
      s.WriteOk (a : Int) ∧ s.WriteOk ((a : Int) + 1) ∧ s.WriteOk ((a : Int) + 2) := by
  cases h with
  | runs i _ h => exact exec_mem h
  | writes n v _ => exact .inl rfl
  | observes => exact .inl rfl

/-- What every write of an existing byte keeps of memory, every step but a reset keeps. -/
theorem step_mem_induct {P : Memory → Prop} {s t : State} (h : step s = .next t)
    (hr : ¬ s.ResetNext) (h0 : P s.mem)
    (hw : ∀ m (a : Nat) v, Params.InSpace s.params a → P m → P (Memory.write m a v)) : P t.mem := by
  rcases step_cases h hr with ⟨k, u, _, _, ha, rfl⟩ | ⟨a, v, _, hin, _, rfl⟩ | ⟨_, _, _, _, rfl⟩
  · rw [State.focus_mem]
    rcases ha.mem with hm | ⟨a, r, g, b, _, hm, w0, w1, w2⟩
    · rw [hm, State.focus_mem]; exact h0
    · have h1 := w1.1
      have h2 := w2.1
      rw [State.focus_params] at h1 h2
      rw [hm, State.packed, State.focus_mem]
      refine hw _ _ _ (by exact_mod_cast h2) (hw _ _ _ (by exact_mod_cast h1) (hw _ _ _ ?_ h0))
      simpa only [State.focus_params] using w0.1
  · exact hw _ _ _ hin h0
  · exact h0

/-- What spoiling the output set of a running operation keeps of memory, a reset keeps. -/
theorem State.platformReset_mem_induct {P : Memory → Prop} (s : State) (h0 : P s.mem)
    (hsp : ∀ m k, ∀ b ∈ s.block :: s.peers, ∀ f, b.footprint? s.params = some f → P m →
      P (Memory.spoil m f.outBase k f.outLen)) : P s.platformReset.mem := by
  have hfold : ((s.block :: s.peers).foldl State.spoilOutput s).params = s.params ∧
      P ((s.block :: s.peers).foldl State.spoilOutput s).mem := by
    refine State.foldl_spoilOutput_induct (P := fun t => t.params = s.params ∧ P t.mem)
      ⟨rfl, h0⟩ fun t b hb ht => ⟨by rw [State.spoilOutput_params, ht.1], ?_⟩
    unfold State.spoilOutput
    split
    · exact ht.2
    · next f hf => exact hsp _ _ b hb f (ht.1 ▸ hf) ht.2
  exact hfold.2

/-- Settles O50: a step stores bytes one by one, a reset spoils bytes one by one, and each store
keeps the canonical form. -/
theorem stepKeepsMemoryCanonical : Obligations.StepKeepsMemoryCanonical := by
  intro s t hwf h
  by_cases hr : s.ResetNext
  · obtain rfl := Host.Outcome.next.inj ((step_of_reset hr).symm.trans h)
    exact State.platformReset_mem_induct _ hwf fun m k b _ f _ hm => Memory.wf_spoil hm _ _ _
  · exact step_mem_induct h hr hwf fun m a v _ hm => Memory.wf_write hm a v

/-! ### Parameters and instances -/

/-- Settles O51: an action on one instance brings it into place and back, which keeps the number of
instances, and nothing writes the parameters. -/
theorem stepKeepsParameters : Obligations.StepKeepsParameters := by
  intro s t h
  by_cases hr : s.ResetNext
  · obtain rfl := Host.Outcome.next.inj ((step_of_reset hr).symm.trans h)
    obtain ⟨hp, -, -, -, hlen⟩ := State.platformReset_shape { s with events := s.events.tail }
    exact ⟨hp, hlen⟩
  · rcases step_cases h hr with ⟨k, u, _, _, ha, rfl⟩ | ⟨a, v, _, _, _, rfl⟩ | ⟨_, _, _, _, rfl⟩
    · obtain ⟨hp, hpeers, -, -⟩ := ha.shape
      exact ⟨by rw [State.focus_params, hp, State.focus_params],
        by rw [State.focus_peers_length, hpeers, State.focus_peers_length]⟩
    · exact ⟨rfl, rfl⟩
    · exact ⟨rfl, rfl⟩

/-- A step that is no reset leaves every instance it does not act on as it was. -/
theorem step_blockAt_of_not_acting {s t : State} (hs : s.sel = 0) (h : step s = .next t)
    (hr : ¬ s.ResetNext) {n : Nat} (hn : s.acting ≠ some n) : t.blockAt n = s.blockAt n := by
  rcases hb : s.blockAt n with _ | b
  · have hlen := (stepKeepsParameters s t h).2
    rw [State.blockAt, List.getElem?_eq_none_iff] at hb ⊢
    simpa [hlen] using hb
  · rcases step_at hs h hr hb with ⟨_, hact, _⟩ | ⟨_, ht⟩
    · exact absurd hact hn
    · exact ht

/-- Settles O52: an instance the step does not act on stands where it stood. -/
theorem instancesShareOnlyMemory : Obligations.InstancesShareOnlyMemory := by
  intro s t hs h hr
  refine ⟨fun h0 => ?_, fun n hn => ?_⟩
  · simpa [State.blockAt] using step_blockAt_of_not_acting hs h hr h0
  · simpa [State.blockAt] using step_blockAt_of_not_acting hs h hr hn

end Sys2Proof.Machine
end

section
/-!
PROOFS. The image of an operation, for both instructions alike: its pixels, what each reads, where
its bytes go and what the closed form puts there (41_yuv420_to_rgb.md R82 to R85, R93,
42_bgra_to_rgb.md R104 to R106, R111).
-/
namespace Sys2Proof.Machine

/-! ### Row-major order -/

/-- In row-major order an earlier row comes first. -/
theorem row_major_lt {w : Int} {a b a' b' : Nat} (ha : a < a') (hb : (b : Int) < w) :
    (a : Int) * w + b < a' * w + b' := by
  have hrow : ((a : Int) + 1) * w ≤ a' * w :=
    mul_le_mul_of_nonneg_right (by omega) (by omega)
  rw [add_mul, one_mul] at hrow
  omega

theorem row_major_inj {w : Int} {a b a' b' : Nat} (hb : (b : Int) < w) (hb' : (b' : Int) < w)
    (h : (a : Int) * w + b = a' * w + b') : a = a' ∧ b = b' := by
  rcases Nat.lt_trichotomy a a' with hlt | rfl | hgt
  · have := row_major_lt (b' := b') hlt hb; omega
  · exact ⟨rfl, by omega⟩
  · have := row_major_lt (b' := b) hgt hb'; omega

/-! ### The pixels of an operation -/

/-- Pixel `(x, y)` is one of the image, in the engine's order: column and row for `YUV420_TO_RGB`
(R79), row and column for `BGRA_TO_RGB` (R103). -/
def Operation.HasPixel : Operation → Nat → Nat → Prop
  | .yuv o, x, y => o.HasPixel x y
  | .bgra o, x, y => (x : Int) < o.height ∧ (y : Int) < o.width

/-- Read `n` of a pixel, in the engine's order (R85, R108). -/
def Operation.touch : Operation → Nat → Nat → Nat → Touch
  | .yuv o, x, y, n => o.touch x y n
  | .bgra o, x, y, n => o.lane x y n

/-- How many bytes a pixel reads (R85, R108). -/
def readCount : Instr → Nat
  | .yuv420ToRgb => 3
  | .bgraToRgb => 4

/-- The address of the R byte of a pixel (R84, R105). -/
def Operation.outAddr : Operation → Nat → Nat → Int
  | .yuv o, x, y => o.outAddr x y
  | .bgra o, x, y => o.outAddr x y

/-- Byte `k` of a pixel by the closed form (R93, R111). -/
def Operation.closedForm : Operation → Memory → Nat → Nat → Nat → Byte
  | .yuv o, m, x, y, k => o.closedForm m x y k
  | .bgra o, m, x, y, k => o.closedForm m x y k

theorem Operation.outAddr_nonneg {op : Operation} {x y : Nat} (h : op.HasPixel x y) :
    0 ≤ op.outAddr x y := by
  cases op with
  | yuv o =>
    obtain ⟨hx, hy⟩ := h
    have hrow : 0 ≤ (y : Int) * o.width := mul_nonneg (by omega) (by omega)
    simp only [Operation.outAddr, YuvOperands.outAddr, YuvOperands.oi]
    omega
  | bgra o =>
    obtain ⟨hx, hy⟩ := h
    have hrow : 0 ≤ (x : Int) * o.width := mul_nonneg (by omega) (by omega)
    simp only [Operation.outAddr, BgraOperands.outAddr]
    omega

/-- Two pixels share no output byte (R84, R105). -/
theorem Operation.outAddr_inj {op : Operation} {x y x' y' k k' : Nat} (h : op.HasPixel x y)
    (h' : op.HasPixel x' y') (hk : k < 3) (hk' : k' < 3)
    (e : op.outAddr x y + k = op.outAddr x' y' + k') : x = x' ∧ y = y' ∧ k = k' := by
  cases op with
  | yuv o =>
    simp only [Operation.outAddr, YuvOperands.outAddr, YuvOperands.oi] at e
    have hindex : (y : Int) * o.width + x = y' * o.width + x' := by omega
    obtain ⟨hy, hx⟩ := row_major_inj h.1 h'.1 hindex
    subst hx hy
    exact ⟨rfl, rfl, by omega⟩
  | bgra o =>
    simp only [Operation.outAddr, BgraOperands.outAddr] at e
    have hindex : (x : Int) * o.width + y = x' * o.width + y' := by omega
    obtain ⟨hx, hy⟩ := row_major_inj h.2 h'.2 hindex
    subst hx hy
    exact ⟨rfl, rfl, by omega⟩

/-- The bytes of a pixel are output bytes of the operation (10_state.md R28). -/
theorem Operation.hasOutput_outAddr {op : Operation} {x y k : Nat} (h : op.HasPixel x y)
    (hk : k < 3) : op.footprint.HasOutput (op.outAddr x y + k) := by
  cases op with
  | yuv o => exact YuvOperands.hasOutput_outAddr h hk
  | bgra o =>
    obtain ⟨hx, hy⟩ := h
    have := pixel_index_lt (by omega : (0 : Int) ≤ y) hy (by omega : (0 : Int) ≤ x) hx
    unfold Footprint.HasOutput Operation.footprint BgraOperands.footprint Operation.outAddr
      BgraOperands.outAddr
    push_cast
    rw [Int.toNat_of_nonneg (by omega), Int.toNat_of_nonneg (by omega), mul_assoc]
    omega

/-- The reads of a pixel are reads of the operation (10_state.md R28). -/
theorem Operation.touch_mem_reads {p : Params} {b : Block} {i : Instr} {x y n : Nat}
    (h : (b.operationOf p i).HasPixel x y) (hn : n < readCount i) :
    (b.operationOf p i).touch x y n ∈ (b.footprintOf p i).reads := by
  cases i with
  | yuv420ToRgb =>
    obtain ⟨hy, hu, hv⟩ := YuvOperands.mem_reads h
    obtain rfl | rfl | rfl : n = 0 ∨ n = 1 ∨ n = 2 := by simp only [readCount] at hn; omega
    · exact hy
    · exact hu
    · exact hv
  | bgraToRgb => exact BgraOperands.mem_reads h.1 h.2 hn

/-- The closed form looks at the input bytes of its pixel alone (R93, R111). -/
theorem Operation.closedForm_congr {p : Params} {b : Block} {i : Instr} {m m0 : Memory}
    {x y k : Nat} (hk : k < 3)
    (h : ∀ n < readCount i, Memory.read m ((b.operationOf p i).touch x y n).addr.toNat =
      Memory.read m0 ((b.operationOf p i).touch x y n).addr.toNat) :
    (b.operationOf p i).closedForm m x y k = (b.operationOf p i).closedForm m0 x y k := by
  cases i with
  | yuv420ToRgb =>
    have hy := h 0 (by decide)
    have hu := h 1 (by decide)
    have hv := h 2 (by decide)
    simp only [Block.operationOf, Operation.touch, YuvOperands.touch_zero, YuvOperands.touch_one,
      YuvOperands.touch_two] at hy hu hv
    simp only [Block.operationOf, Operation.closedForm, YuvOperands.closedForm, hy, hu, hv]
  | bgraToRgb => exact h (2 - k) (by simp only [readCount]; omega)

/-- Settles O12: an output byte's distance from the base, by 3 and then by the width, gives its
channel, its column and its row; two pixels share no byte. -/
theorem yuvEveryOutputByteExactlyOnce : Obligations.YuvEveryOutputByteExactlyOnce := by
  intro o a hw hh ⟨hlo, hhi⟩
  obtain ⟨n, rfl⟩ : ∃ n : Nat, a = o.rgbBase + n := ⟨(a - o.rgbBase).toNat, by
    simp only [YuvOperands.footprint] at hlo; omega⟩
  have hn : n < 3 * (o.width.toNat * o.height.toNat) := by
    simp only [YuvOperands.footprint, mul_assoc] at hhi; omega
  have hrow : n / 3 / o.width.toNat < o.height.toNat := Nat.div_lt_of_lt_mul (by omega)
  have hcol : n / 3 % o.width.toNat < o.width.toNat := Nat.mod_lt _ (by omega)
  have hindex : o.oi (n / 3 % o.width.toNat) (n / 3 / o.width.toNat) = (n / 3 : Nat) := by
    have hdiv := Nat.div_add_mod (n / 3) o.width.toNat
    rw [mul_comm] at hdiv
    rw [YuvOperands.oi]
    conv_rhs => rw [← hdiv]
    push_cast
    rw [Int.toNat_of_nonneg (by omega)]
  have haddr : (o.rgbBase : Int) + n =
      o.outAddr (n / 3 % o.width.toNat) (n / 3 / o.width.toNat) + (n % 3 : Nat) := by
    rw [YuvOperands.outAddr, hindex]; omega
  have hpix : o.HasPixel (n / 3 % o.width.toNat) (n / 3 / o.width.toNat) := ⟨by omega, by omega⟩
  refine ⟨(n / 3 % o.width.toNat, n / 3 / o.width.toNat, n % 3),
    ⟨hpix, Nat.mod_lt _ (by decide), haddr⟩, ?_⟩
  rintro ⟨i, j, k⟩ ⟨hij, hk, hijk⟩
  obtain ⟨rfl, rfl, rfl⟩ := Operation.outAddr_inj (op := .yuv o) hij hpix hk
    (Nat.mod_lt n (by decide)) (hijk.symm.trans haddr)
  rfl

end Sys2Proof.Machine
end

section
/-!
PROOFS. The sequencer and the instruction's step, for both instructions alike: what START, a pixel
step and the finish step are, what they keep of a block, and the invariant of a block (10_state.md
R20, 41_yuv420_to_rgb.md R90 to R92, 42_bgra_to_rgb.md R108 to R110, 43_host_interface.md R117).
-/
namespace Sys2Proof.Machine

/-! ### The sequencer -/

/-- The sequencer's pixel, outer counter then inner (R20). -/
def Block.seqOuter (b : Block) : Instr → Nat
  | .yuv420ToRgb => b.seqI
  | .bgraToRgb => b.seqR

def Block.seqInner (b : Block) : Instr → Nat
  | .yuv420ToRgb => b.seqJ
  | .bgraToRgb => b.seqC

/-- The bounds of the two counters (R91, R109). -/
def Operation.outer : Operation → Int
  | .yuv o => o.width
  | .bgra o => o.height

def Operation.inner : Operation → Int
  | .yuv o => o.height
  | .bgra o => o.width

/-- A pixel step is enabled, rather than the finish step (R90, R108). -/
abbrev Block.PixelLeft (p : Params) (b : Block) (i : Instr) : Prop :=
  (b.seqOuter i : Int) < (b.operationOf p i).outer

/-- The address of the next R byte (R84, R105). -/
def Block.outAt (p : Params) (b : Block) : Instr → Int
  | .yuv420ToRgb => (b.yuvOperands p).outAddr b.seqI b.seqJ
  | .bgraToRgb => b.seqOptr

/-- The sequencer advance (R91, R109). -/
def Block.advance (p : Params) (b : Block) : Instr → Block
  | .yuv420ToRgb => b.advanceYuv (b.yuvOperands p).height
  | .bgraToRgb => b.advanceBgra (b.bgraOperands p).width

/-- What START leaves of the instance (R117). -/
def Block.started (p : Params) (b : Block) : Instr → Block
  | .yuv420ToRgb => b.startedYuv
  | .bgraToRgb => b.startedBgra p

/-- The sequencer of a running operation is in range (R20). -/
def Block.Sequencer (p : Params) (b : Block) : Instr → Prop
  | .yuv420ToRgb => b.YuvSequencer p
  | .bgraToRgb => b.BgraSequencer p

/-- What `Block.Inv` says of a running operation: the contract as far as its operands decide it,
and the sequencer in range. -/
abbrev Block.InContract (p : Params) (b : Block) (i : Instr) : Prop :=
  Contract p b i ∧ b.Sequencer p i

section advance
variable (p : Params) (b : Block) (i : Instr)
@[simp] theorem Block.advance_arg : (b.advance p i).arg = b.arg := by
  cases i <;> simp [Block.advance]
@[simp] theorem Block.advance_written : (b.advance p i).written = b.written := by
  cases i <;> simp [Block.advance]
@[simp] theorem Block.advance_cmd : (b.advance p i).cmd = b.cmd := by
  cases i <;> simp [Block.advance]
@[simp] theorem Block.advance_status : (b.advance p i).status = b.status := by
  cases i <;> simp [Block.advance]
@[simp] theorem Block.advance_busy : (b.advance p i).busy = b.busy := by
  cases i <;> simp [Block.advance]
@[simp] theorem Block.advance_done : (b.advance p i).done = b.done := by
  cases i <;> simp [Block.advance]
@[simp] theorem Block.started_arg : (b.started p i).arg = b.arg := by cases i <;> rfl
@[simp] theorem Block.started_written : (b.started p i).written = b.written := by cases i <;> rfl
@[simp] theorem Block.started_cmd : (b.started p i).cmd = encode i := by cases i <;> rfl
@[simp] theorem Block.started_status : (b.started p i).status = statusWord true false := by
  cases i <;> rfl
@[simp] theorem Block.started_busy : (b.started p i).busy = true := by
  cases i <;> exact statusWord_busy true false
@[simp] theorem Block.started_done : (b.started p i).done = false := by
  cases i <;> exact statusWord_done true false
@[simp] theorem Block.started_seqOuter : (b.started p i).seqOuter i = 0 := by cases i <;> rfl
@[simp] theorem Block.started_seqInner : (b.started p i).seqInner i = 0 := by cases i <;> rfl
end advance

/-- The inner counter goes up, or starts again with the outer one up (R91, R109). -/
theorem Block.advance_seq (p : Params) (b : Block) (i : Instr) :
    ((b.seqInner i : Int) + 1 < (b.operationOf p i).inner ∧
      (b.advance p i).seqOuter i = b.seqOuter i ∧ (b.advance p i).seqInner i = b.seqInner i + 1) ∨
    ((b.operationOf p i).inner ≤ (b.seqInner i : Int) + 1 ∧
      (b.advance p i).seqOuter i = b.seqOuter i + 1 ∧ (b.advance p i).seqInner i = 0) := by
  cases i with
  | yuv420ToRgb =>
    simp only [Block.seqInner, Block.seqOuter, Block.operationOf, Operation.inner, Block.advance,
      Block.advanceYuv]
    split
    · next h => exact .inl ⟨h, rfl, rfl⟩
    · next h => exact .inr ⟨not_lt.1 h, rfl, rfl⟩
  | bgraToRgb =>
    simp only [Block.seqInner, Block.seqOuter, Block.operationOf, Operation.inner, Block.advance,
      Block.advanceBgra]
    split
    · next h => exact .inl ⟨h, rfl, rfl⟩
    · next h => exact .inr ⟨not_lt.1 h, rfl, rfl⟩

/-! ### What depends on the operand registers alone -/

section congr
variable {p : Params} {b b' : Block} {i : Instr}

theorem Block.yuvOperands_congr (h : b'.arg = b.arg) : b'.yuvOperands p = b.yuvOperands p := by
  simp only [Block.yuvOperands, h]

theorem Block.bgraOperands_congr (h : b'.arg = b.arg) : b'.bgraOperands p = b.bgraOperands p := by
  simp only [Block.bgraOperands, h]

theorem Block.operationOf_congr (h : b'.arg = b.arg) : b'.operationOf p i = b.operationOf p i := by
  cases i with
  | yuv420ToRgb => exact congrArg Operation.yuv (Block.yuvOperands_congr h)
  | bgraToRgb => exact congrArg Operation.bgra (Block.bgraOperands_congr h)

theorem Contract.congr (ha : b'.arg = b.arg) (hw : b'.written = b.written) (h : Contract p b i) :
    Contract p b' i := by
  cases i with
  | yuv420ToRgb =>
    have ho := Block.yuvOperands_congr (p := p) ha
    exact ⟨hw ▸ h.written, ho ▸ h.width, ho ▸ h.height, ho ▸ h.ppAligned, ho ▸ h.prAligned,
      ho ▸ h.fits, ho ▸ h.outputEnd, ho ▸ h.disjoint⟩
  | bgraToRgb =>
    have ho := Block.bgraOperands_congr (p := p) ha
    exact ⟨hw ▸ h.written, ho ▸ h.width, ho ▸ h.height, ho ▸ h.rowBytes, ho ▸ h.aligned,
      ho ▸ h.inputFits, ho ▸ h.outputFits, ho ▸ h.outputEnd, ho ▸ h.disjoint⟩
end congr

/-! ### A running operation -/

section running
variable {p : Params} {b : Block} {i : Instr}

/-- The invariant of a block, of whichever instruction runs. -/
theorem Block.Inv.inContract (h : b.Inv p) (hb : b.busy = true) (hc : b.cmd = encode i) :
    b.InContract p i := by
  cases i with
  | yuv420ToRgb => exact h.yuv hb hc
  | bgraToRgb => exact h.bgra hb hc

/-- The counters of a running operation (R20). -/
theorem Block.Sequencer.range (h : b.Sequencer p i) :
    (b.seqOuter i : Int) ≤ (b.operationOf p i).outer ∧
      (b.seqInner i : Int) < (b.operationOf p i).inner ∧
      ((b.seqOuter i : Int) = (b.operationOf p i).outer → b.seqInner i = 0) := by
  cases i with
  | yuv420ToRgb => exact h
  | bgraToRgb =>
    obtain ⟨hr, hc, h0, -⟩ := h
    exact ⟨hr, hc, h0⟩

/-- The next R byte is the one of the sequencer's pixel (R105). -/
theorem Block.Sequencer.outAt (h : b.Sequencer p i) :
    b.outAt p i = (b.operationOf p i).outAddr (b.seqOuter i) (b.seqInner i) := by
  cases i with
  | yuv420ToRgb => rfl
  | bgraToRgb =>
    obtain ⟨-, -, -, hptr⟩ := h
    exact hptr

/-- While a pixel step is enabled the sequencer stands at a pixel of the image. -/
theorem Block.Sequencer.hasPixel (h : b.Sequencer p i) (hl : b.PixelLeft p i) :
    (b.operationOf p i).HasPixel (b.seqOuter i) (b.seqInner i) := by
  cases i with
  | yuv420ToRgb => exact ⟨hl, h.range.2.1⟩
  | bgraToRgb => exact ⟨hl, h.range.2.1⟩

/-- At the first pixel the sequencer of an operation in contract is in range. -/
theorem Block.Sequencer.of_first (hc : Contract p b i) (h0 : b.seqOuter i = 0)
    (h1 : b.seqInner i = 0) (hout : b.outAt p i = (b.operationOf p i).outAddr 0 0) :
    b.Sequencer p i := by
  cases i with
  | yuv420ToRgb =>
    have hw := hc.width
    have hh := hc.height
    simp only [Block.seqOuter, Block.seqInner] at h0 h1
    simp only [Block.Sequencer, Block.YuvSequencer, h0, h1]
    omega
  | bgraToRgb =>
    have hw := hc.width
    have hh := hc.height
    simp only [Block.seqOuter, Block.seqInner] at h0 h1
    simp only [Block.Sequencer, Block.BgraSequencer, h0, h1]
    exact ⟨by omega, by omega, fun _ => trivial, hout⟩

/-- START leaves the sequencer at the first pixel (R117). -/
theorem Block.started_inContract (h : Contract p b i) : (b.started p i).InContract p i := by
  have hc := Contract.congr (b.started_arg p i) (b.started_written p i) h
  refine ⟨hc, .of_first hc (b.started_seqOuter p i) (b.started_seqInner p i) ?_⟩
  cases i with
  | yuv420ToRgb => rfl
  | bgraToRgb =>
    have hptr : ((b.bgraOperands p).rgbBase : Int) = (b.bgraOperands p).rgbBase +
        3 * (((0 : Nat) : Int) * (b.bgraOperands p).width + (0 : Nat)) := by omega
    exact hptr

/-- A pixel step keeps the sequencer in range (R91, R109). -/
theorem Block.InContract.advance (h : b.InContract p i) (hl : b.PixelLeft p i) :
    (b.advance p i).InContract p i := by
  obtain ⟨hc, hs⟩ := h
  refine ⟨Contract.congr (b.advance_arg p i) (b.advance_written p i) hc, ?_⟩
  have hop := Block.operationOf_congr (p := p) (i := i) (b.advance_arg p i)
  obtain ⟨-, hin, -⟩ := hs.range
  have hrange : ((b.advance p i).seqOuter i : Int) ≤ (b.operationOf p i).outer ∧
      ((b.advance p i).seqInner i : Int) < (b.operationOf p i).inner ∧
      (((b.advance p i).seqOuter i : Int) = (b.operationOf p i).outer →
        (b.advance p i).seqInner i = 0) := by
    rcases b.advance_seq p i with ⟨hlt, ho, hi⟩ | ⟨_, ho, hi⟩ <;> rw [ho, hi] <;> omega
  rw [← hop] at hrange
  cases i with
  | yuv420ToRgb => exact hrange
  | bgraToRgb =>
    obtain ⟨hr, hc', h0⟩ := hrange
    refine ⟨hr, hc', h0, ?_⟩
    obtain ⟨-, -, -, hptr⟩ := hs
    rw [Block.bgraOperands_congr (b.advance_arg p .bgraToRgb)]
    rw [Block.advance, Block.advanceBgra_seqOptr]
    rcases b.advance_seq p .bgraToRgb with ⟨_, ho, hi⟩ | ⟨hge, ho, hi⟩
    · simp only [Block.seqOuter, Block.seqInner, Block.advance] at ho hi
      rw [ho, hi]
      push_cast
      omega
    · simp only [Block.seqOuter, Block.seqInner, Block.advance] at ho hi
      simp only [Block.seqInner, Block.operationOf, Operation.inner] at hge hin
      rw [ho, hi]
      push_cast
      rw [add_mul, one_mul]
      omega

/-- In contract every read has an address (R80 CY3, R102 CB2). -/
theorem Contract.reads_nonneg (h : Contract p b i) :
    ∀ t ∈ (b.footprintOf p i).reads, 0 ≤ t.addr := by
  cases i with
  | yuv420ToRgb => exact YuvContract.reads_nonneg h
  | bgraToRgb => exact BgraContract.reads_nonneg h

/-- In contract no input byte is an output byte (R80 CY6, R102 CB7). -/
theorem Contract.disjoint (h : Contract p b i) : (b.footprintOf p i).Disjoint := by
  cases i with
  | yuv420ToRgb => exact YuvContract.disjoint h
  | bgraToRgb => exact BgraContract.disjoint h

/-- In contract every output byte has an address (R80 CY3, R102 CB4). -/
theorem Contract.output_lt (h : Contract p b i) {a : Int} (ha : (b.footprintOf p i).HasOutput a) :
    a < 2 ^ p.aw := by
  cases i with
  | yuv420ToRgb =>
    have hw := YuvContract.width h
    have hh := YuvContract.height h
    have hend := YuvContract.outputEnd h
    simp only [Block.footprintOf, Block.operationOf, Operation.footprint,
      YuvOperands.footprint] at ha
    obtain ⟨-, hlt⟩ := ha
    push_cast at hlt
    rw [Int.toNat_of_nonneg (by omega), Int.toNat_of_nonneg (by omega)] at hlt
    omega
  | bgraToRgb =>
    have hw := BgraContract.width h
    have hh := BgraContract.height h
    have hend := BgraContract.outputEnd h
    simp only [Block.footprintOf, Block.operationOf, Operation.footprint,
      BgraOperands.footprint] at ha
    obtain ⟨-, hlt⟩ := ha
    push_cast at hlt
    rw [Int.toNat_of_nonneg (by omega), Int.toNat_of_nonneg (by omega)] at hlt
    omega

/-- The three bytes a pixel step writes are output bytes. -/
theorem Block.Sequencer.hasOutput_outAt (h : b.Sequencer p i) (hl : b.PixelLeft p i) {k : Nat}
    (hk : k < 3) : (b.footprintOf p i).HasOutput (b.outAt p i + k) := by
  rw [h.outAt]
  exact Operation.hasOutput_outAddr (h.hasPixel hl) hk

theorem Block.Sequencer.outAt_nonneg (h : b.Sequencer p i) (hl : b.PixelLeft p i) :
    0 ≤ b.outAt p i := by
  rw [h.outAt]
  exact Operation.outAddr_nonneg (h.hasPixel hl)
end running

/-! ### What an instruction does -/

/-- Read `n` of the sequencer's pixel. -/
abbrev State.pixelTouch (s : State) (i : Instr) (n : Nat) : Touch :=
  (s.block.operationOf s.params i).touch (s.block.seqOuter i) (s.block.seqInner i) n

/-- Byte `k` of the sequencer's pixel by the closed form. -/
abbrev State.pixelByte (s : State) (i : Instr) (k : Nat) : Byte :=
  (s.block.operationOf s.params i).closedForm s.mem (s.block.seqOuter i) (s.block.seqInner i) k

/-- What the pixel step leaves: the closed form's bytes of the sequencer's pixel at the next output
address, and the sequencer advanced (R90, R108). -/
def State.pixelDone (s : State) (i : Instr) : State :=
  (s.packed (s.block.outAt s.params i).toNat (s.pixelByte i 0) (s.pixelByte i 1)
    (s.pixelByte i 2)).withBlock (s.block.advance s.params i)

/-- Permission for every access of the sequencer's pixel. -/
abbrev State.PixelOk (s : State) (i : Instr) : Prop :=
  (∀ n < readCount i, s.ReadOk (s.pixelTouch i n).addr) ∧
    ∀ n < 3, s.WriteOk (s.block.outAt s.params i + (n : Nat))

section pixelDone
variable (s : State) (i : Instr)
@[simp] theorem State.pixelDone_block : (s.pixelDone i).block = s.block.advance s.params i := rfl
@[simp] theorem State.pixelDone_params : (s.pixelDone i).params = s.params := rfl
end pixelDone

theorem State.pixelDone_yuv (s : State) :
    s.pixelDone .yuv420ToRgb = s.yuvPixelDone (s.block.yuvOperands s.params) := rfl

theorem State.pixelDone_bgra (s : State) :
    s.pixelDone .bgraToRgb = s.bgraPixelDone (s.block.bgraOperands s.params) := rfl

/-- Three bytes from an address, counted or listed. -/
theorem State.writeOk_three {s : State} {a : Int} :
    (∀ n < 3, s.WriteOk (a + (n : Nat))) ↔ s.WriteOk a ∧ s.WriteOk (a + 1) ∧ s.WriteOk (a + 2) := by
  constructor
  · intro h
    have h0 := h 0 (by decide)
    rw [Nat.cast_zero, add_zero] at h0
    exact ⟨h0, h 1 (by decide), h 2 (by decide)⟩
  · rintro ⟨h0, h1, h2⟩ n hn
    obtain rfl | rfl | rfl : n = 0 ∨ n = 1 ∨ n = 2 := by omega
    · rwa [Nat.cast_zero, add_zero]
    · exact h1
    · exact h2

theorem State.pixelOk_yuv {s : State} : s.PixelOk .yuv420ToRgb ↔
    s.YuvPixelOk (s.block.yuvOperands s.params) s.block.seqI s.block.seqJ := by
  refine and_congr ⟨fun h => ⟨h 0 (by decide), h 1 (by decide), h 2 (by decide)⟩, ?_⟩
    State.writeOk_three
  rintro ⟨hy, hu, hv⟩ n hn
  obtain rfl | rfl | rfl : n = 0 ∨ n = 1 ∨ n = 2 := by simp only [readCount] at hn; omega
  exacts [hy, hu, hv]

theorem State.pixelOk_bgra {s : State} : s.PixelOk .bgraToRgb ↔
    s.BgraPixelOk (s.block.bgraOperands s.params) s.block.seqR s.block.seqC := by
  refine and_congr
    ⟨fun h => ⟨h 0 (by decide), h 1 (by decide), h 2 (by decide), h 3 (by decide)⟩, ?_⟩
    State.writeOk_three
  rintro ⟨hb, hg, hr, ha⟩ n hn
  obtain rfl | rfl | rfl | rfl : n = 0 ∨ n = 1 ∨ n = 2 ∨ n = 3 := by
    simp only [readCount] at hn; omega
  exacts [hb, hg, hr, ha]

/-- Everything an instruction can do when it answers a next state. -/
theorem exec_cases {i : Instr} {s t : State} (h : exec i s = .next t) :
    (s.block.busy = false ∧ Contract s.params s.block i ∧
      t = s.withBlock (s.block.started s.params i)) ∨
    (s.block.busy = true ∧ s.block.cmd = encode i ∧ s.block.PixelLeft s.params i ∧ s.PixelOk i ∧
      t = s.pixelDone i) ∨
    (s.block.busy = true ∧ s.block.cmd = encode i ∧ ¬ s.block.PixelLeft s.params i ∧
      t = s.finish i) := by
  cases i with
  | yuv420ToRgb =>
    rcases exec_yuv_cases h with hstart | ⟨hb, hc, hl, hok, ht⟩ | ⟨hb, hc, hl, ht⟩
    · exact .inl hstart
    · exact .inr (.inl ⟨hb, hc, hl, State.pixelOk_yuv.2 hok, ht.trans s.pixelDone_yuv.symm⟩)
    · exact .inr (.inr ⟨hb, hc, not_lt.2 hl, ht⟩)
  | bgraToRgb =>
    rcases exec_bgra_cases h with hstart | ⟨hb, hc, hl, hok, ht⟩ | ⟨hb, hc, hl, ht⟩
    · exact .inl hstart
    · exact .inr (.inl ⟨hb, hc, hl, State.pixelOk_bgra.2 hok, ht.trans s.pixelDone_bgra.symm⟩)
    · exact .inr (.inr ⟨hb, hc, not_lt.2 hl, ht⟩)

/-- START in contract (R117). -/
theorem exec_start {i : Instr} {s : State} (hb : s.block.busy = false)
    (hc : Contract s.params s.block i) :
    exec i s = .next (s.withBlock (s.block.started s.params i)) := by
  cases i with
  | yuv420ToRgb =>
    simp only [exec, execYuv420ToRgb, hb, Bool.false_eq_true, if_false, yuvStart,
      yuvStartFault?_eq_none.2 hc]
    rfl
  | bgraToRgb =>
    simp only [exec, execBgraToRgb, hb, Bool.false_eq_true, if_false, bgraStart,
      bgraStartFault?_eq_none.2 hc]
    rfl

/-- A pixel step with permission for its accesses (R90, R108). -/
theorem exec_pixel {i : Instr} {s : State} (hb : s.block.busy = true) (hc : s.block.cmd = encode i)
    (hl : s.block.PixelLeft s.params i) (hok : s.PixelOk i) :
    exec i s = .next (s.pixelDone i) := by
  cases i with
  | yuv420ToRgb => exact exec_yuv_pixel hb hc hl (State.pixelOk_yuv.1 hok)
  | bgraToRgb => exact exec_bgra_pixel hb hc hl (State.pixelOk_bgra.1 hok)

/-- The finish step (R92, R110). -/
theorem exec_finish {i : Instr} {s : State} (hb : s.block.busy = true) (hc : s.block.cmd = encode i)
    (hl : ¬ s.block.PixelLeft s.params i) : exec i s = .next (s.finish i) := by
  cases i with
  | yuv420ToRgb =>
    have hi : ¬ (s.block.seqI : Int) < (s.block.yuvOperands s.params).width := hl
    simp only [exec, execYuv420ToRgb, hb, hc, if_true, yuvEngine, if_neg hi]
    rfl
  | bgraToRgb =>
    have hr : ¬ (s.block.seqR : Int) < (s.block.bgraOperands s.params).height := hl
    simp only [exec, execBgraToRgb, hb, hc, if_true, bgraEngine, if_neg hr]
    rfl

/-- The bytes after a pixel step: the three of the pixel, and every other byte as before. -/
theorem State.read_pixelDone (s : State) (i : Instr) (a : Nat) :
    Memory.read (s.pixelDone i).mem a =
      if a = (s.block.outAt s.params i).toNat then s.pixelByte i 0
      else if a = (s.block.outAt s.params i).toNat + 1 then s.pixelByte i 1
      else if a = (s.block.outAt s.params i).toNat + 2 then s.pixelByte i 2
      else Memory.read s.mem a :=
  State.read_packed ..

/-- A pixel step leaves every byte but its three as it was. -/
theorem State.read_pixelDone_of_outside {s : State} {i : Instr} {a : Nat}
    (h : a < (s.block.outAt s.params i).toNat ∨ (s.block.outAt s.params i).toNat + 3 ≤ a) :
    Memory.read (s.pixelDone i).mem a = Memory.read s.mem a := by
  rw [State.read_pixelDone, if_neg (by omega), if_neg (by omega), if_neg (by omega)]

/-- A pixel step puts the closed form's byte `k` at place `k`. -/
theorem State.read_pixelDone_outAt (s : State) (i : Instr) {k : Nat} (hk : k < 3) :
    Memory.read (s.pixelDone i).mem ((s.block.outAt s.params i).toNat + k) =
      s.pixelByte i k := by
  obtain rfl | rfl | rfl : k = 0 ∨ k = 1 ∨ k = 2 := by omega
  · rw [State.read_pixelDone, add_zero, if_pos rfl]
  · rw [State.read_pixelDone, if_neg (by omega), if_pos rfl]
  · rw [State.read_pixelDone, if_neg (by omega), if_neg (by omega), if_pos rfl]

/-- A pixel step of a running operation changes output bytes of it alone. -/
theorem State.read_pixelDone_of_not_output {s : State} {i : Instr}
    (hs : s.block.Sequencer s.params i) (hl : s.block.PixelLeft s.params i) {a : Nat}
    (ha : ¬ (s.block.footprintOf s.params i).HasOutput a) :
    Memory.read (s.pixelDone i).mem a = Memory.read s.mem a := by
  have h0 := hs.outAt_nonneg hl
  have hne : ∀ k < 3, (a : Int) ≠ s.block.outAt s.params i + (k : Nat) := fun k hk e =>
    ha (e ▸ hs.hasOutput_outAt hl hk)
  have h1 := hne 0 (by decide)
  have h2 := hne 1 (by decide)
  have h3 := hne 2 (by decide)
  exact State.read_pixelDone_of_outside (by omega)

/-- In contract a pixel step leaves the operation's input bytes (R52). -/
theorem State.read_pixelDone_input {s : State} {i : Instr} (hin : s.block.InContract s.params i)
    (hl : s.block.PixelLeft s.params i) :
    ∀ u ∈ (s.block.footprintOf s.params i).reads,
      Memory.read (s.pixelDone i).mem u.addr.toNat = Memory.read s.mem u.addr.toNat := by
  intro u hu
  refine State.read_pixelDone_of_not_output hin.2 hl ?_
  rw [Int.toNat_of_nonneg (hin.1.reads_nonneg u hu)]
  exact hin.1.disjoint u hu

end Sys2Proof.Machine
end

section
/-!
PROOFS. The invariant of the machine: what an action does to the acting instance, what keeps the
invariant of one instance, and what keeps that of all (10_state.md R16 to R20, R26, 60_exceptions.md
R141, 70_reset_and_hazards.md R150).
-/
namespace Sys2Proof.Machine

/-! ### What an action does to the acting instance -/

/-- What an action on the acting instance does to it: one of the three steps of an instruction, an
operand write while not BUSY, or nothing. -/
theorem Acts.block_cases {s t : State} (h : Acts s t) :
    (∃ i, s.block.busy = false ∧ Contract s.params s.block i ∧
      t.block = s.block.started s.params i ∧ t.mem = s.mem) ∨
    (∃ i, s.block.busy = true ∧ s.block.cmd = encode i ∧ s.block.PixelLeft s.params i ∧
      t = s.pixelDone i) ∨
    (∃ i, s.block.busy = true ∧ s.block.cmd = encode i ∧ ¬ s.block.PixelLeft s.params i ∧
      t = s.finish i) ∨
    (∃ n v, s.block.busy = false ∧ t.block = s.block.writeArg n v ∧ t.mem = s.mem) ∨
    t.block = s.block ∧ t.mem = s.mem := by
  cases h with
  | runs i _ h =>
    rcases exec_cases h with ⟨hb, hc, rfl⟩ | ⟨hb, hc, hl, _, rfl⟩ | ⟨hb, hc, hl, rfl⟩
    · exact .inl ⟨i, hb, hc, rfl, rfl⟩
    · exact .inr (.inl ⟨i, hb, hc, hl, rfl⟩)
    · exact .inr (.inr (.inl ⟨i, hb, hc, hl, rfl⟩))
  | writes n v hb => exact .inr (.inr (.inr (.inl ⟨n, v, hb, rfl, rfl⟩)))
  | observes => exact .inr (.inr (.inr (.inr ⟨rfl, rfl⟩)))

/-- While BUSY no action changes an operand register or `CMD` (R16, R50). -/
theorem Acts.operands_of_busy {s t : State} (h : Acts s t) (hb : s.block.busy = true) :
    t.block.arg = s.block.arg ∧ t.block.written = s.block.written ∧ t.block.cmd = s.block.cmd := by
  rcases h.block_cases with ⟨_, hidle, _⟩ | ⟨i, _, _, _, rfl⟩ | ⟨i, _, _, _, rfl⟩ |
    ⟨_, _, hidle, _⟩ | ⟨hsame, _⟩
  · simp [hb] at hidle
  · exact ⟨Block.advance_arg .., Block.advance_written .., Block.advance_cmd ..⟩
  · exact ⟨rfl, rfl, rfl⟩
  · simp [hb] at hidle
  · simp [hsame]

/-! ### The invariant of an instance -/

/-- A running instance meets the invariant exactly by `CMD`, its contract and its sequencer. -/
theorem Block.Inv.of_running {p : Params} {b : Block} {i : Instr} (hs : b.status = 1)
    (hc : b.cmd = encode i) (h : b.InContract p i) : b.Inv p := by
  refine ⟨.inr (.inl hs), ?_, fun _ => ?_, fun _ hy => ?_, fun _ hy => ?_⟩
  · cases i with
    | yuv420ToRgb => exact .inr (.inl hc)
    | bgraToRgb => exact .inr (.inr hc)
  · rw [hc]; cases i <;> decide
  · cases i with
    | yuv420ToRgb => exact h
    | bgraToRgb => rw [hc] at hy; exact absurd hy (by decide)
  · cases i with
    | yuv420ToRgb => rw [hc] at hy; exact absurd hy (by decide)
    | bgraToRgb => exact h

/-- An instance that is not BUSY meets the invariant by `STATUS` and `CMD` alone. -/
theorem Block.Inv.of_idle {p : Params} {b : Block} (hb : b.busy = false)
    (hs : b.status = 0 ∨ b.status = 1 ∨ b.status = 2)
    (hc : b.cmd = 0 ∨ b.cmd = encode .yuv420ToRgb ∨ b.cmd = encode .bgraToRgb) : b.Inv p :=
  ⟨hs, hc, fun h => by simp [hb] at h, fun h => by simp [hb] at h, fun h => by simp [hb] at h⟩

/-- A BUSY instance has the one value of `STATUS` that says so (R19). -/
theorem Block.Inv.status_of_busy {p : Params} {b : Block} (h : b.Inv p) (hb : b.busy = true) :
    b.status = 1 := by
  rcases h.status with hs | hs | hs
  · rw [Block.busy, hs] at hb; exact absurd hb (by decide)
  · exact hs
  · rw [Block.busy, hs] at hb; exact absurd hb (by decide)

/-- Every action on the acting instance keeps its invariant. -/
theorem Acts.block_inv {s t : State} (h : Acts s t) (hinv : s.block.Inv s.params) :
    t.block.Inv s.params := by
  rcases h.block_cases with ⟨i, _, hc, hblock, _⟩ | ⟨i, hb, hc, hl, rfl⟩ | ⟨i, _, _, _, rfl⟩ |
    ⟨n, v, hb, hblock, _⟩ | ⟨hblock, _⟩
  · rw [hblock]
    exact .of_running ((Block.started_status ..).trans statusWord_running) (Block.started_cmd ..)
      (Block.started_inContract hc)
  · rw [State.pixelDone_block]
    exact .of_running ((Block.advance_status ..).trans (hinv.status_of_busy hb))
      ((Block.advance_cmd ..).trans hc) ((hinv.inContract hb hc).advance hl)
  · rw [State.finish_block]
    exact .of_idle (Block.setStatus_busy ..) (.inr (.inr statusWord_finished)) hinv.cmd
  · rw [hblock]
    exact .of_idle hb hinv.status hinv.cmd
  · rw [hblock]; exact hinv

theorem Block.reset_inv (p : Params) : Block.reset.Inv p :=
  .of_idle (by decide) (.inl rfl) (.inl rfl)

/-! ### The invariant of the machine -/

theorem State.Inv.blockAt {s : State} (h : s.Inv) {n : Nat} {b : Block}
    (hb : s.blockAt n = some b) : b.Inv s.params := by
  rcases List.mem_cons.1 (List.mem_of_getElem? hb) with rfl | hmem
  · exact h.block
  · exact h.peers b hmem

/-- The invariant, instance by instance. -/
theorem State.Inv.of_blockAt {s : State} (hm : Memory.Wf s.mem)
    (hsp : ∀ c ∈ s.mem, c.1 < 2 ^ s.params.aw)
    (hb : ∀ n b, s.blockAt n = some b → b.Inv s.params) (hs : s.sel = 0) : s.Inv :=
  ⟨hm, hsp, hb 0 _ rfl, fun b hmem => by
    obtain ⟨n, hn⟩ := List.mem_iff_getElem?.1 hmem
    exact hb (n + 1) b hn, hs⟩

/-- Settles O48: `STATUS` and `CMD` are zero, and memory is empty. -/
theorem resetMeetsInvariant : Obligations.ResetMeetsInvariant :=
  ⟨by decide, fun _ h => absurd h List.not_mem_nil, Block.reset_inv _,
    fun _ h => absurd h List.not_mem_nil, rfl⟩

/-- The operation that a `footprint?` belongs to, by the word that `CMD` holds. -/
theorem Block.footprint?_running {p : Params} {b : Block} {f : Footprint}
    (h : b.footprint? p = some f) :
    b.busy = true ∧ ∃ i, b.cmd = encode i ∧ f = b.footprintOf p i := by
  obtain ⟨hb, i, hi, hf⟩ := Block.footprint?_eq_some.1 h
  exact ⟨hb, i, decode_eq_ok_iff.1 hi, hf⟩

/-- A reset lists bytes of output sets only, all of which have an address in contract. -/
theorem State.Inv.platformReset_space {s : State} (h : s.Inv) :
    ∀ c ∈ s.platformReset.mem, c.1 < 2 ^ s.params.aw := by
  refine State.platformReset_mem_induct (P := fun m => ∀ c ∈ m, c.1 < 2 ^ s.params.aw) s h.space ?_
  intro m k b hb f hf hm c hc
  rcases Memory.addr_of_mem_spoil hc with ⟨hlo, hhi⟩ | hc
  · obtain ⟨hbusy, i, hcmd, rfl⟩ := Block.footprint?_running hf
    obtain ⟨n, hn⟩ := List.mem_iff_getElem?.1 hb
    obtain ⟨hcon, -⟩ := (h.blockAt hn).inContract hbusy hcmd
    have hlt := hcon.output_lt (a := (c.1 : Int)) ⟨by omega, by omega⟩
    exact_mod_cast hlt
  · exact hm c hc

/-- A reset leaves every instance with its reset values (R150, log 14). -/
theorem State.platformReset_blocks (s : State) :
    ∀ b ∈ s.platformReset.block :: s.platformReset.peers, b = Block.reset := by
  intro b hb
  rcases List.mem_cons.1 hb with rfl | hmem
  · rfl
  · obtain ⟨_, _, rfl⟩ := List.mem_map.1 hmem
    rfl

theorem State.Inv.platformReset {s : State} (h : s.Inv) : s.platformReset.Inv := by
  obtain ⟨hp, hsel, -, -, -⟩ := s.platformReset_shape
  refine .of_blockAt ?_ (hp ▸ h.platformReset_space) (fun n b hb => ?_) (hsel.trans h.sel)
  · exact State.platformReset_mem_induct s h.mem fun m k b _ f _ hm => Memory.wf_spoil hm _ _ _
  · obtain rfl := s.platformReset_blocks b (List.mem_of_getElem? hb)
    exact Block.reset_inv _

/-- Between steps instance 0 is in its place (log 8). -/
theorem step_sel {s t : State} (hs : s.sel = 0) (h : step s = .next t) (hr : ¬ s.ResetNext) :
    t.sel = 0 := by
  rcases step_cases h hr with ⟨k, u, hk, _, ha, rfl⟩ | ⟨_, _, _, _, _, rfl⟩ | ⟨_, _, _, _, rfl⟩
  · obtain ⟨-, hpeers, hsel, -⟩ := ha.shape
    exact (State.focus_back (s := { s with events := s.events.tail }) hk hs hpeers hsel).1
  · exact hs
  · exact hs

/-- A step that is no reset stores at existing addresses only (R26). -/
theorem step_space {s t : State} (h : step s = .next t) (hr : ¬ s.ResetNext)
    (hsp : ∀ c ∈ s.mem, c.1 < 2 ^ s.params.aw) : ∀ c ∈ t.mem, c.1 < 2 ^ s.params.aw := by
  refine step_mem_induct (P := fun m => ∀ c ∈ m, c.1 < 2 ^ s.params.aw) h hr hsp ?_
  intro m a v hin hm c hc
  rcases Memory.addr_of_mem_write hc with hca | hc
  · rw [hca]; exact_mod_cast hin.2
  · exact hm c hc

/-- A step that is no reset keeps the invariant of every instance. -/
theorem step_block_inv {s t : State} (hinv : s.Inv) (h : step s = .next t) (hr : ¬ s.ResetNext)
    {n : Nat} {b' : Block} (hb' : t.blockAt n = some b') : b'.Inv s.params := by
  have hn : n ≤ s.peers.length := by
    have hlt := (List.getElem?_eq_some_iff.1 hb').1
    rw [List.length_cons, (stepKeepsParameters s t h).2] at hlt
    omega
  obtain ⟨b, hb⟩ := State.exists_blockAt hn
  rcases step_at hinv.sel h hr hb with ⟨u, _, ha, _, hub⟩ | ⟨_, htb⟩
  · obtain rfl := Option.some.inj (hub.symm.trans hb')
    obtain ⟨-, hblock, -⟩ := State.focus_of_blockAt (s := { s with events := s.events.tail }) hb
    have hkept := ha.block_inv (by rw [hblock, State.focus_params]; exact hinv.blockAt hb)
    rwa [State.focus_params] at hkept
  · obtain rfl := Option.some.inj (htb.symm.trans hb')
    exact hinv.blockAt hb

/-- Settles O49: a reset leaves idle instances; any other step changes one of them, by an action
that keeps its invariant, or one byte of the host's, and stores at existing addresses only. -/
theorem stepKeepsInvariant : Obligations.StepKeepsInvariant := by
  intro s t h hstep
  by_cases hr : s.ResetNext
  · obtain rfl := Host.Outcome.next.inj ((step_of_reset hr).symm.trans hstep)
    have htail : ({ s with events := s.events.tail } : State).Inv :=
      ⟨h.mem, h.space, h.block, h.peers, h.sel⟩
    exact htail.platformReset
  · have hp := (stepKeepsParameters s t hstep).1
    exact .of_blockAt (stepKeepsMemoryCanonical s t h.mem hstep) (hp ▸ step_space hstep hr h.space)
      (fun n b' hb' => hp ▸ step_block_inv h hstep hr hb') (step_sel h.sel hstep hr)

end Sys2Proof.Machine
end

section
/-!
PROOFS. What a step does to a running operation and to the notes of ended ones: operands and CMD
stay, buffers are protected, DONE has its lifetime, ended operations are remembered (10_state.md
R16 to R19, 20_memory.md R45, R50, R52, 60_exceptions.md R141, 70_reset_and_hazards.md R155).
-/
namespace Sys2Proof.Machine

theorem encode_injective {i j : Instr} (h : encode i = encode j) : i = j := by
  have hdec := decode_encode i
  rw [h, decode_encode] at hdec
  exact (Except.ok.inj hdec).symm

/-! ### Operands and CMD while BUSY -/

/-- Settles O53: the instance stays as it is, or acts while BUSY, and then its engine moves the
sequencer and STATUS alone. -/
theorem operandsFixedWhileBusy : Obligations.OperandsFixedWhileBusy := by
  intro s t n b hs h hr hb hbusy
  rcases step_at hs h hr hb with ⟨u, _, ha, _, hub⟩ | ⟨_, htb⟩
  · obtain ⟨-, hblock, -⟩ := State.focus_of_blockAt (s := { s with events := s.events.tail }) hb
    have hkept := ha.operands_of_busy (by rw [hblock]; exact hbusy)
    rw [hblock] at hkept
    exact ⟨u.block, hub, hkept⟩
  · exact ⟨b, htb, rfl, rfl, rfl⟩

/-! ### The buffers of a running operation -/

/-- An action of the instance that runs an operation leaves the operation's input bytes (R52). -/
theorem Acts.read_input {s t : State} (h : Acts s t) {i : Instr} (hb : s.block.busy = true)
    (hc : s.block.cmd = encode i) (hin : s.block.InContract s.params i) :
    ∀ u ∈ (s.block.footprintOf s.params i).reads,
      Memory.read t.mem u.addr.toNat = Memory.read s.mem u.addr.toNat := by
  intro u hu
  rcases h.block_cases with ⟨_, hidle, _⟩ | ⟨j, _, hj, hl, rfl⟩ | ⟨j, _, _, _, rfl⟩ |
    ⟨_, _, hidle, _⟩ | ⟨_, hmem⟩
  · simp [hb] at hidle
  · obtain rfl := encode_injective (hc.symm.trans hj)
    exact State.read_pixelDone_input hin hl u hu
  · rfl
  · simp [hb] at hidle
  · rw [hmem]

/-- An action of an instance leaves every byte of an operation that another one runs (R45, R141). -/
theorem Acts.read_of_peer {s t : State} (h : Acts s t) {b : Block} {f : Footprint}
    (hb : b ∈ s.peers) (hf : b.footprint? s.params = some f) {a : Nat}
    (ha : f.HasInput a ∨ f.HasOutput a) :
    Memory.read t.mem a = Memory.read s.mem a := by
  rcases h.mem with hm | ⟨x, r, g, bl, _, hm, w0, w1, w2⟩
  · rw [hm]
  · have hspared : ∀ y : Int, s.WriteOk y → (a : Int) ≠ y := by
      rintro y ⟨-, -, -, hclash⟩ rfl
      have hfree := State.peerClash_eq_none_iff_atOnce.1 hclash f (.inl ⟨b, hb, hf⟩)
      rw [Footprint.clashesWrite_iff.2 ha] at hfree
      cases hfree
    have h0 := hspared _ w0
    have h1 := hspared _ w1
    have h2 := hspared _ w2
    rw [hm, State.read_packed, if_neg (by omega), if_neg (by omega), if_neg (by omega)]

/-- A host write leaves every byte of a running operation (R45). -/
theorem State.read_store_of_running {s : State} {x : Nat} {v : Byte}
    (hx : s.hostClash Footprint.clashesWrite x = none) {f : Footprint} (hf : s.Running f) {a : Nat}
    (ha : f.HasInput a ∨ f.HasOutput a) :
    Memory.read (s.store x v).mem a = Memory.read s.mem a := by
  refine Memory.read_write_of_ne _ _ ?_
  rintro rfl
  have hfree := State.hostClash_eq_none_iff_notOver.1 hx f (.inl hf)
  rw [Footprint.clashesWrite_iff.2 ha] at hfree
  cases hfree

/-- Settles O54: the own engine writes output bytes, which are no input bytes; every other agent's
write of a byte of the operation conflicts. -/
theorem buffersOfRunningOperationProtected : Obligations.BuffersOfRunningOperationProtected := by
  intro s t n b f hinv h hr hb hf
  obtain ⟨hbusy, i, hcmd, rfl⟩ := Block.footprint?_running hf
  have hin := (hinv.blockAt hb).inContract hbusy hcmd
  have hinput : ∀ u ∈ (b.footprintOf s.params i).reads,
      (b.footprintOf s.params i).HasInput (u.addr.toNat : Nat) := fun u hu =>
    ⟨u, hu, (Int.toNat_of_nonneg (hin.1.reads_nonneg u hu)).symm⟩
  rcases step_cases h hr with ⟨k, u, hk, hact, ha, rfl⟩ | ⟨x, v, hact, _, hclash, rfl⟩ |
    ⟨_, _, _, _, rfl⟩
  · rw [State.focus_mem]
    by_cases hnk : n = k
    · subst hnk
      obtain ⟨-, hblock, -⟩ := State.focus_of_blockAt (s := { s with events := s.events.tail }) hb
      have hreads := ha.read_input (i := i) (by rw [hblock]; exact hbusy)
        (by rw [hblock]; exact hcmd) (by rw [hblock, State.focus_params]; exact hin)
      rw [hblock, State.focus_params, State.focus_mem] at hreads
      exact ⟨hreads, fun hne => absurd hact hne⟩
    · have hpeer := State.mem_peers_focus (s := { s with events := s.events.tail }) hb hk hnk
      have hkept := fun a => ha.read_of_peer (a := a) hpeer (by rw [State.focus_params]; exact hf)
      rw [State.focus_mem] at hkept
      exact ⟨fun u hu => hkept _ (.inl (hinput u hu)), fun _ a hout => hkept a (.inr hout)⟩
  · have hrun : s.Running (b.footprintOf s.params i) := ⟨b, List.mem_of_getElem? hb, hf⟩
    have hkept := fun a => State.read_store_of_running (v := v) (a := a) hclash hrun
    exact ⟨fun u hu => hkept _ (.inl (hinput u hu)), fun _ a hout => hkept a (.inr hout)⟩
  · exact ⟨fun _ _ => rfl, fun _ _ _ => rfl⟩

/-! ### Which action a step on an instance takes -/

/-- A step that acts on instance `k` is a register action, a WAIT or the engine's turn, on the
acting instance brought into place and back. -/
theorem step_of_acting {s t : State} {k : Nat} (h : step s = .next t) (hr : ¬ s.ResetNext)
    (hk : s.acting = some k) :
    k ≤ s.peers.length ∧ ∃ u, t = u.focus k ∧
      ((∃ n v rest, s.events = .wr k n v :: rest ∧
          hostWrite n v ({ s with events := s.events.tail }.focus k) = .next u) ∨
        (∃ n rest, s.events = .rd k n :: rest ∧
          hostRead n ({ s with events := s.events.tail }.focus k) = .next u) ∨
        (∃ rest, s.events = .wait k :: rest ∧
          hostWait k ({ s with events := s.events.tail }.focus k) = .next u) ∨
        engineTurn ({ s with events := s.events.tail }.focus k) = .next u) := by
  rcases step_eq_next h with ⟨_, rest, _, he, _⟩ | ⟨_, e, rest, he, hrun⟩ |
    ⟨_, he, ⟨j, hj, hon⟩ | ⟨hnone, _⟩⟩
  · exact absurd (by rw [State.ResetNext, he]; rfl) hr
  · have htarget : e.target = some k := by rw [State.acting, he] at hk; exact hk
    rw [he, List.tail_cons]
    cases e with
    | wr j n v =>
      obtain rfl := Option.some.inj htarget
      obtain ⟨hle, u, hu, ht⟩ := onBlock_eq_next hrun
      exact ⟨hle, u, ht, .inl ⟨n, v, rest, rfl, hu⟩⟩
    | rd j n =>
      obtain rfl := Option.some.inj htarget
      obtain ⟨hle, u, hu, ht⟩ := onBlock_eq_next hrun
      exact ⟨hle, u, ht, .inr (.inl ⟨n, rest, rfl, hu⟩)⟩
    | wait j =>
      obtain rfl := Option.some.inj htarget
      obtain ⟨hle, u, hu, ht⟩ := onBlock_eq_next hrun
      exact ⟨hle, u, ht, .inr (.inr (.inl ⟨rest, rfl, hu⟩))⟩
    | engine j =>
      obtain rfl := Option.some.inj htarget
      obtain ⟨hle, u, hu, ht⟩ := onBlock_eq_next hrun
      exact ⟨hle, u, ht, .inr (.inr (.inr hu))⟩
    | memWrite _ _ => cases htarget
    | memRead _ => cases htarget
    | alloc _ => cases htarget
    | free _ => cases htarget
    | reset => cases htarget
  · obtain rfl : j = k := by rw [State.acting, he] at hk; exact Option.some.inj (hj.symm.trans hk)
    have htail : ({ s with events := s.events.tail } : State) = s := by rw [he, List.tail_nil, ← he]
    obtain ⟨hle, u, hu, ht⟩ := onBlock_eq_next hon
    exact ⟨hle, u, ht, .inr (.inr (.inr (by rw [htail]; exact hu)))⟩
  · rw [State.acting, he] at hk
    exact absurd (hnone.symm.trans hk) nofun

/-! ### The lifetime of DONE (10_state.md R19) -/

/-- The values a host writes to start an operation (30_encoding.md R61, R68). -/
theorem decodeValue_eq_ok {v : Word} {i : Instr} (h : decodeValue v = .ok i) : v = 1 ∨ v = 2 := by
  unfold decodeValue at h
  split at h
  · next hlt =>
    have hw := decode_eq_ok_iff.1 h
    have hv : v.toNat = (encode i).toNat := by
      rw [← hw, BitVec.toNat_setWidth, Nat.mod_eq_of_lt hlt]
    cases i with
    | yuv420ToRgb => exact .inl (BitVec.eq_of_toNat_eq hv)
    | bgraToRgb => exact .inr (BitVec.eq_of_toNat_eq hv)
  · cases h

/-- DONE rises at the finish step alone (R92, R110). -/
theorem Acts.done_rises {s t : State} (h : Acts s t) (h0 : s.block.done = false)
    (h1 : t.block.done = true) : s.block.busy = true ∧ t.block.busy = false := by
  rcases h.block_cases with ⟨i, _, _, hblock, _⟩ | ⟨i, _, _, _, rfl⟩ | ⟨i, hb, _, _, rfl⟩ |
    ⟨n, v, _, hblock, _⟩ | ⟨hblock, _⟩
  · rw [hblock, Block.started_done] at h1; cases h1
  · rw [State.pixelDone_block, Block.advance_done, h0] at h1; cases h1
  · exact ⟨hb, Block.setStatus_busy ..⟩
  · rw [hblock, Block.writeArg_done, h0] at h1; cases h1
  · rw [hblock, h0] at h1; cases h1

/-- The engine's turn never clears DONE (R92, R110). -/
theorem engineTurn_done {s t : State} (h : engineTurn s = .next t) (hd : s.block.done = true) :
    t.block.done = true := by
  rcases engineTurn_eq_next h with ⟨hb, i, _, hexec⟩ | ⟨_, rfl⟩
  · rcases exec_cases hexec with ⟨hidle, _⟩ | ⟨_, _, _, _, rfl⟩ | ⟨_, _, _, rfl⟩
    · simp [hb] at hidle
    · rw [State.pixelDone_block, Block.advance_done]; exact hd
    · exact Block.setStatus_done ..
  · exact hd

/-- A host write clears DONE as START alone, at register 8 (R117). -/
theorem hostWrite_clears_done {n : Nat} {v : Word} {s t : State} (h : hostWrite n v s = .next t)
    (h1 : s.block.done = true) (h0 : t.block.done = false) :
    n = 8 ∧ (v = 1 ∨ v = 2) ∧ t.block.busy = true := by
  obtain ⟨hidle, ⟨hn, rfl⟩ | ⟨hn, i, hv, hexec⟩⟩ := hostWrite_eq_next h
  · rw [State.withBlock_block, Block.writeArg_done, h1] at h0; cases h0
  · refine ⟨hn, decodeValue_eq_ok hv, ?_⟩
    rcases exec_cases hexec with ⟨_, _, rfl⟩ | ⟨hb, _⟩ | ⟨hb, _⟩
    · exact Block.started_busy ..
    · simp [hb] at hidle
    · simp [hb] at hidle

/-- Settles O55: an instance's DONE changes only where a step acts on it, upwards at the finish
step and downwards at START. -/
theorem doneBitLifetime : Obligations.DoneBitLifetime := by
  intro s t n b b' hs h hr hb hb'
  by_cases hact : s.acting = some n
  · obtain ⟨-, hblock, -⟩ := State.focus_of_blockAt (s := { s with events := s.events.tail }) hb
    refine ⟨fun h0 h1 => ?_, fun h1 h0 => ?_⟩
    · rcases step_at hs h hr hb with ⟨u, _, ha, _, hub⟩ | ⟨hne, _⟩
      · obtain rfl := Option.some.inj (hub.symm.trans hb')
        have hrise := ha.done_rises (by rw [hblock]; exact h0) h1
        rw [hblock] at hrise
        exact ⟨hact, hrise⟩
      · exact absurd hact hne
    · obtain ⟨hle, u, rfl, hcases⟩ := step_of_acting h hr hact
      have hback : Acts ({ s with events := s.events.tail }.focus n) u → b' = u.block := by
        intro ha
        obtain ⟨-, hpeers, hsel, -⟩ := ha.shape
        rw [State.blockAt_focus_back (s := { s with events := s.events.tail }) hle hs hpeers hsel,
          if_pos rfl] at hb'
        exact (Option.some.inj hb').symm
      have hdone : ({ s with events := s.events.tail }.focus n).block.done = true := by
        rw [hblock]; exact h1
      rcases hcases with ⟨m, v, rest, he, hw⟩ | ⟨m, rest, _, hread⟩ | ⟨rest, _, hwait⟩ | hturn
      · obtain rfl := hback (hostWrite_acts hw)
        obtain ⟨rfl, hv, hbusy⟩ := hostWrite_clears_done hw hdone h0
        exact ⟨hbusy, v, rest, he, hv⟩
      · obtain rfl := hback (hostRead_acts hread)
        obtain ⟨_, _, rfl⟩ := hostRead_eq_next hread
        exact absurd (hdone.symm.trans h0) nofun
      · obtain rfl := hback (hostWait_acts hwait)
        rw [hostWait_eq_next hwait] at h0
        exact absurd (hdone.symm.trans h0) nofun
      · obtain rfl := hback (engineTurn_acts hturn)
        exact absurd ((engineTurn_done hturn hdone).symm.trans h0) nofun
  · have hsame : some b' = some b := by
      rw [← hb', ← hb]
      exact step_blockAt_of_not_acting hs h hr hact
    obtain rfl := Option.some.inj hsame
    exact ⟨fun h0 h1 => absurd (h0.symm.trans h1) nofun,
      fun h1 h0 => absurd (h0.symm.trans h1) nofun⟩

/-! ### Ended operations are remembered -/

/-- The other BUSY instances are counted under their own numbers (log 8). -/
theorem State.mem_busyPeers_focus {s : State} (hs : s.sel = 0) {n m : Nat} {c : Block}
    (hn : n ≤ s.peers.length) (hm : m ≠ n) (hc : s.blockAt m = some c) (hb : c.busy = true) :
    m ∈ (s.focus n).busyPeers := by
  have hplace : ∀ j, (s.focus n).peers[j]? = some c → (s.focus n).peerNumber j = m →
      m ∈ (s.focus n).busyPeers := fun j hj hnum => by
    simp only [State.busyPeers, List.mem_map, List.mem_filter]
    exact ⟨(c, j), ⟨List.mk_mem_zipIdx_iff_getElem?.2 hj, hb⟩, hnum⟩
  cases n with
  | zero =>
    obtain ⟨j, rfl⟩ := Nat.exists_eq_succ_of_ne_zero hm
    exact hplace j hc (by simp [State.peerNumber, hs])
  | succ k =>
    have hk : k < s.peers.length := hn
    have hfocus := State.focus_succ (b := s.peers[k]) (List.getElem?_eq_getElem hk)
    rw [hfocus] at hplace ⊢
    cases m with
    | zero =>
      refine hplace k ?_ (by simp [State.peerNumber, hs])
      rw [List.getElem?_set_self hk]
      exact hc
    | succ j =>
      have hjk : k ≠ j := fun e => hm (by rw [e])
      refine hplace j ?_ (by simp [State.peerNumber, hs, Ne.symm hjk])
      rw [List.getElem?_set_ne hjk]
      exact hc

/-- No instruction drops a note for the host. -/
theorem exec_unread {i : Instr} {s t : State} (h : exec i s = .next t) {e : Ended}
    (he : e ∈ s.unread) : e ∈ t.unread := by
  rcases exec_ended h with ⟨hu, _⟩ | ⟨_, rfl⟩
  · rw [hu]; exact he
  · exact List.mem_cons_of_mem _ he

/-- A note for an instance is dropped at that instance's own finish step alone (log 24). -/
theorem Acts.rivals {s t : State} (h : Acts s t) {r : Rival} (hr : r ∈ s.rivals) :
    r ∈ t.rivals ∨ r.of = s.sel ∧ t.block.busy = false := by
  cases h with
  | runs i _ h =>
    rcases exec_ended h with ⟨_, hriv⟩ | ⟨_, rfl⟩
    · rw [hriv]; exact .inl hr
    · by_cases hof : r.of = s.sel
      · exact .inr ⟨hof, Block.setStatus_busy ..⟩
      · refine .inl (List.mem_append_left _ (List.mem_filter.2 ⟨hr, ?_⟩))
        simpa using hof
  | writes => exact .inl hr
  | observes => exact .inl hr

/-- A list filtered by another number lost only elements of this number. -/
theorem block_eq_of_not_mem_filter {l : List Ended} {k : Nat} {e : Ended} (he : e ∈ l)
    (h : e ∉ l.filter fun e => e.block != k) : e.block = k := by
  by_contra hne
  exact h (List.mem_filter.2 ⟨he, by simpa using hne⟩)

/-- A note for the host is dropped where it reads STATUS with DONE set, or waits and sees it (log
13). -/
theorem step_drops_unread {s t : State} (hs : s.sel = 0) (h : step s = .next t) (hr : ¬ s.ResetNext)
    {e : Ended} (he : e ∈ s.unread) (ht : e ∉ t.unread) :
    (∃ b, s.blockAt e.block = some b ∧ b.done = true) ∧
      ∃ rest, s.events = .rd e.block 9 :: rest ∨ s.events = .wait e.block :: rest := by
  rcases step_cases h hr with ⟨k, _, _, hact, _, _⟩ | ⟨_, _, _, _, _, rfl⟩ | ⟨_, _, _, _, rfl⟩
  · obtain ⟨hle, u, rfl, hcases⟩ := step_of_acting h hr hact
    obtain ⟨b, hb⟩ := State.exists_blockAt hle
    obtain ⟨-, hblock, hsel⟩ := State.focus_of_blockAt (s := { s with events := s.events.tail }) hb
    have he' : e ∈ ({ s with events := s.events.tail }.focus k).unread := by simpa using he
    rw [State.focus_unread] at ht
    rcases hcases with ⟨n, v, rest, _, hw⟩ | ⟨n, rest, hev, hread⟩ | ⟨rest, hev, hwait⟩ | hturn
    · obtain ⟨_, ⟨_, rfl⟩ | ⟨_, i, _, hexec⟩⟩ := hostWrite_eq_next hw
      · exact absurd he' ht
      · exact absurd (exec_unread hexec he') ht
    · obtain ⟨_, _, rfl⟩ := hostRead_eq_next hread
      simp only at ht
      split at ht
      · next hcond =>
        obtain ⟨rfl, hdone⟩ := hcond
        obtain rfl := (block_eq_of_not_mem_filter he' ht).trans (hsel hs)
        exact ⟨⟨b, hb, hblock ▸ hdone⟩, rest, .inl hev⟩
      · exact absurd he' ht
    · rw [hostWait_eq_next hwait] at ht
      simp only at ht
      split at ht
      · next hdone =>
        obtain rfl := (block_eq_of_not_mem_filter he' ht).trans (hsel hs)
        exact ⟨⟨b, hb, hblock ▸ hdone⟩, rest, .inr hev⟩
      · exact absurd he' ht
    · rcases engineTurn_eq_next hturn with ⟨_, i, _, hexec⟩ | ⟨_, rfl⟩
      · exact absurd (exec_unread hexec he') ht
      · exact absurd he' ht
  · exact absurd he ht
  · exact absurd he ht

/-- The step that ends an operation notes it for the host and for the other BUSY instances (R92,
R110, logs 13 and 24). -/
theorem step_notes_ended {s t : State} (hs : s.sel = 0) (h : step s = .next t) (hr : ¬ s.ResetNext)
    {n : Nat} {b b' : Block} {i : Instr} (hb : s.blockAt n = some b) (hb' : t.blockAt n = some b')
    (h1 : b.busy = true) (h0 : b'.busy = false) (hc : b.cmd = encode i) :
    (⟨n, b.operationOf s.params i⟩ : Ended) ∈ t.unread ∧
      ∀ (m : Nat) (c : Block), m ≠ n → s.blockAt m = some c → c.busy = true →
        (⟨m, ⟨n, b.operationOf s.params i⟩⟩ : Rival) ∈ t.rivals := by
  rcases step_at hs h hr hb with ⟨u, _, ha, rfl, hub⟩ | ⟨_, htb⟩
  · obtain ⟨hle, hblock, hsel⟩ :=
      State.focus_of_blockAt (s := { s with events := s.events.tail }) hb
    obtain rfl := Option.some.inj (hub.symm.trans hb')
    rcases ha.block_cases with ⟨_, hidle, _⟩ | ⟨j, _, _, _, rfl⟩ | ⟨j, _, hj, _, rfl⟩ |
      ⟨_, _, hidle, _⟩ | ⟨hsame, _⟩
    · rw [hblock, h1] at hidle; cases hidle
    · rw [State.pixelDone_block, Block.advance_busy, hblock, h1] at h0; cases h0
    · rw [hblock] at hj
      obtain rfl := encode_injective (hc.symm.trans hj)
      simp only [State.focus_unread, State.focus_rivals, State.finish, hblock, hsel hs,
        State.focus_params]
      exact ⟨List.mem_cons_self .., fun m c hm hmc hcb => List.mem_append_right _
        (List.mem_map.2 ⟨m, State.mem_busyPeers_focus (s := { s with events := s.events.tail }) hs
          hle hm hmc hcb, rfl⟩)⟩
    · rw [hblock, h1] at hidle; cases hidle
    · rw [hsame, hblock, h1] at h0; cases h0
  · obtain rfl := Option.some.inj (htb.symm.trans hb')
    exact absurd (h1.symm.trans h0) nofun

/-- Settles O32: the finish step notes, an instance's own finish step forgets what was noted for
it, and what was noted for the host goes when it sees DONE. -/
theorem endedOperationsAreRemembered : Obligations.EndedOperationsAreRemembered := by
  intro s t hinv h hr
  refine ⟨fun n b b' i hb hb' h1 h0 hc => step_notes_ended hinv.sel h hr hb hb' h1 h0 hc,
    fun r hmem hbusy => ?_, fun e he ht => step_drops_unread hinv.sel h hr he ht⟩
  rcases step_cases h hr with ⟨k, u, hk, _, ha, rfl⟩ | ⟨_, _, _, _, _, rfl⟩ | ⟨_, _, _, _, rfl⟩
  · rw [State.focus_rivals]
    rcases ha.rivals (r := r) (by simpa using hmem) with hkept | ⟨hof, hidle⟩
    · exact hkept
    · obtain ⟨b, hb⟩ := State.exists_blockAt hk
      obtain ⟨-, -, hsel⟩ := State.focus_of_blockAt (s := { s with events := s.events.tail }) hb
      obtain ⟨-, hpeers, husel, -⟩ := ha.shape
      have hat := State.blockAt_focus_back (s := { s with events := s.events.tail }) hk hinv.sel
        hpeers husel r.of
      rw [if_pos (hof.trans (hsel hinv.sel))] at hat
      exact absurd ((hbusy _ hat).symm.trans hidle) nofun
  · exact hmem
  · exact hmem

end Sys2Proof.Machine
end

section
/-!
PROOFS. The closed form under every schedule, the engine's progress, and the engine running alone
(41_yuv420_to_rgb.md R91, R93, 42_bgra_to_rgb.md R109, R111, 43_host_interface.md R125).
-/
namespace Sys2Proof.Machine

/-! ### The finished pixels -/

section pixels
variable {p : Params} {b : Block} {i : Instr} {m0 m m' : Memory}

/-- `PixelsHold`, for both instructions alike. -/
theorem Block.pixelsHold_iff : b.PixelsHold p m0 m i ↔
    (∀ t ∈ (b.footprintOf p i).reads, Memory.read m t.addr.toNat = Memory.read m0 t.addr.toNat) ∧
      ∀ x y k : Nat, (b.operationOf p i).HasPixel x y → k < 3 →
        Before x y (b.seqOuter i) (b.seqInner i) →
        Memory.read m ((b.operationOf p i).outAddr x y + k).toNat =
          (b.operationOf p i).closedForm m0 x y k := by
  cases i with
  | yuv420ToRgb => exact Iff.rfl
  | bgraToRgb =>
    exact and_congr_right fun _ =>
      ⟨fun h x y k hxy => h x y k hxy.1 hxy.2, fun h x y k hx hy => h x y k ⟨hx, hy⟩⟩

/-- `ImageHolds`, for both instructions alike. -/
theorem Block.imageHolds_iff : b.ImageHolds p m0 m i ↔
    ∀ x y k : Nat, (b.operationOf p i).HasPixel x y → k < 3 →
      Memory.read m ((b.operationOf p i).outAddr x y + k).toNat =
        (b.operationOf p i).closedForm m0 x y k := by
  cases i with
  | yuv420ToRgb => exact Iff.rfl
  | bgraToRgb =>
    exact ⟨fun h x y k hxy => h x y k hxy.1 hxy.2, fun h x y k hx hy => h x y k ⟨hx, hy⟩⟩

theorem Operation.HasPixel.lt {op : Operation} {x y : Nat} (h : op.HasPixel x y) :
    (x : Int) < op.outer ∧ (y : Int) < op.inner := by
  cases op with
  | yuv o => exact h
  | bgra o => exact h

/-- Byte `k` of a pixel has a natural address. -/
theorem Operation.HasPixel.toNat_outAddr {op : Operation} {x y : Nat} (h : op.HasPixel x y)
    (k : Nat) : (op.outAddr x y + k).toNat = (op.outAddr x y).toNat + k := by
  have := Operation.outAddr_nonneg h
  omega

/-- With no pixel before the sequencer, unchanged memory is all there is to hold. -/
theorem Block.pixelsHold_of_first (h0 : b.seqOuter i = 0) (h1 : b.seqInner i = 0) :
    b.PixelsHold p m m i := by
  refine Block.pixelsHold_iff.2 ⟨fun _ _ => rfl, fun x y k _ _ hbefore => ?_⟩
  rw [h0, h1] at hbefore
  omega

/-- Finished pixels hold in every memory that has the same bytes of the operation. -/
theorem Block.PixelsHold.of_read (h : b.PixelsHold p m0 m i)
    (hr : ∀ t ∈ (b.footprintOf p i).reads, Memory.read m' t.addr.toNat = Memory.read m t.addr.toNat)
    (hw : ∀ a : Nat, (b.footprintOf p i).HasOutput a → Memory.read m' a = Memory.read m a) :
    b.PixelsHold p m0 m' i := by
  obtain ⟨hin, hout⟩ := Block.pixelsHold_iff.1 h
  refine Block.pixelsHold_iff.2 ⟨fun t ht => (hr t ht).trans (hin t ht), fun x y k hxy hk hb => ?_⟩
  rw [hw _ ?_, hout x y k hxy hk hb]
  have h0 := Operation.outAddr_nonneg hxy
  rw [Int.toNat_of_nonneg (by omega)]
  exact Operation.hasOutput_outAddr hxy hk

/-- What holds of the pixels does not depend on `STATUS`. -/
theorem Block.PixelsHold.setStatus (h : b.PixelsHold p m0 m i) (x y : Bool) :
    (b.setStatus x y).PixelsHold p m0 m i := by cases i <;> exact h

/-- With no pixel left, the finished pixels are the image. -/
theorem Block.PixelsHold.imageHolds (h : b.PixelsHold p m0 m i) (hl : ¬ b.PixelLeft p i) :
    b.ImageHolds p m0 m i := by
  obtain ⟨-, hout⟩ := Block.pixelsHold_iff.1 h
  refine Block.imageHolds_iff.2 fun x y k hxy hk => hout x y k hxy hk (.inl ?_)
  obtain ⟨hx, -⟩ := hxy.lt
  simp only [Block.PixelLeft] at hl
  omega

/-- The advance adds the sequencer's pixel to those before it (R91, R109). -/
theorem Block.before_of_before_advance {x y : Nat} (hy : (y : Int) < (b.operationOf p i).inner)
    (h : Before x y ((b.advance p i).seqOuter i) ((b.advance p i).seqInner i)) :
    Before x y (b.seqOuter i) (b.seqInner i) ∨ x = b.seqOuter i ∧ y = b.seqInner i := by
  rcases b.advance_seq p i with ⟨_, ho, hi⟩ | ⟨_, ho, hi⟩ <;> rw [ho, hi] at h <;> omega
end pixels

/-- A pixel step adds the sequencer's pixel to the finished ones: its inputs are still those of
`m0`, and its bytes are none of an earlier pixel. -/
theorem Block.PixelsHold.pixelDone {s : State} {i : Instr} {m0 : Memory}
    (h : s.block.PixelsHold s.params m0 s.mem i) (hin : s.block.InContract s.params i)
    (hl : s.block.PixelLeft s.params i) :
    (s.block.advance s.params i).PixelsHold s.params m0 (s.pixelDone i).mem i := by
  obtain ⟨hinput, hout⟩ := Block.pixelsHold_iff.1 h
  have hop := Block.operationOf_congr (p := s.params) (i := i) (s.block.advance_arg s.params i)
  have hpix := hin.2.hasPixel hl
  rw [Block.pixelsHold_iff, Block.footprintOf, hop]
  refine ⟨fun t ht => (State.read_pixelDone_input hin hl t ht).trans (hinput t ht),
    fun x y k hxy hk hbefore => ?_⟩
  rcases Block.before_of_before_advance hxy.lt.2 hbefore with hold | ⟨rfl, rfl⟩
  · rw [← hout x y k hxy hk hold]
    have hdistinct : ∀ k' < 3, (s.block.operationOf s.params i).outAddr x y + k ≠
        s.block.outAt s.params i + (k' : Nat) := fun k' hk' e => by
      rw [hin.2.outAt] at e
      obtain ⟨rfl, rfl, -⟩ := Operation.outAddr_inj hxy hpix hk hk' e
      omega
    have h0 := hdistinct 0 (by decide)
    have h1 := hdistinct 1 (by decide)
    have h2 := hdistinct 2 (by decide)
    have hx := Operation.outAddr_nonneg hxy
    have hat := hin.2.outAt_nonneg hl
    exact State.read_pixelDone_of_outside (by omega)
  · rw [hxy.toNat_outAddr, ← hin.2.outAt, State.read_pixelDone_outAt s i hk]
    exact Operation.closedForm_congr hk fun n hn => hinput _ (Operation.touch_mem_reads hpix hn)

/-- What an action on a running instance keeps of its finished pixels; the finish step leaves the
image. -/
theorem Acts.pixelsHold {s t : State} (h : Acts s t) {i : Instr} {m0 : Memory}
    (hb : s.block.busy = true) (hc : s.block.cmd = encode i) (hin : s.block.InContract s.params i)
    (hp : s.block.PixelsHold s.params m0 s.mem i) :
    t.block.PixelsHold s.params m0 t.mem i ∧
      (t.block.busy = false → t.block.ImageHolds s.params m0 t.mem i) := by
  rcases h.block_cases with ⟨_, hidle, _⟩ | ⟨j, _, hj, hl, rfl⟩ | ⟨j, _, hj, hl, rfl⟩ |
    ⟨_, _, hidle, _⟩ | ⟨hblock, hmem⟩
  · simp [hb] at hidle
  · obtain rfl := encode_injective (hc.symm.trans hj)
    refine ⟨hp.pixelDone hin hl, fun hidle => ?_⟩
    rw [State.pixelDone_block, Block.advance_busy, hb] at hidle
    cases hidle
  · obtain rfl := encode_injective (hc.symm.trans hj)
    have hdone := hp.setStatus false true
    refine ⟨hdone, fun _ => hdone.imageHolds ?_⟩
    cases i <;> exact hl
  · simp [hb] at hidle
  · rw [hblock, hmem]
    refine ⟨hp, fun hidle => ?_⟩
    rw [hb] at hidle
    cases hidle

/-- Settles O29: at START no pixel is finished; the instance's own action keeps the finished
pixels, and every other agent's leaves the operation's bytes alone (O54). -/
theorem stepKeepsFinishedPixels : Obligations.StepKeepsFinishedPixels := by
  refine ⟨fun s t i h hidle => ?_, fun s t n b i m0 hinv h hr hb hbusy hc hp => ?_⟩
  · rcases exec_cases h with ⟨_, _, rfl⟩ | ⟨hbusy, _⟩ | ⟨hbusy, _⟩
    · exact Block.pixelsHold_of_first (Block.started_seqOuter ..) (Block.started_seqInner ..)
    · simp [hbusy] at hidle
    · simp [hbusy] at hidle
  · have hparams := (stepKeepsParameters s t h).1
    have hin := (hinv.blockAt hb).inContract hbusy hc
    have hf : b.footprint? s.params = some (b.footprintOf s.params i) :=
      Block.footprint?_eq_some.2 ⟨hbusy, i, decode_eq_ok_iff.2 hc, rfl⟩
    rw [hparams]
    rcases step_at hinv.sel h hr hb with ⟨u, _, ha, rfl, hub⟩ | ⟨hne, htb⟩
    · obtain ⟨-, hblock, -⟩ := State.focus_of_blockAt (s := { s with events := s.events.tail }) hb
      obtain ⟨harg, -, hcmd⟩ := ha.operands_of_busy (by rw [hblock]; exact hbusy)
      have hpix := ha.pixelsHold (i := i) (m0 := m0) (by rw [hblock]; exact hbusy)
        (by rw [hblock]; exact hc) (by rw [hblock, State.focus_params]; exact hin)
        (by rw [hblock, State.focus_params, State.focus_mem]; exact hp)
      rw [State.focus_params] at hpix
      rw [hblock] at harg hcmd
      refine ⟨u.block, hub, harg, hcmd, ?_⟩
      rw [State.focus_mem]
      exact hpix
    · obtain ⟨hreads, hwrites⟩ := buffersOfRunningOperationProtected s t n b _ hinv h hr hb hf
      refine ⟨b, htb, rfl, rfl, hp.of_read hreads (hwrites hne), fun hidle => ?_⟩
      rw [hbusy] at hidle
      cases hidle

/-! ### Progress (43_host_interface.md R125) -/

section remaining
variable {p : Params} {b : Block} {i : Instr}

/-- The remaining steps, for both instructions alike: the pixels from the sequencer's on, and one.
-/
theorem Block.remaining_eq (p : Params) (b : Block) (i : Instr) : b.remaining p i =
    (b.operationOf p i).outer * (b.operationOf p i).inner -
      (b.seqOuter i * (b.operationOf p i).inner + b.seqInner i) + 1 := by
  cases i with
  | yuv420ToRgb => rfl
  | bgraToRgb =>
    simp only [Block.remaining, Block.operationOf, Operation.outer, Operation.inner, Block.seqOuter,
      Block.seqInner, mul_comm]

/-- A pixel step leaves one step less. -/
theorem Block.remaining_advance (hs : b.Sequencer p i) :
    (b.advance p i).remaining p i = b.remaining p i - 1 := by
  obtain ⟨-, hin, -⟩ := hs.range
  rw [Block.remaining_eq, Block.remaining_eq, Block.operationOf_congr (b.advance_arg p i)]
  rcases b.advance_seq p i with ⟨_, ho, hi⟩ | ⟨_, ho, hi⟩
  · rw [ho, hi]; push_cast; omega
  · rw [ho, hi]; push_cast; rw [add_mul, one_mul]; omega

/-- With no pixel left, the finish step is the one remaining. -/
theorem Block.remaining_of_no_pixel (hs : b.Sequencer p i) (hl : ¬ b.PixelLeft p i) :
    b.remaining p i = 1 := by
  obtain ⟨hle, -, h0⟩ := hs.range
  have heq : (b.seqOuter i : Int) = (b.operationOf p i).outer := le_antisymm hle (not_lt.1 hl)
  rw [Block.remaining_eq, h0 heq, heq]
  omega

/-- With a pixel left, the finish step is not the only one remaining. -/
theorem Block.one_lt_remaining (hs : b.Sequencer p i) (hl : b.PixelLeft p i) :
    1 < b.remaining p i := by
  obtain ⟨-, hin, -⟩ := hs.range
  have hrow : ((b.seqOuter i : Int) + 1) * (b.operationOf p i).inner ≤
      (b.operationOf p i).outer * (b.operationOf p i).inner :=
    mul_le_mul_of_nonneg_right (by simp only [Block.PixelLeft] at hl; omega) (by omega)
  rw [add_mul, one_mul] at hrow
  rw [Block.remaining_eq]
  omega
end remaining

/-- Where every byte of the operation may be accessed, so may those of the sequencer's pixel. -/
theorem State.Accessible.pixelOk {s : State} {i : Instr}
    (h : s.Accessible (s.block.footprintOf s.params i)) (hs : s.block.Sequencer s.params i)
    (hl : s.block.PixelLeft s.params i) : s.PixelOk i :=
  ⟨fun _ hn => h.reads _ (Operation.touch_mem_reads (hs.hasPixel hl) hn),
    fun _ hn => h.writes _ (hs.hasOutput_outAt hl hn)⟩

/-- The engine's turn runs the instruction that `CMD` holds (R125). -/
theorem engineTurn_of_busy {s : State} {i : Instr} (hb : s.block.busy = true)
    (hc : s.block.cmd = encode i) : engineTurn s = exec i s := by
  simp only [engineTurn, hb, if_true, decode_eq_ok_iff.2 hc]

/-- Settles O43: a pixel step leaves one step less, and the finish step was the one remaining. -/
theorem engineProgress : Obligations.EngineProgress := by
  refine ⟨fun s i hinv hb hc hacc => ?_, fun b p h0 h1 => ?_, fun b p h0 h1 => ?_⟩
  · have hin := hinv.block.inContract hb hc
    rw [engineTurn_of_busy hb hc]
    by_cases hl : s.block.PixelLeft s.params i
    · refine ⟨_, exec_pixel hb hc hl (hacc.pixelOk hin.2 hl),
        fun _ => Block.remaining_advance hin.2, fun hidle => ?_⟩
      rw [State.pixelDone_block, Block.advance_busy, hb] at hidle
      cases hidle
    · refine ⟨_, exec_finish hb hc hl, fun hbusy => ?_,
        fun _ => Block.remaining_of_no_pixel hin.2 hl⟩
      rw [State.finish_block, Block.setStatus_busy] at hbusy
      cases hbusy
  · simp [Block.remaining, h0, h1]
  · simp [Block.remaining, h0, h1]

/-! ### The engine running alone (log 5) -/

/-- `b` with the counters of `c` that the instruction uses (R20). -/
def Block.withSequencerOf (b c : Block) : Instr → Block
  | .yuv420ToRgb => { b with seqI := c.seqI, seqJ := c.seqJ }
  | .bgraToRgb => { b with seqR := c.seqR, seqC := c.seqC, seqOptr := c.seqOptr }

/-- The advance moves these counters alone. -/
theorem Block.advance_withSequencerOf (b c : Block) (p : Params) (i : Instr) :
    (b.withSequencerOf c i).advance p i =
      b.withSequencerOf ((b.withSequencerOf c i).advance p i) i := by
  cases i with
  | yuv420ToRgb => simp only [Block.advance, Block.advanceYuv_eq]; rfl
  | bgraToRgb => simp only [Block.advance, Block.advanceBgra_eq]; rfl

/-- State `u` is reached from `s` by pixel steps of one running operation alone. -/
structure State.RunsFrom (s u : State) (i : Instr) : Prop where
  same : SameElsewhere s u
  rivals : u.rivals = s.rivals
  block : u.block = s.block.withSequencerOf u.block i
  running : u.block.busy = true ∧ u.block.cmd = encode i
  inContract : u.block.InContract u.params i
  pixels : u.block.PixelsHold u.params s.mem u.mem i
  outside : ∀ a : Nat, ¬ (s.block.footprintOf s.params i).HasOutput a →
    Memory.read u.mem a = Memory.read s.mem a

/-- What the finish step leaves of an operation that ran alone from `s`. -/
structure State.RanFrom (s t : State) (i : Instr) : Prop where
  same : SameElsewhere s t
  block : t.block = (s.block.withSequencerOf t.block i).setStatus false true
  outer : (t.block.seqOuter i : Int) = (s.block.operationOf s.params i).outer
  inner : t.block.seqInner i = 0
  sequencer : t.block.Sequencer s.params i
  image : s.block.ImageHolds s.params s.mem t.mem i
  outside : ∀ a : Nat, ¬ (s.block.footprintOf s.params i).HasOutput a →
    Memory.read t.mem a = Memory.read s.mem a

namespace State.RunsFrom
variable {s u : State} {i : Instr}

theorem operation (h : s.RunsFrom u i) :
    u.block.operationOf u.params i = s.block.operationOf s.params i := by
  rw [h.same.params]
  refine Block.operationOf_congr ?_
  rw [h.block]
  cases i <;> rfl

/-- Permission does not depend on what the operation has written. -/
theorem accessible (h : s.RunsFrom u i) (ha : s.Accessible (s.block.footprintOf s.params i)) :
    u.Accessible (u.block.footprintOf u.params i) := by
  have hnumber : u.peerNumber = s.peerNumber :=
    funext fun n => by simp only [State.peerNumber, h.same.sel]
  have hclash : ∀ clashes a, u.peerClash clashes a = s.peerClash clashes a := fun clashes a => by
    simp only [State.peerClash, State.rivalClash, hnumber, h.same.peers, h.same.params, h.rivals,
      h.same.sel]
  have hread : ∀ a, s.ReadOk a → u.ReadOk a := fun a hok => by
    simpa only [State.ReadOk, State.isDevice, State.mayRead, h.same.params, h.same.regions, hclash]
      using hok
  have hwrite : ∀ a, s.WriteOk a → u.WriteOk a := fun a hok => by
    simpa only [State.WriteOk, State.isDevice, State.mayWrite, h.same.params, h.same.regions, hclash]
      using hok
  rw [Block.footprintOf, h.operation]
  exact ⟨fun t ht => hread _ (ha.reads t ht), fun a hout => hwrite a (ha.writes a hout)⟩

/-- One pixel step more. -/
theorem pixelDone (h : s.RunsFrom u i) (hl : u.block.PixelLeft u.params i) :
    s.RunsFrom (u.pixelDone i) i where
  same := ⟨h.same.params, h.same.peers, h.same.regions, h.same.record, h.same.events,
    h.same.readData, h.same.free, h.same.sel⟩
  rivals := h.rivals
  block := by
    have hadv := s.block.advance_withSequencerOf u.block u.params i
    rwa [← h.block] at hadv
  running := ⟨(Block.advance_busy ..).trans h.running.1, (Block.advance_cmd ..).trans h.running.2⟩
  inContract := h.inContract.advance hl
  pixels := h.pixels.pixelDone h.inContract hl
  outside := fun a ha => by
    rw [State.read_pixelDone_of_not_output h.inContract.2 hl
      (by rw [Block.footprintOf, h.operation]; exact ha)]
    exact h.outside a ha

/-- The finish step. -/
theorem finish (h : s.RunsFrom u i) (hl : ¬ u.block.PixelLeft u.params i) :
    s.RanFrom (u.finish i) i where
  same := ⟨h.same.params, h.same.peers, h.same.regions, h.same.record, h.same.events,
    h.same.readData, h.same.free, h.same.sel⟩
  block := by
    rw [State.finish_block]
    conv_lhs => rw [h.block]
    cases i <;> rfl
  outer := by
    have houter : (u.block.seqOuter i : Int) = (u.block.operationOf u.params i).outer :=
      le_antisymm h.inContract.2.range.1 (not_lt.1 hl)
    rw [← h.operation, ← houter]
    cases i <;> rfl
  inner := by
    have hinner := h.inContract.2.range.2.2
      (le_antisymm h.inContract.2.range.1 (not_lt.1 hl))
    cases i <;> exact hinner
  sequencer := by
    have hs := h.same.params ▸ h.inContract.2
    cases i <;> exact hs
  image := by
    have himage := Block.imageHolds_iff.1 (h.pixels.imageHolds hl)
    rw [h.operation] at himage
    exact Block.imageHolds_iff.2 himage
  outside := h.outside

end State.RunsFrom

/-- With no action left, a BUSY instance 0 takes its turn (log 5). -/
theorem step_of_alone {s : State} {i : Instr} (hrec : s.record = none) (hev : s.events = [])
    (hb : s.block.busy = true) (hc : s.block.cmd = encode i) : step s = exec i s := by
  have hfirst : s.firstBusy = some 0 := by simp [State.firstBusy, hb]
  rw [step_of_idle hrec hev]
  simp only [runIdle, hfirst]
  rw [onBlock_zero, engineTurn_of_busy hb hc]

/-- An operation running alone, `n` pixels before its finish step, is over after `n + 1` steps. -/
theorem State.RunsFrom.run {s : State} {i : Instr} (hrec : s.record = none) (hev : s.events = [])
    (ha : s.Accessible (s.block.footprintOf s.params i)) (n : Nat) :
    ∀ u, s.RunsFrom u i → u.block.remaining u.params i = n + 1 →
      ∃ t, Host.Core.run Sys2Proof.core (n + 1) u = .next t ∧ s.RanFrom t i := by
  induction n with
  | zero =>
    intro u h hrem
    have hl : ¬ u.block.PixelLeft u.params i := fun hl => by
      have := Block.one_lt_remaining h.inContract.2 hl
      omega
    have hstep := step_of_alone (h.same.record.trans hrec) (h.same.events.trans hev) h.running.1
      h.running.2
    rw [exec_finish h.running.1 h.running.2 hl] at hstep
    exact ⟨_, run_succ hstep 0, h.finish hl⟩
  | succ n ih =>
    intro u h hrem
    have hl : u.block.PixelLeft u.params i := by
      by_contra hl
      have := Block.remaining_of_no_pixel h.inContract.2 hl
      omega
    have hstep := step_of_alone (h.same.record.trans hrec) (h.same.events.trans hev) h.running.1
      h.running.2
    have hok := (h.accessible ha).pixelOk h.inContract.2 hl
    rw [exec_pixel h.running.1 h.running.2 hl hok] at hstep
    have hnext : (u.pixelDone i).block.remaining (u.pixelDone i).params i = n + 1 := by
      have := Block.remaining_advance h.inContract.2
      simp only [State.pixelDone_block, State.pixelDone_params]
      omega
    obtain ⟨t, ht, hran⟩ := ih _ (h.pixelDone hl) hnext
    exact ⟨t, (run_succ hstep (n + 1)).trans ht, hran⟩

/-- An operation in contract, at its first pixel and running alone, is over after one step a pixel
and one more. -/
theorem State.runsAlone {s : State} {i : Instr} (hrec : s.record = none) (hev : s.events = [])
    (hb : s.block.busy = true) (hc : s.block.cmd = encode i) (h0 : s.block.seqOuter i = 0)
    (h1 : s.block.seqInner i = 0) (hin : s.block.InContract s.params i)
    (ha : s.Accessible (s.block.footprintOf s.params i)) {n : Nat}
    (hn : (n : Int) =
      (s.block.operationOf s.params i).outer * (s.block.operationOf s.params i).inner) :
    ∃ t, Host.Core.run Sys2Proof.core (n + 1) s = .next t ∧ s.RanFrom t i := by
  refine State.RunsFrom.run hrec hev ha n s ⟨⟨rfl, rfl, rfl, rfl, rfl, rfl, rfl, rfl⟩, rfl, ?_,
    ⟨hb, hc⟩, hin, Block.pixelsHold_of_first h0 h1, fun _ _ => rfl⟩ ?_
  · cases i <;> rfl
  · rw [Block.remaining_eq, h0, h1, ← hn]
    omega

/-- Settles O22: the run of `YUV420_TO_RGB` alone, with the closed form's formulas as the spec
writes them. -/
theorem yuvClosedForm : Obligations.YuvClosedForm := by
  intro s hrec hev hb hc h0 h1 hcon ha o
  have hw : 1 ≤ o.width := hcon.width
  have hh : 1 ≤ o.height := hcon.height
  have hn : ((o.width.toNat * o.height.toNat : Nat) : Int) = o.width * o.height := by
    push_cast
    rw [Int.toNat_of_nonneg (by omega), Int.toNat_of_nonneg (by omega)]
  obtain ⟨t, ht, hran⟩ := State.runsAlone (i := .yuv420ToRgb) hrec hev hb (hc.trans encode_yuv.symm)
    h0 h1 ⟨hcon, .of_first hcon h0 h1 (by simp only [Block.outAt, h0, h1]; rfl)⟩ ha hn
  refine ⟨t, ht, hran.same, ?_, fun i j hij => ?_, hran.outside⟩
  · have houter : (t.block.seqI : Int) = o.width := hran.outer
    have hinner : t.block.seqJ = 0 := hran.inner
    rw [hran.block, ← houter, Int.toNat_natCast, ← hinner]
    rfl
  · have hpix : (Operation.yuv o).HasPixel i j := hij
    have hbyte : ∀ k < 3,
        Memory.read t.mem ((o.outAddr i j).toNat + k) = o.closedForm s.mem i j k :=
      fun k hk => (congrArg (Memory.read t.mem) (hpix.toNat_outAddr k).symm).trans
        (hran.image i j k hij hk)
    exact ⟨hbyte 0 (by decide), hbyte 1 (by decide), hbyte 2 (by decide)⟩

/-- Settles O28: the run of `BGRA_TO_RGB` alone. -/
theorem bgraClosedForm : Obligations.BgraClosedForm := by
  intro s hrec hev hb hc h0 h1 hptr hcon ha o
  have hw : 1 ≤ o.width := hcon.width
  have hh : 1 ≤ o.height := hcon.height
  have hn : ((o.width.toNat * o.height.toNat : Nat) : Int) = o.height * o.width := by
    push_cast
    rw [Int.toNat_of_nonneg (by omega), Int.toNat_of_nonneg (by omega), mul_comm]
  have hfirst : s.block.outAt s.params .bgraToRgb = o.outAddr 0 0 := by
    simp [Block.outAt, hptr, BgraOperands.outAddr, o]
  obtain ⟨t, ht, hran⟩ := State.runsAlone (i := .bgraToRgb) hrec hev hb (hc.trans encode_bgra.symm)
    h0 h1 ⟨hcon, .of_first hcon h0 h1 hfirst⟩ ha hn
  refine ⟨t, ht, hran.same, ?_, fun r c hr hcol => ?_, hran.outside⟩
  · have houter : (t.block.seqR : Int) = o.height := hran.outer
    have hinner : t.block.seqC = 0 := hran.inner
    have hops : t.block.bgraOperands s.params = o :=
      Block.bgraOperands_congr (by rw [hran.block]; rfl)
    have hend : t.block.seqOptr = o.rgbBase + 3 * o.width.toNat * o.height.toNat := by
      obtain ⟨-, -, -, hat⟩ := hran.sequencer
      rw [hops, hinner, houter, ← hn] at hat
      push_cast at hat
      zify
      rw [mul_assoc, hat, add_zero]
    rw [← hend, ← houter, Int.toNat_natCast, ← hinner]
    exact hran.block
  · have hpix : (Operation.bgra o).HasPixel r c := ⟨hr, hcol⟩
    have hbyte : ∀ k < 3,
        Memory.read t.mem ((o.outAddr r c).toNat + k) = o.closedForm s.mem r c k :=
      fun k hk => (congrArg (Memory.read t.mem) (hpix.toNat_outAddr k).symm).trans
        (hran.image r c k hr hcol hk)
    exact ⟨hbyte 0 (by decide), hbyte 1 (by decide), hbyte 2 (by decide)⟩

end Sys2Proof.Machine
end

section
/-!
PROOFS. START, where it completes and where it stops, and the finish step (41_yuv420_to_rgb.md R80,
R92, 42_bgra_to_rgb.md R102, R110, 43_host_interface.md R117, 60_exceptions.md R132, R137).
-/
namespace Sys2Proof.Machine

/-! ### START in contract and the finish step -/

/-- Settles O13: in contract START's checks find no fault, and START writes CMD, STATUS and SEQ. -/
theorem yuvStartCompletes : Obligations.YuvStartCompletes :=
  fun _ hb hc => exec_start (i := .yuv420ToRgb) hb hc

/-- Settles O14: the one operand copied is `RGB_BASE`. -/
theorem bgraStartCompletes : Obligations.BgraStartCompletes :=
  fun _ hb hc => exec_start (i := .bgraToRgb) hb hc

/-- Settles O19: with `SEQ.I` at the width no pixel step is enabled, so the step is the finish
step. -/
theorem yuvFinishStep : Obligations.YuvFinishStep :=
  fun _ hb hc hl => exec_finish (i := .yuv420ToRgb) hb (hc.trans encode_yuv.symm) (not_lt.2 hl)

/-- Settles O24: with `SEQ.R` at the height no pixel step is enabled, so the step is the finish
step. -/
theorem bgraFinishStep : Obligations.BgraFinishStep :=
  fun _ hb hc hl => exec_finish (i := .bgraToRgb) hb (hc.trans encode_bgra.symm) (not_lt.2 hl)

/-- Settles O33: presented to an instance that runs the other operation, either instruction is a
forbidden write of `CMD`. -/
theorem otherCommandWhileBusyStops : Obligations.OtherCommandWhileBusyStops := by
  intro s i hb hc
  cases i with
  | yuv420ToRgb => rw [exec, execYuv420ToRgb, if_pos hb, if_neg hc]
  | bgraToRgb => rw [exec, execBgraToRgb, if_pos hb, if_neg hc]

/-! ### START's checks, for both instructions alike -/

/-- What START finds at fault (R137). -/
def Block.startFault? (p : Params) (b : Block) : Instr → Option Fault
  | .yuv420ToRgb => yuvStartFault? p b
  | .bgraToRgb => bgraStartFault? p b

/-- The check of the geometry (R80 CY1, CY8; R102 CB1, CB2, CB9). -/
def Block.badGeometry? (p : Params) (b : Block) : Instr → Option Fault
  | .yuv420ToRgb => (b.yuvOperands p).badGeometry? p
  | .bgraToRgb => (b.bgraOperands p).badGeometry? p

/-- The check of the index equations (R80 CY3, R102 CB4). -/
def Block.overflow? (p : Params) (b : Block) : Instr → Option Fault
  | .yuv420ToRgb => (b.yuvOperands p).overflow? p
  | .bgraToRgb => (b.bgraOperands p).overflow? p

/-- The classes in the order of R137. -/
theorem Block.startFault?_eq (p : Params) (b : Block) (i : Instr) :
    b.startFault? p i = (b.unwritten? i).or
      ((b.badGeometry? p i).or ((b.overflow? p i).or (b.footprintOf p i).overlapFault?)) := by
  cases i <;> rfl

/-- An operation names the operand registers from 0 up (30_encoding.md R57). -/
theorem operandRegisters_getElem (i : Instr) :
    ∀ k (h : k < (operandRegisters i).length), ((operandRegisters i)[k]).val = k := by
  cases i <;> decide

/-- The lowest register that was never written is the one named (log 22). -/
theorem Block.unwritten?_eq_some {b : Block} {i : Instr} {n : Fin 8} (hn : n ∈ operandRegisters i)
    (h0 : b.written[n] = false) (hlt : ∀ m : Fin 8, m < n → b.written[m] = true) :
    b.unwritten? i = some (.unwrittenOperand n) := by
  obtain ⟨k, hk, hkn⟩ := List.getElem_of_mem hn
  have hfind : (operandRegisters i).find? (fun m => !b.written[m]) = some n := by
    refine List.find?_eq_some_iff_getElem.2 ⟨by simpa using h0, k, hk, hkn, fun j hj => ?_⟩
    have hlow : (operandRegisters i)[j] < n := by
      rw [← hkn, Fin.lt_def, operandRegisters_getElem, operandRegisters_getElem]
      exact hj
    simpa using hlt _ hlow
  rw [Block.unwritten?, hfind, Option.map_some]

/-- An index check names some equation of its operation. -/
theorem Block.overflow?_eq_some {p : Params} {b : Block} {i : Instr} {f : Fault}
    (h : b.overflow? p i = some f) : ∃ e, f = .indexOverflow i e := by
  cases i with
  | yuv420ToRgb =>
    change (b.yuvOperands p).overflow? p = some f at h
    unfold YuvOperands.overflow? at h
    split at h
    · next e _ => exact ⟨e, (Option.some.inj h).symm⟩
    · split at h
      · cases h
      · exact ⟨.outputEnd, (Option.some.inj h).symm⟩
  | bgraToRgb =>
    change (b.bgraOperands p).overflow? p = some f at h
    unfold BgraOperands.overflow? at h
    split at h
    · exact ⟨.bgra, (Option.some.inj h).symm⟩
    · split at h
      · exact ⟨.output, (Option.some.inj h).symm⟩
      · split at h
        · cases h
        · exact ⟨.outputEnd, (Option.some.inj h).symm⟩

/-- The byte named by an overlap is one of both sets (20_memory.md R52). -/
theorem Footprint.overlapFault?_of_not_disjoint {f : Footprint} (h : ¬ f.Disjoint) :
    ∃ a, f.overlapFault? = some (.inOutOverlap a) ∧ f.HasInput a ∧ f.HasOutput a := by
  obtain ⟨x, hx⟩ := Option.ne_none_iff_exists'.1 (mt Footprint.overlapFault?_eq_none.1 h)
  rw [Footprint.overlapFault?, Footprint.overlap?, Option.map_map] at hx ⊢
  obtain ⟨u, hu, _⟩ := Option.map_eq_some_iff.1 hx
  exact ⟨u.addr, by rw [hu]; rfl, ⟨u, List.mem_of_find?_eq_some hu, rfl⟩,
    by simpa using List.find?_some hu⟩

section stops
variable {s : State} {i : Instr}

/-- Presented to an idle instance, the instruction stops with the fault that START's checks find. -/
theorem exec_of_startFault {f : Fault} (hb : s.block.busy = false)
    (hf : s.block.startFault? s.params i = some f) : exec i s = .fault f := by
  cases i with
  | yuv420ToRgb => exact exec_yuv_of_startFault hb hf
  | bgraToRgb =>
    have hf' : bgraStartFault? s.params s.block = some f := hf
    simp only [exec, execBgraToRgb, hb, Bool.false_eq_true, if_false, bgraStart, hf']

theorem exec_unwritten {n : Fin 8} (hb : s.block.busy = false) (hn : n ∈ operandRegisters i)
    (h0 : s.block.written[n] = false) (hlt : ∀ m : Fin 8, m < n → s.block.written[m] = true) :
    exec i s = .fault (.unwrittenOperand n) := by
  refine exec_of_startFault hb ?_
  rw [Block.startFault?_eq, Block.unwritten?_eq_some hn h0 hlt, Option.some_or]

theorem exec_badGeometry {f : Fault} (hb : s.block.busy = false)
    (hw : ∀ n ∈ operandRegisters i, s.block.written[n] = true)
    (hf : s.block.badGeometry? s.params i = some f) : exec i s = .fault f := by
  refine exec_of_startFault hb ?_
  rw [Block.startFault?_eq, Block.unwritten?_eq_none.2 hw, hf, Option.none_or, Option.some_or]

theorem exec_overflow (hb : s.block.busy = false)
    (hw : ∀ n ∈ operandRegisters i, s.block.written[n] = true)
    (hg : s.block.badGeometry? s.params i = none) (ho : s.block.overflow? s.params i ≠ none) :
    ∃ e, exec i s = .fault (.indexOverflow i e) := by
  obtain ⟨f, hf⟩ := Option.ne_none_iff_exists'.1 ho
  obtain ⟨e, rfl⟩ := Block.overflow?_eq_some hf
  refine ⟨e, exec_of_startFault hb ?_⟩
  rw [Block.startFault?_eq, Block.unwritten?_eq_none.2 hw, hg, hf, Option.none_or, Option.none_or,
    Option.some_or]

theorem exec_overlap (hb : s.block.busy = false)
    (hw : ∀ n ∈ operandRegisters i, s.block.written[n] = true)
    (hg : s.block.badGeometry? s.params i = none) (ho : s.block.overflow? s.params i = none)
    (hd : ¬ (s.block.footprintOf s.params i).Disjoint) :
    ∃ a, exec i s = .fault (.inOutOverlap a) ∧ (s.block.footprintOf s.params i).HasInput a ∧
      (s.block.footprintOf s.params i).HasOutput a := by
  obtain ⟨a, ha, hin, hout⟩ := Footprint.overlapFault?_of_not_disjoint hd
  refine ⟨a, exec_of_startFault hb ?_, hin, hout⟩
  rw [Block.startFault?_eq, Block.unwritten?_eq_none.2 hw, hg, ho, ha, Option.none_or,
    Option.none_or, Option.none_or]
end stops

/-! ### The order of the classes -/

/-- Settles O15: START's checks are alternatives in the order of the classes, and each finds a fault
exactly where its clause is broken. -/
theorem yuvStartFaultOrder : Obligations.YuvStartFaultOrder := by
  intro s hb o al
  have hall : ∀ n : Fin 8, n ∈ operandRegisters .yuv420ToRgb := by decide
  refine ⟨fun n h0 hlt => exec_unwritten hb (hall n) h0 hlt, fun hwritten => ?_⟩
  have hw : ∀ n ∈ operandRegisters .yuv420ToRgb, s.block.written[n] = true := fun n _ => hwritten n
  have hgeom : 1 ≤ o.width → 1 ≤ o.height → o.pp % al = 0 → o.pr % al = 0 →
      s.block.badGeometry? s.params .yuv420ToRgb = none := fun h1 h2 h3 h4 =>
    YuvOperands.badGeometry?_eq_none.2 ⟨h1, h2, h3, h4⟩
  refine ⟨fun h1 => exec_badGeometry hb hw (YuvOperands.badGeometry?_width h1),
    fun h1 h2 => exec_badGeometry hb hw (YuvOperands.badGeometry?_height h1 h2),
    fun h1 h2 h3 => exec_badGeometry hb hw ?_, fun h1 h2 h3 h4 => exec_badGeometry hb hw ?_,
    fun h1 h2 h3 h4 h5 => exec_overflow hb hw (hgeom h1 h2 h3 h4) fun hnone => ?_,
    fun h1 h2 h3 h4 h5 h6 h7 => exec_overlap hb hw (hgeom h1 h2 h3 h4)
      ((YuvOperands.overflow?_eq_none h1 h2).2 ⟨h5, h6⟩) h7⟩
  · exact (if_neg (not_lt.2 h1)).trans ((if_neg (not_lt.2 h2)).trans (if_pos h3))
  · exact (if_neg (not_lt.2 h1)).trans ((if_neg (not_lt.2 h2)).trans
      ((if_neg (not_not.2 h3)).trans (if_pos h4)))
  · obtain ⟨hfits, hend⟩ := (YuvOperands.overflow?_eq_none h1 h2).1 hnone
    rcases h5 with ⟨i, j, hij, hbad⟩ | hbad
    · exact hbad (hfits i j hij)
    · exact not_lt.2 hbad hend

/-- Settles O16: the same for `BGRA_TO_RGB`, which reads five operand registers. -/
theorem bgraStartFaultOrder : Obligations.BgraStartFaultOrder := by
  intro s hb o al
  have hmem : ∀ n : Fin 8, n ∈ operandRegisters .bgraToRgb ↔ n < 5 := by decide
  refine ⟨fun n hn h0 hlt => exec_unwritten hb ((hmem n).2 hn) h0 hlt, fun hwritten => ?_⟩
  have hw : ∀ n ∈ operandRegisters .bgraToRgb, s.block.written[n] = true := fun n hn =>
    hwritten n ((hmem n).1 hn)
  have hgeom : 1 ≤ o.width → 1 ≤ o.height → 4 * o.width ≤ o.rowBytes → o.rowBytes % al = 0 →
      s.block.badGeometry? s.params .bgraToRgb = none := fun h1 h2 h3 h4 =>
    BgraOperands.badGeometry?_eq_none.2 ⟨h1, h2, h3, h4⟩
  refine ⟨fun h1 => exec_badGeometry hb hw (if_pos h1),
    fun h1 h2 => exec_badGeometry hb hw ((if_neg (not_lt.2 h1)).trans (if_pos h2)),
    fun h1 h2 h3 => exec_badGeometry hb hw ?_,
    fun h1 h2 h3 h4 h5 => exec_overflow hb hw (hgeom h1 h2 h3 h4) fun hnone => ?_,
    fun h1 h2 h3 h4 h5 h6 h7 h8 => exec_overlap hb hw (hgeom h1 h2 h3 h4)
      (BgraOperands.overflow?_eq_none.2 ⟨h5, h6, h7⟩) h8⟩
  · refine (if_neg (not_lt.2 h1)).trans ((if_neg (not_lt.2 h2)).trans ?_)
    by_cases hshort : o.rowBytes < 4 * o.width
    · exact if_pos hshort
    · exact (if_neg hshort).trans (if_pos (h3.resolve_left hshort))
  · obtain ⟨hin, hout, hend⟩ := BgraOperands.overflow?_eq_none.1 hnone
    rcases h5 with hbad | hbad | hbad
    · exact hbad hin
    · exact hbad hout
    · exact not_lt.2 hend hbad

end Sys2Proof.Machine
end

section
/-!
PROOFS. The engine's steps: the visit order, the frame of each instruction, and what a pixel step of
`BGRA_TO_RGB` writes depends on (41_yuv420_to_rgb.md R77, R91, 42_bgra_to_rgb.md R100, R109, R112).
-/
namespace Sys2Proof.Machine

/-! ### The visit order -/

/-- The next place in order of quotient and remainder. -/
theorem div_mod_succ {n h : Nat} (hh : 0 < h) :
    (n % h + 1 < h ∧ (n + 1) / h = n / h ∧ (n + 1) % h = n % h + 1) ∨
      (n % h + 1 = h ∧ (n + 1) / h = n / h + 1 ∧ (n + 1) % h = 0) := by
  have hn := Nat.mod_add_div n h
  have hlt := Nat.mod_lt n hh
  by_cases hin : n % h + 1 < h
  · exact .inl ⟨hin, (Nat.div_mod_unique hh).2 ⟨by omega, hin⟩⟩
  · exact .inr ⟨by omega, (Nat.div_mod_unique hh).2 ⟨by rw [mul_add, mul_one]; omega, hh⟩⟩

/-- From place `n` of the image a BUSY instance takes a pixel step, to place `n + 1`. -/
theorem exec_visits {i : Instr} {s t : State} {n : Nat} (h : exec i s = .next t)
    (hb : s.block.busy = true) (hn : n < (s.block.operationOf s.params i).outer.toNat *
      (s.block.operationOf s.params i).inner.toNat)
    (h0 : s.block.seqOuter i = n / (s.block.operationOf s.params i).inner.toNat)
    (h1 : s.block.seqInner i = n % (s.block.operationOf s.params i).inner.toNat) :
    t = s.pixelDone i ∧
      t.block.seqOuter i = (n + 1) / (s.block.operationOf s.params i).inner.toNat ∧
      t.block.seqInner i = (n + 1) % (s.block.operationOf s.params i).inner.toNat := by
  have hinner : 0 < (s.block.operationOf s.params i).inner.toNat :=
    Nat.pos_of_mul_pos_left (Nat.zero_lt_of_lt hn)
  have hleft : s.block.PixelLeft s.params i := by
    have hlt : s.block.seqOuter i < (s.block.operationOf s.params i).outer.toNat := by
      rw [h0]; exact Nat.div_lt_of_lt_mul (by rwa [mul_comm])
    simp only [Block.PixelLeft]
    omega
  rcases exec_cases h with ⟨hidle, _⟩ | ⟨_, _, _, _, rfl⟩ | ⟨_, _, hnone, _⟩
  · simp [hb] at hidle
  · refine ⟨rfl, ?_⟩
    rw [State.pixelDone_block]
    rcases s.block.advance_seq s.params i with ⟨_, ho, hi⟩ | ⟨_, ho, hi⟩ <;>
      rcases div_mod_succ (n := n) hinner with ⟨_, hd, hm⟩ | ⟨_, hd, hm⟩ <;>
      omega
  · exact absurd hleft hnone

/-- Settles O20: the outer counter is the column, the inner one the row. -/
theorem yuvVisitOrder : Obligations.YuvVisitOrder := by
  intro s t n hb w h hn hi hj hexec
  obtain ⟨-, hvisits⟩ := exec_visits (i := .yuv420ToRgb) hexec hb hn hi hj
  exact hvisits

/-- Settles O25: the outer counter is the row, the inner one the column, and the pointer moves by
3. -/
theorem bgraVisitOrder : Obligations.BgraVisitOrder := by
  intro s t n hb w h hn hr hc hexec
  obtain ⟨rfl, hr', hc'⟩ :=
    exec_visits (i := .bgraToRgb) hexec hb (by rwa [mul_comm w h] at hn) hr hc
  exact ⟨hr', hc', Block.advanceBgra_seqOptr ..⟩

/-! ### The frame -/

/-- The frame of an instruction but for the counters it does not use. -/
theorem exec_frame {i : Instr} {s t : State} (h : exec i s = .next t) :
    t.block.arg = s.block.arg ∧ t.block.written = s.block.written ∧
    (s.block.busy = true → t.block.cmd = s.block.cmd) ∧
    (s.block.busy = true → s.block.PixelLeft s.params i → t.block.status = s.block.status ∧
      ∀ a : Nat, ¬ (s.block.outAt s.params i ≤ a ∧ (a : Int) < s.block.outAt s.params i + 3) →
        Memory.read t.mem a = Memory.read s.mem a) ∧
    ((s.block.busy = false ∨ ¬ s.block.PixelLeft s.params i) →
      ∀ a : Nat, Memory.read t.mem a = Memory.read s.mem a) ∧
    ((s.block.busy = false ∨ s.block.PixelLeft s.params i) →
      t.unread = s.unread ∧ t.rivals = s.rivals) := by
  rcases exec_cases h with ⟨hb, _, rfl⟩ | ⟨hb, _, hl, ⟨_, hw⟩, rfl⟩ | ⟨hb, _, hl, rfl⟩
  · have hbusy : s.block.busy ≠ true := by simp [hb]
    exact ⟨Block.started_arg .., Block.started_written .., fun hb => absurd hb hbusy,
      fun hb => absurd hb hbusy, fun _ _ => rfl, fun _ => ⟨rfl, rfl⟩⟩
  · have hidle : ¬ (s.block.busy = false ∨ ¬ s.block.PixelLeft s.params i) := by simp [hb, hl]
    have h0 : 0 ≤ s.block.outAt s.params i := by have := (hw 0 (by decide)).1.1; omega
    exact ⟨Block.advance_arg .., Block.advance_written .., fun _ => Block.advance_cmd ..,
      fun _ _ => ⟨Block.advance_status .., fun a ha => State.read_pixelDone_of_outside (by omega)⟩,
      fun hcase => absurd hcase hidle, fun _ => ⟨rfl, rfl⟩⟩
  · have hrest : ¬ (s.block.busy = false ∨ s.block.PixelLeft s.params i) := by simp [hb, hl]
    exact ⟨rfl, rfl, fun _ => rfl, fun _ hleft => absurd hleft hl, fun _ _ => rfl,
      fun hcase => absurd hcase hrest⟩

/-- Settles O21: no step of `YUV420_TO_RGB` moves the counters of the other instruction. -/
theorem yuvFrame : Obligations.YuvFrame := by
  intro s t h o
  obtain ⟨harg, hwritten, hcmd, hpixel, hmem, hnotes⟩ := exec_frame h
  have hcounters : t.block.seqR = s.block.seqR ∧ t.block.seqC = s.block.seqC ∧
      t.block.seqOptr = s.block.seqOptr := by
    rcases exec_yuv_cases h with ⟨_, _, rfl⟩ | ⟨_, _, _, _, rfl⟩ | ⟨_, _, _, rfl⟩
    · exact ⟨rfl, rfl, rfl⟩
    · exact ⟨Block.advanceYuv_seqR .., Block.advanceYuv_seqC .., Block.advanceYuv_seqOptr ..⟩
    · exact ⟨rfl, rfl, rfl⟩
  obtain ⟨hr, hc, hptr⟩ := hcounters
  exact ⟨exec_same h, harg, hwritten, hr, hc, hptr, hcmd, hpixel,
    fun hcase => hmem (hcase.imp_right not_lt.2), hnotes⟩

/-- Settles O27: no step of `BGRA_TO_RGB` moves the counters of the other instruction, and the
finish step moves none. -/
theorem bgraFrame : Obligations.BgraFrame := by
  intro s t h o
  obtain ⟨harg, hwritten, hcmd, hpixel, hmem, hnotes⟩ := exec_frame h
  have hcounters : (t.block.seqI = s.block.seqI ∧ t.block.seqJ = s.block.seqJ) ∧
      (s.block.busy = true → o.height ≤ s.block.seqR → t.block.seqR = s.block.seqR ∧
        t.block.seqC = s.block.seqC ∧ t.block.seqOptr = s.block.seqOptr) := by
    rcases exec_bgra_cases h with ⟨hb, _, rfl⟩ | ⟨_, _, hl, _, rfl⟩ | ⟨_, _, _, rfl⟩
    · exact ⟨⟨rfl, rfl⟩, fun hbusy => by simp [hb] at hbusy⟩
    · exact ⟨⟨Block.advanceBgra_seqI .., Block.advanceBgra_seqJ ..⟩,
        fun _ hge => absurd hl (not_lt.2 hge)⟩
    · exact ⟨⟨rfl, rfl⟩, fun _ _ => ⟨rfl, rfl, rfl⟩⟩
  obtain ⟨⟨hi, hj⟩, hfinish⟩ := hcounters
  refine ⟨exec_same h, harg, hwritten, hi, hj, hcmd, fun hb hl => ?_,
    fun hcase => hmem (hcase.imp_right not_lt.2), hfinish, hnotes⟩
  obtain ⟨hstatus, hbytes⟩ := hpixel hb hl
  exact ⟨hstatus, fun a ha => hbytes a (by simp only [Block.outAt]; omega)⟩

/-! ### What never reaches the output (42_bgra_to_rgb.md R112) -/

/-- A pixel step of a BUSY instance puts lanes 2, 1, 0 at the output pointer. -/
theorem exec_bgra_bytes {s t : State} (h : exec .bgraToRgb s = .next t) (hb : s.block.busy = true)
    (hl : (s.block.seqR : Int) < (s.block.bgraOperands s.params).height) {k : Nat} (hk : k < 3) :
    Memory.read t.mem (s.block.seqOptr + k) = Memory.read s.mem
      ((s.block.bgraOperands s.params).lane s.block.seqR s.block.seqC (2 - k)).addr.toNat := by
  rcases exec_cases h with ⟨hidle, _⟩ | ⟨_, _, _, _, rfl⟩ | ⟨_, _, hnone, _⟩
  · simp [hb] at hidle
  · exact State.read_pixelDone_outAt s .bgraToRgb hk
  · exact absurd hl hnone

/-- Settles O26: either memory's step writes lanes 2, 1, 0, on which the two agree. -/
theorem alphaAndPaddingNeverReachOutput : Obligations.AlphaAndPaddingNeverReachOutput := by
  intro s t t' m hb o hl hagree h h' k hk
  have hbyte' := exec_bgra_bytes h' hb hl hk
  rw [exec_bgra_bytes h hb hl hk, ← hagree (2 - k) (by omega)]
  exact hbyte'

end Sys2Proof.Machine
end

section
/-!
PROOFS. Where a pixel step stops, and what a launch keeps of it (20_memory.md R41, R44, R54,
60_exceptions.md R132, R134, R141).
-/
namespace Sys2Proof.Machine

/-! ### The engine's step, for both instructions alike -/

/-- The enabled engine step and how far it comes (R90, R92, R108, R110). -/
def engineStep : Instr → State → Reached
  | .yuv420ToRgb => yuvEngine
  | .bgraToRgb => bgraEngine

/-- The column and the row of the sequencer's pixel (R79, R103). -/
def Block.pixelColumn (b : Block) : Instr → Nat
  | .yuv420ToRgb => b.seqI
  | .bgraToRgb => b.seqC

def Block.pixelRow (b : Block) : Instr → Nat
  | .yuv420ToRgb => b.seqJ
  | .bgraToRgb => b.seqR

/-- What a pack of bytes from `a` has written before byte `n` (R134). -/
def State.packedPart (s : State) (a : Int) (x y : Byte) : Nat → State
  | 0 => s
  | 1 => s.store a.toNat x
  | _ => (s.store a.toNat x).store (a + 1).toNat y

theorem exec_of_running {i : Instr} {s : State} (hb : s.block.busy = true)
    (hc : s.block.cmd = encode i) : exec i s = outcomeOf (engineStep i s) := by
  cases i with
  | yuv420ToRgb => rw [exec, execYuv420ToRgb, if_pos hb, if_pos hc]; rfl
  | bgraToRgb => rw [exec, execBgraToRgb, if_pos hb, if_pos hc]; rfl

theorem engineReached_of_running {i : Instr} {s : State} (hb : s.block.busy = true)
    (hc : s.block.cmd = encode i) : engineReached s = (engineStep i s).state := by
  rw [engineReached, if_pos hb, decode_eq_ok_iff.2 hc]
  cases i <;> rfl

/-- A pack stops at the first byte it may not write, with the bytes before it written. -/
theorem State.pack_stop {s : State} {a : Int} {c r n : Nat} {x y z : Byte} {e : Stop} (hn : n < 3)
    (hw : ∀ m < n, s.WriteOk (a + (m : Nat)))
    (he : ∀ v, s.engineWrite (a + (n : Nat)) c r v = .error e) :
    s.pack a c r x y z = ⟨s.packedPart a x y n, some e⟩ := by
  have hfirst : 0 < n → s.WriteOk a := fun h => by simpa using hw 0 h
  obtain rfl | rfl | rfl : n = 0 ∨ n = 1 ∨ n = 2 := by omega
  · exact State.pack_stop_zero (by simpa using he x)
  · exact State.pack_stop_one (hfirst (by decide)) (he y)
  · exact State.pack_stop_two (hfirst (by decide)) (hw 1 (by decide)) (he z)

section stops
variable {i : Instr} {s : State} {n : Nat} {e : Stop}

/-- A pixel step stops at the first read it may not make, and has written nothing. -/
theorem engineStep_stop_read (hl : s.block.PixelLeft s.params i) (hn : n < readCount i)
    (hk : ∀ m < n, s.ReadOk (s.pixelTouch i m).addr)
    (h : s.engineRead (s.pixelTouch i n) = .error e) : engineStep i s = ⟨s, some e⟩ := by
  cases i with
  | yuv420ToRgb => exact (if_pos hl).trans (yuvPixel_stop_read hn hk h)
  | bgraToRgb => exact (if_pos hl).trans (bgraPixel_stop_read hn hk h)

/-- With its reads permitted, a pixel step is the pack of the closed form's bytes, and what follows
it. -/
theorem engineStep_of_reads (hl : s.block.PixelLeft s.params i)
    (hk : ∀ m < readCount i, s.ReadOk (s.pixelTouch i m).addr) :
    ∃ next, engineStep i s = (s.pack (s.block.outAt s.params i) (s.block.pixelColumn i)
      (s.block.pixelRow i)
      (s.pixelByte i 0) (s.pixelByte i 1) (s.pixelByte i 2)).andThen next := by
  cases i with
  | yuv420ToRgb => exact ⟨_, (if_pos hl).trans (yuvPixel_of_reads hk)⟩
  | bgraToRgb => exact ⟨_, (if_pos hl).trans (bgraPixel_of_reads hk)⟩

/-- A pixel step stops at the first write it may not make, with the bytes before it written. -/
theorem engineStep_stop_write (hl : s.block.PixelLeft s.params i)
    (hk : ∀ m < readCount i, s.ReadOk (s.pixelTouch i m).addr) (hn : n < 3)
    (hw : ∀ m < n, s.WriteOk (s.block.outAt s.params i + (m : Nat)))
    (he : ∀ v, s.engineWrite (s.block.outAt s.params i + (n : Nat)) (s.block.pixelColumn i)
      (s.block.pixelRow i) v = .error e) :
    engineStep i s = ⟨s.packedPart (s.block.outAt s.params i) (s.pixelByte i 0) (s.pixelByte i 1) n,
      some e⟩ := by
  obtain ⟨next, hstep⟩ := engineStep_of_reads hl hk
  rw [hstep, State.pack_stop hn hw he, Reached.andThen_some]

/-- The instruction stops with the fault of the read that stops its pixel step. -/
theorem exec_stop_read {f : Fault} (hb : s.block.busy = true) (hc : s.block.cmd = encode i)
    (hl : s.block.PixelLeft s.params i) (hn : n < readCount i)
    (hk : ∀ m < n, s.ReadOk (s.pixelTouch i m).addr)
    (h : s.engineRead (s.pixelTouch i n) = .error (.fault f)) : exec i s = .fault f := by
  rw [exec_of_running hb hc, engineStep_stop_read hl hn hk h, outcomeOf]

/-- The instruction stops with the fault of the write that stops its pixel step. -/
theorem exec_stop_write {f : Fault} (hb : s.block.busy = true) (hc : s.block.cmd = encode i)
    (hl : s.block.PixelLeft s.params i)
    (hk : ∀ m < readCount i, s.ReadOk (s.pixelTouch i m).addr) (hn : n < 3)
    (hw : ∀ m < n, s.WriteOk (s.block.outAt s.params i + (m : Nat)))
    (he : ∀ v, s.engineWrite (s.block.outAt s.params i + (n : Nat)) (s.block.pixelColumn i)
      (s.block.pixelRow i) v = .error (.fault f)) : exec i s = .fault f := by
  rw [exec_of_running hb hc, engineStep_stop_write hl hk hn hw he, outcomeOf]
end stops

/-! ### One access -/

section access
variable {s : State} {t : Touch} {a : Int}

theorem State.engineRead_device (hin : Params.InSpace s.params t.addr)
    (hd : s.isDevice t.addr.toNat = true) :
    s.engineRead t = .error (.refused (.deviceMemory t.addr.toNat)) :=
  State.engineRead_eq_error.2 (.inr (.inl ⟨hin, hd, rfl⟩))

theorem State.engineRead_outside (hin : Params.InSpace s.params t.addr)
    (hd : s.isDevice t.addr.toNat = false) (hm : s.mayRead t.addr.toNat = false) :
    s.engineRead t = .error (.fault (.readOutOfBuffer t.addr t.column t.row t.plane)) :=
  State.engineRead_eq_error.2 (.inr (.inr (.inl ⟨hin, hd, hm, rfl⟩)))

theorem State.engineWrite_device (hin : Params.InSpace s.params a) (hd : s.isDevice a.toNat = true)
    (c r : Nat) (v : Byte) : s.engineWrite a c r v = .error (.refused (.deviceMemory a.toNat)) :=
  State.engineWrite_eq_error.2 (.inr (.inl ⟨hin, hd, rfl⟩))

theorem State.engineWrite_outside (hin : Params.InSpace s.params a)
    (hd : s.isDevice a.toNat = false) (hm : s.mayWrite a.toNat = false) (c r : Nat) (v : Byte) :
    s.engineWrite a c r v = .error (.fault (.writeOutOfBuffer a c r)) :=
  State.engineWrite_eq_error.2 (.inr (.inr (.inl ⟨hin, hd, hm, rfl⟩)))

/-- An access that disturbs another operation names an engine. -/
theorem State.peerClash_of_atOnce {clashes : Footprint → Int → Bool} {f : Footprint}
    (hf : s.AtOnce f) (h : clashes f a = true) : ∃ k, s.peerClash clashes a = some k := by
  refine Option.ne_none_iff_exists'.1 fun hnone => ?_
  rw [State.peerClash_eq_none_iff_atOnce.1 hnone f hf] at h
  cases h

/-- A read of an output byte of another operation conflicts (R132 code 9). -/
theorem State.engineRead_conflict (hin : Params.InSpace s.params t.addr)
    (hd : s.isDevice t.addr.toNat = false) (hm : s.mayRead t.addr.toNat = true)
    (h : ∃ f, s.AtOnce f ∧ f.HasOutput t.addr) : ∃ k, s.engineRead t =
      .error (.fault (.concurrentConflict t.addr (.engine s.sel) (.engine k))) := by
  obtain ⟨f, hf, hout⟩ := h
  obtain ⟨k, hk⟩ := State.peerClash_of_atOnce hf (Footprint.clashesRead_iff.2 hout)
  exact ⟨k, State.engineRead_eq_error.2 (.inr (.inr (.inr ⟨hin, hd, hm, k, hk, rfl⟩)))⟩

/-- A write of an input or output byte of another operation conflicts (R132 code 9). -/
theorem State.engineWrite_conflict (hin : Params.InSpace s.params a)
    (hd : s.isDevice a.toNat = false) (hm : s.mayWrite a.toNat = true)
    (h : ∃ f, s.AtOnce f ∧ (f.HasInput a ∨ f.HasOutput a)) : ∃ k, ∀ c r v, s.engineWrite a c r v =
      .error (.fault (.concurrentConflict a (.engine s.sel) (.engine k))) := by
  obtain ⟨f, hf, ha⟩ := h
  obtain ⟨k, hk⟩ := State.peerClash_of_atOnce hf (Footprint.clashesWrite_iff.2 ha)
  exact ⟨k, fun c r v =>
    State.engineWrite_eq_error.2 (.inr (.inr (.inr ⟨hin, hd, hm, k, hk, rfl⟩)))⟩

/-- A read of no such byte is performed. -/
theorem State.engineRead_of_free (hin : Params.InSpace s.params t.addr)
    (hd : s.isDevice t.addr.toNat = false) (hm : s.mayRead t.addr.toNat = true)
    (h : ∀ f, s.AtOnce f → ¬ f.HasOutput t.addr) :
    s.engineRead t = .ok (Memory.read s.mem t.addr.toNat) :=
  State.engineRead_of_ok ⟨hin, hd, hm, State.peerClash_eq_none_iff_atOnce.2 fun f hf =>
    Bool.eq_false_iff.2 (mt Footprint.clashesRead_iff.1 (h f hf))⟩

/-- A write of no such byte is performed. -/
theorem State.engineWrite_of_free (hin : Params.InSpace s.params a)
    (hd : s.isDevice a.toNat = false) (hm : s.mayWrite a.toNat = true)
    (h : ∀ f, s.AtOnce f → ¬ f.HasInput a ∧ ¬ f.HasOutput a)
    (c r : Nat) (v : Byte) : s.engineWrite a c r v = .ok (s.store a.toNat v) :=
  State.engineWrite_eq_ok.2 ⟨⟨hin, hd, hm, State.peerClash_eq_none_iff_atOnce.2 fun f hf =>
    Bool.eq_false_iff.2 (mt Footprint.clashesWrite_iff.1 (not_or.2 (h f hf)))⟩, rfl⟩
end access

theorem YuvOperands.touch_place (o : YuvOperands) (i j n : Nat) :
    (o.touch i j n).column = i ∧ (o.touch i j n).row = j := by
  match n with
  | 0 => exact ⟨rfl, rfl⟩
  | 1 => exact ⟨rfl, rfl⟩
  | _ + 2 => exact ⟨rfl, rfl⟩

/-- Settles O30: the access itself stops so, and a pixel step stops as its first access that
does. -/
theorem accessOutsideBuffersStops : Obligations.AccessOutsideBuffersStops := by
  refine ⟨fun s t hin => ⟨State.engineRead_device hin, State.engineRead_outside hin⟩,
    fun s a c r v hin => ⟨fun hd => State.engineWrite_device hin hd c r v,
      fun hd hm => State.engineWrite_outside hin hd hm c r v⟩, ?_, ?_⟩
  · intro s n hb hc hn o i j a w hl hk
    refine ⟨fun hin hd hm => ?_, fun hr hw hin hd hm => ?_⟩
    · have hread := State.engineRead_outside (t := o.touch i j n) hin hd hm
      rw [(o.touch_place i j n).1, (o.touch_place i j n).2] at hread
      exact exec_stop_read (i := .yuv420ToRgb) hb (hc.trans encode_yuv.symm) hl hn hk hread
    · exact exec_stop_write (i := .yuv420ToRgb) hb (hc.trans encode_yuv.symm) hl hr hn hw
        (State.engineWrite_outside hin hd hm _ _)
  · intro s n hb hc o r c a w hl
    refine ⟨fun hn hk hin hd hm => ?_, fun hn hr hw hin hd hm => ?_⟩
    · exact exec_stop_read (i := .bgraToRgb) hb (hc.trans encode_bgra.symm) hl hn hk
        (State.engineRead_outside hin hd hm)
    · exact exec_stop_write (i := .bgraToRgb) hb (hc.trans encode_bgra.symm) hl hr hn hw
        (State.engineWrite_outside hin hd hm _ _)

/-- Settles O31: the access itself conflicts or is performed, and a pixel step stops as its first
access that conflicts. -/
theorem accessOfAnotherOperationConflicts : Obligations.AccessOfAnotherOperationConflicts := by
  refine ⟨fun s t hin hd hm =>
      ⟨State.engineRead_conflict hin hd hm, State.engineRead_of_free hin hd hm⟩,
    fun s a c r v hin hd hm => ⟨fun h => (State.engineWrite_conflict hin hd hm h).imp
      fun _ hk => hk c r v, fun h => State.engineWrite_of_free hin hd hm h c r v⟩, ?_, ?_⟩
  · intro s n hb hc hn o i j a w hl hk
    refine ⟨fun hin hd hm h => ?_, fun hr hw hin hd hm h => ?_⟩
    · exact (State.engineRead_conflict (t := o.touch i j n) hin hd hm h).imp fun _ hread =>
        exec_stop_read (i := .yuv420ToRgb) hb (hc.trans encode_yuv.symm) hl hn hk hread
    · exact (State.engineWrite_conflict hin hd hm h).imp fun _ hwrite =>
        exec_stop_write (i := .yuv420ToRgb) hb (hc.trans encode_yuv.symm) hl hr hn hw (hwrite _ _)
  · intro s n hb hc o r c a w hl
    refine ⟨fun hn hk hin hd hm h => ?_, fun hn hr hw hin hd hm h => ?_⟩
    · exact (State.engineRead_conflict (t := o.lane r c n) hin hd hm h).imp fun _ hread =>
        exec_stop_read (i := .bgraToRgb) hb (hc.trans encode_bgra.symm) hl hn hk hread
    · exact (State.engineWrite_conflict hin hd hm h).imp fun _ hwrite =>
        exec_stop_write (i := .bgraToRgb) hb (hc.trans encode_bgra.symm) hl hr hn hw (hwrite _ _)

/-! ### What a launch keeps of a step that faults (60_exceptions.md R134) -/

theorem launchStep_of_fault {s : State} {f : Fault} (hr : s.record = none) (h : step s = .fault f) :
    launchStep s = s.halted.recordFault f := by
  simp only [launchStep, h, if_pos hr]

/-- Bringing an instance into place does not look at memory. -/
theorem State.focus_with_mem (s : State) (k : Nat) (m : Memory) :
    ({ s with mem := m } : State).focus k = { s.focus k with mem := m } := by
  unfold State.focus
  split
  · rfl
  · simp only; split <;> rfl

/-- Where an engine has the turn and its step changed memory alone, so does the launch. -/
theorem launchStep_of_turn {s : State} {f : Fault} {k : Nat} {m : Memory} (hs : s.sel = 0)
    (hr : s.record = none) (h : step s = .fault f) (hk : s.turn = some k)
    (hm : engineReached ({ s with events := s.events.tail }.focus k) =
      { ({ s with events := s.events.tail } : State).focus k with mem := m }) :
    launchStep s = { s with events := s.events.tail, record := some f, mem := m } := by
  rw [launchStep_of_fault hr h, State.halted, hk]
  simp only [hm]
  rw [← State.focus_with_mem, State.focus_focus (by exact hs)]
  rfl

section reached
variable {i : Instr} {s : State}

/-- A pixel step that may not make one of its reads has written nothing. -/
theorem engineReached_of_not_readable (hb : s.block.busy = true) (hc : s.block.cmd = encode i)
    (hl : s.block.PixelLeft s.params i)
    (h : ∃ n < readCount i, ¬ s.ReadOk (s.pixelTouch i n).addr) : engineReached s = s := by
  classical
  obtain ⟨hn, hbad⟩ := Nat.find_spec h
  have hk : ∀ m < Nat.find h, s.ReadOk (s.pixelTouch i m).addr := fun m hm => by
    by_contra hno
    exact Nat.find_min h hm ⟨hm.trans hn, hno⟩
  obtain ⟨e, he⟩ := State.engineRead_of_not_ok hbad
  rw [engineReached_of_running hb hc, engineStep_stop_read hl hn hk he]

/-- A pixel step that may not make its write `n` has made the writes before it. -/
theorem engineReached_of_not_writable {n : Nat} (hb : s.block.busy = true)
    (hc : s.block.cmd = encode i) (hl : s.block.PixelLeft s.params i)
    (hk : ∀ m < readCount i, s.ReadOk (s.pixelTouch i m).addr) (hn : n < 3)
    (hw : ∀ m < n, s.WriteOk (s.block.outAt s.params i + (m : Nat)))
    (h : ¬ s.WriteOk (s.block.outAt s.params i + (n : Nat))) :
    engineReached s =
      s.packedPart (s.block.outAt s.params i) (s.pixelByte i 0) (s.pixelByte i 1) n := by
  obtain ⟨e, he⟩ := State.engineWrite_of_not_ok (s.block.pixelColumn i) (s.block.pixelRow i) h
  rw [engineReached_of_running hb hc, engineStep_stop_write hl hk hn hw he]
end reached

/-- A faulting pixel step of the instance that has the turn, for both instructions alike. -/
theorem launchStep_keeps_earlier {s : State} {f : Fault} {k : Nat} {i : Instr} (hs : s.sel = 0)
    (hr : s.record = none) (h : step s = .fault f) (hk : s.turn = some k)
    (hb : (s.focus k).block.busy = true) (hc : (s.focus k).block.cmd = encode i)
    (hl : (s.focus k).block.PixelLeft (s.focus k).params i) :
    let u := s.focus k
    let op := u.block.operationOf u.params i
    let x := u.block.seqOuter i
    let y := u.block.seqInner i
    let a := u.block.outAt u.params i
    let left : Memory → State := fun m =>
      { s with events := s.events.tail, record := some f, mem := m }
    ((∃ n < readCount i, ¬ u.ReadOk (op.touch x y n).addr) → launchStep s = left s.mem) ∧
      ((∀ n < readCount i, u.ReadOk (op.touch x y n).addr) →
        (¬ u.WriteOk a → launchStep s = left s.mem) ∧
        (u.WriteOk a → ¬ u.WriteOk (a + 1) →
          launchStep s = left (Memory.write s.mem a.toNat (op.closedForm s.mem x y 0))) ∧
        (u.WriteOk a → u.WriteOk (a + 1) → ¬ u.WriteOk (a + 2) →
          launchStep s = left (Memory.write (Memory.write s.mem a.toNat (op.closedForm s.mem x y 0))
            (a.toNat + 1) (op.closedForm s.mem x y 1)))) := by
  intro u op x y a left
  have hlaunch : ∀ m, engineReached { u with events := s.events.tail } =
      { u with events := s.events.tail, mem := m } → launchStep s = left m := fun m hm => by
    refine launchStep_of_turn hs hr h hk ?_
    rw [State.focus_with_events]
    exact hm
  have hmem : u.mem = s.mem := State.focus_mem s k
  have hwrite : ∀ n < 3, (∀ m < readCount i, u.ReadOk (op.touch x y m).addr) →
      (∀ m < n, u.WriteOk (a + (m : Nat))) → ¬ u.WriteOk (a + (n : Nat)) →
      engineReached { u with events := s.events.tail } =
        ({ u with events := s.events.tail } : State).packedPart a (op.closedForm u.mem x y 0)
          (op.closedForm u.mem x y 1) n := fun n hn hreads hw hbad =>
    engineReached_of_not_writable (i := i) (s := { u with events := s.events.tail }) hb hc hl hreads
      hn hw hbad
  refine ⟨fun hbad => hlaunch s.mem ?_, fun hreads => ⟨fun h0 => hlaunch _ ?_,
    fun w0 h1 => hlaunch _ ?_, fun w0 w1 h2 => hlaunch _ ?_⟩⟩
  · rw [← hmem]
    exact engineReached_of_not_readable (i := i) (s := { u with events := s.events.tail }) hb hc hl
      hbad
  · rw [hwrite 0 (by decide) hreads (by simp) (by simpa using h0), ← hmem]
    rfl
  · rw [hwrite 1 (by decide) hreads (fun m hm => ?_) h1, ← hmem]
    · rfl
    · obtain rfl : m = 0 := by omega
      simpa using w0
  · rw [hwrite 2 (by decide) hreads (fun m hm => ?_) h2, ← hmem]
    · have hnext : (a + 1).toNat = a.toNat + 1 := by have := w0.1.1; omega
      rw [← hnext]
      rfl
    · obtain rfl | rfl : m = 0 ∨ m = 1 := by omega
      · simpa using w0
      · exact w1

/-- Settles O47: a host action leaves the state but for the record, and an engine's step the bytes
it wrote before it stopped. -/
theorem faultingStepKeepsEarlierAccesses : Obligations.FaultingStepKeepsEarlierAccesses := by
  intro s f hs hr h left
  refine ⟨fun hnone => ?_, ?_⟩
  · rw [launchStep_of_fault hr h, State.halted, hnone]
    rfl
  · intro k hk u hb
    exact ⟨fun hc => launchStep_keeps_earlier (i := .yuv420ToRgb) hs hr h hk hb
      (hc.trans encode_yuv.symm), fun hc => launchStep_keeps_earlier (i := .bgraToRgb) hs hr h hk hb
      (hc.trans encode_bgra.symm)⟩

end Sys2Proof.Machine
end

section
/-!
PROOFS. The host interface: commands, register reads, the host's memory, buffers, WAIT, and the
idle machine (30_encoding.md R61 to R69, 20_memory.md R35, R41, R45, R54, 43_host_interface.md R115
to R125, 60_exceptions.md R137, 70_reset_and_hazards.md R155).
-/
namespace Sys2Proof.Machine

/-! ### Commands -/

/-- Settles O1: each word is decoded by computing its two fields. -/
theorem knownCommandWords : Obligations.KnownCommandWords := by
  unfold Obligations.KnownCommandWords
  decide

/-- Settles O4: the value does not fit `CMD`, so it is rejected before it is decoded. -/
theorem tooWideCommandValueStops : Obligations.TooWideCommandValueStops := by
  intro s v hb hv
  exact hostWrite_cmd_of_reject (r := .tooWide v) hb (if_neg (not_lt.2 hv))

/-- Settles O37: register 8 is a writable register, and BUSY is looked at before the word is
decoded. -/
theorem commandWriteWhileBusyStops : Obligations.CommandWriteWhileBusyStops :=
  fun _ v hb => hostWrite_of_busy hb (le_refl 8) v

/-- A write of a command to an instance that is not BUSY runs the instruction (R66, R117). -/
theorem hostWrite_cmd_of_decode {s : State} {v : Word} {i : Instr} (hb : s.block.busy = false)
    (hv : decodeValue v = .ok i) : hostWrite 8 v s = exec i s := by
  simp [hostWrite, hb, startCommand, hv]

/-- On an instance that exists, an action runs with the instance brought into place and back. -/
theorem onBlock_of_le {k : Nat} {act : State → Host.Outcome State Fault Refusal} {s : State}
    (hk : k ≤ s.peers.length) : onBlock k act s = mapNext (fun t => t.focus k) (act (s.focus k)) :=
  if_pos hk

/-- Settles O5: a CMD write, an engine's turn and the idle schedule each come down to `exec`, on the
acting instance brought into place. -/
theorem stepRunsDecodedInstruction : Obligations.StepRunsDecodedInstruction := by
  refine ⟨fun s k v rest i hr he hk hb hv => ?_, fun s k rest i hr he hk hb hc => ?_,
    fun s k i hr he hk hc => ?_⟩
  · rw [step_of_event hr he, runEvent, onBlock_of_le (by exact hk),
      hostWrite_cmd_of_decode (by rw [State.focus_block_events]; exact hb) hv]
  · rw [step_of_event hr he, runEvent, onBlock_of_le (by exact hk),
      engineTurn_of_busy (by rw [State.focus_block_events]; exact hb)
        (by rw [State.focus_block_events]; exact decode_eq_ok_iff.1 hc)]
  · obtain ⟨hle, hb⟩ := State.firstBusy_eq_some hk
    rw [step_of_idle hr he, runIdle, hk]
    simp only
    rw [onBlock_of_le hle, engineTurn_of_busy hb (decode_eq_ok_iff.1 hc)]

/-- A table word that decodes is the instruction's command word, as a value and as contents of
`CMD`. -/
theorem decodeTableWord_eq_some {nbits w : Nat} {i : Instr} (h : decodeTableWord nbits w = some i) :
    decodeValue (BitVec.ofNat 64 (w % 2 ^ nbits)) = .ok i ∧
      (BitVec.ofNat 64 (w % 2 ^ nbits)).setWidth 32 = encode i := by
  unfold decodeTableWord at h
  split at h
  · next j hj hlt =>
    obtain rfl := Option.some.inj h
    refine ⟨hj, ?_⟩
    unfold decodeValue at hj
    split at hj
    · exact decode_eq_ok_iff.1 hj
    · cases hj
  · cases h

/-- Settles O6: the made state has the word as the host's next write of `CMD`, or, while BUSY, in
`CMD` with the engine's turn next. -/
theorem fetchWordRunsDecodedInstruction : Obligations.FetchWordRunsDecodedInstruction := by
  intro s nbits w i h
  obtain ⟨hv, hc⟩ := decodeTableWord_eq_some h
  by_cases hb : s.block.busy = true
  · rw [if_pos hb, State.withFetchWord]
    simp only [if_pos hb, hc]
    rw [step_of_event rfl rfl, runEvent, onBlock_zero]
    exact engineTurn_of_busy (i := i) hb rfl
  · rw [if_neg hb, State.withFetchWord]
    simp only [if_neg hb]
    rw [step_of_event rfl rfl, runEvent, onBlock_zero]
    exact hostWrite_cmd_of_decode (by simpa using hb) hv

/-! ### Register reads and WAIT -/

/-- A host read of a register number that names a register, `STATUS` excepted (R115). -/
theorem hostRead_of_readReg {s : State} {n : Nat} {v : Word} (hn : n ≠ 9)
    (h : s.block.readReg (Config.freeWord s.free) n = some v) :
    hostRead n s = .next { s with readData := some v, free := s.free + 1 } := by
  simp only [hostRead, h, if_neg hn]
  rfl

/-- A host read of `STATUS` (R115, log 13). -/
theorem hostRead_status (s : State) : hostRead 9 s = .next { s with
    readData := some (s.block.status.setWidth 64), free := s.free + 1,
    unread := s.unread.filter fun e => !s.block.done || e.block != s.sel } := by
  have hread : s.block.readReg (Config.freeWord s.free) 9 = some (s.block.status.setWidth 64) := rfl
  simp only [hostRead, hread, if_true, State.sawStatus_eq, State.returns]
  cases hd : s.block.done <;> simp

/-- Settles O34: the value read is a register's, or a free one, and the numbers from 10 up name
none. -/
theorem registerReadHasNoSideEffect : Obligations.RegisterReadHasNoSideEffect := by
  refine fun s n => ⟨fun hn hw => hostRead_of_readReg (by omega) ?_,
    fun hn hw => hostRead_of_readReg (by omega) ?_, ?_, ?_, fun hn => hostRead_reserved hn s⟩
  · rw [Block.readReg, dif_pos hn, if_pos hw]
  · rw [Block.readReg, dif_pos hn, if_neg (by simp [hw])]
  · rintro rfl
    exact hostRead_of_readReg (by decide) rfl
  · rintro rfl
    exact hostRead_status s

/-- Settles O41: with DONE set the WAIT is a read of STATUS; else the engine's turn and the WAIT
come next. -/
theorem waitPollsUntilDone : Obligations.WaitPollsUntilDone := by
  refine fun s k => ⟨fun hd => ?_, fun hd => ?_⟩
  · rw [hostWait, if_pos hd, State.sawStatus_eq]
    simp only [State.returns, hd, if_true]
  · rw [hostWait, if_neg (by simp [hd])]
    rfl

/-- Settles O42: with no instance BUSY there is no engine to have the turn. -/
theorem idleEngineChangesNothing : Obligations.IdleEngineChangesNothing := by
  refine ⟨fun s hb => ?_, fun s hr he hb hpeers => ?_⟩
  · rw [engineTurn, if_neg (by simp [hb])]
  · have hnone : s.firstBusy = none := by
      rw [State.firstBusy, if_neg (by simp [hb]), List.findIdx?_eq_none_iff.2 hpeers]
      rfl
    rw [step_of_idle hr he, runIdle, hnone]

/-! ### The host's memory -/

/-- An access that disturbs an operation that is not over names an instance. -/
theorem State.hostClash_of_notOver {s : State} {clashes : Footprint → Int → Bool} {a : Int}
    {f : Footprint} (hf : s.NotOver f) (h : clashes f a = true) :
    ∃ k, s.hostClash clashes a = some k := by
  refine Option.ne_none_iff_exists'.1 fun hnone => ?_
  rw [State.hostClash_eq_none_iff_notOver.1 hnone f hf] at h
  cases h

section hostMemory
variable {s : State} {a : Nat} {k : Nat} (v : Byte)

theorem Params.inSpace_of_lt {p : Params} (h : a < 2 ^ p.aw) : Params.InSpace p a :=
  ⟨by omega, by exact_mod_cast h⟩

theorem Params.not_inSpace_of_le {p : Params} (h : 2 ^ p.aw ≤ a) : ¬ Params.InSpace p a := by
  rintro ⟨_, hlt⟩
  have hlt' : a < 2 ^ p.aw := by exact_mod_cast hlt
  omega

/-- A host write of ordinary memory is performed or conflicts (R45). -/
theorem hostMemWrite_ordinary (ha : a < 2 ^ s.params.aw) (hd : s.isDevice a = false) :
    (∀ k, s.hostClash Footprint.clashesWrite a = some k →
      hostMemWrite a v s = .fault (.concurrentConflict a .host (.engine k))) ∧
    (s.hostClash Footprint.clashesWrite a = none → hostMemWrite a v s = .next (s.store a v)) := by
  rw [hostMemWrite, if_neg (not_not.2 (Params.inSpace_of_lt ha)), if_neg (by simp [hd])]
  exact ⟨fun k hk => by rw [hk], fun hnone => by rw [hnone]⟩

/-- A host read of ordinary memory is performed or conflicts (R45). -/
theorem hostMemRead_ordinary (ha : a < 2 ^ s.params.aw) (hd : s.isDevice a = false) :
    (∀ k, s.hostClash Footprint.clashesRead a = some k →
      hostMemRead a s = .fault (.concurrentConflict a .host (.engine k))) ∧
    (s.hostClash Footprint.clashesRead a = none →
      hostMemRead a s = .next (s.returns ((Memory.read s.mem a).setWidth 64))) := by
  rw [hostMemRead, if_neg (not_not.2 (Params.inSpace_of_lt ha)), if_neg (by simp [hd])]
  exact ⟨fun k hk => by rw [hk], fun hnone => by rw [hnone]⟩
end hostMemory

/-- Settles O38: outside the address space, on a device, in conflict, or performed. -/
theorem hostMemoryAccess : Obligations.HostMemoryAccess := by
  refine fun s a v => ⟨fun hout => ?_, fun ha hd => ?_, fun ha hd => ?_⟩
  · have hno := Params.not_inSpace_of_le hout
    rw [hostMemWrite, hostMemRead, if_pos hno, if_pos hno]
    exact ⟨rfl, rfl⟩
  · have hin := not_not.2 (Params.inSpace_of_lt ha)
    rw [hostMemWrite, hostMemRead, if_neg hin, if_neg hin, if_pos hd, if_pos hd]
    exact ⟨rfl, rfl⟩
  · obtain ⟨hwconflict, hwfree⟩ := hostMemWrite_ordinary v ha hd
    obtain ⟨hrconflict, hrfree⟩ := hostMemRead_ordinary ha hd
    refine ⟨?_, fun h => hwfree ?_, ?_, fun h => hrfree ?_⟩
    · rintro ⟨f, hf, hfa⟩
      obtain ⟨k, hk⟩ := State.hostClash_of_notOver hf (Footprint.clashesWrite_iff.2 hfa)
      exact ⟨k, hwconflict k hk⟩
    · exact State.hostClash_eq_none_iff_notOver.2 fun f hf =>
        Bool.eq_false_iff.2 (mt Footprint.clashesWrite_iff.1 (not_or.2 (h f hf)))
    · rintro ⟨f, hf, hfa⟩
      obtain ⟨k, hk⟩ := State.hostClash_of_notOver hf (Footprint.clashesRead_iff.2 hfa)
      exact ⟨k, hrconflict k hk⟩
    · exact State.hostClash_eq_none_iff_notOver.2 fun f hf =>
        Bool.eq_false_iff.2 (mt Footprint.clashesRead_iff.1 (h f hf))

/-! ### Buffers -/

/-- A byte of a running operation of which the predicates hold is named, or there is none (logs 17,
22 and 23). -/
theorem State.runningByte?_cases (s : State) (reads writes : Nat → Bool) :
    (∃ f, s.Running f ∧
      ((∃ u ∈ f.reads, reads u.addr.toNat = true ∧
          s.runningByte? reads writes = some (.readOutOfBuffer u.addr u.column u.row u.plane)) ∨
        ∃ n < f.outLen, writes (f.outBase + n) = true ∧ s.runningByte? reads writes =
          some (.writeOutOfBuffer (f.outBase + n : Nat) (f.outColumn n) (f.outRow n)))) ∨
    (s.runningByte? reads writes = none ∧ ∀ f, s.Running f →
      (∀ u ∈ f.reads, reads u.addr.toNat = false) ∧
        ∀ n < f.outLen, writes (f.outBase + n) = false) := by
  rcases hbyte : s.runningByte? reads writes with _ | x
  · exact .inr ⟨rfl, fun f hf =>
      Footprint.firstByte?_eq_none.1 (State.runningByte?_eq_none.1 hbyte f hf)⟩
  · obtain ⟨f, hf, hx⟩ := State.runningByte?_eq_some hbyte
    rcases Footprint.firstByte?_eq_some hx with ⟨u, hu, hr, rfl⟩ | ⟨n, hn, hw, rfl⟩
    · exact .inl ⟨f, hf, .inl ⟨u, hu, hr, rfl⟩⟩
    · exact .inl ⟨f, hf, .inr ⟨n, hn, hw, rfl⟩⟩

theorem hostFree_of_byte {base : Nat} {s : State} {x : Fault}
    (h : s.runningByte? (fun a => (s.buffersAt base).any fun r => r.readableAt a)
      (fun a => (s.buffersAt base).any fun r => r.writableAt a) = some x) :
    hostFree base s = .fault x := by simp only [hostFree, h]

theorem hostFree_of_none {base : Nat} {s : State}
    (h : s.runningByte? (fun a => (s.buffersAt base).any fun r => r.readableAt a)
      (fun a => (s.buffersAt base).any fun r => r.writableAt a) = none) :
    hostFree base s = .next { s with
      regions := s.regions.filter fun r => !(r.base == base && r.kind == .ordinary) } := by
  simp only [hostFree, h]

/-- What a freed buffer serves (R54). -/
theorem State.any_buffersAt {s : State} {base : Nat} {P : Region → Bool} :
    (s.buffersAt base).any P = true ↔
      ∃ r, (r ∈ s.regions ∧ r.base = base ∧ r.kind = .ordinary) ∧ P r = true := by
  simp [State.buffersAt, and_assoc]

/-- Settles O39: the free names a byte of a running operation that a freed buffer serves, where
there is one, and else frees. -/
theorem freeingBuffersOfRunningOperationStops :
    Obligations.FreeingBuffersOfRunningOperationStops := by
  intro s base freed needsRead needsWrite
  rcases s.runningByte?_cases (fun a => (s.buffersAt base).any fun r => r.readableAt a)
      (fun a => (s.buffersAt base).any fun r => r.writableAt a) with
    ⟨f, hf, ⟨u, hu, hr, hbyte⟩ | ⟨n, hn, hw, hbyte⟩⟩ | ⟨hnone, hfree⟩
  · have hneeds : needsRead f u := ⟨hf, hu, State.any_buffersAt.1 hr⟩
    exact ⟨fun _ => .inl ⟨f, u, hneeds, hostFree_of_byte hbyte⟩,
      fun hno _ => absurd ⟨f, u, hneeds⟩ hno⟩
  · have hneeds : needsWrite f n := ⟨hf, hn, State.any_buffersAt.1 hw⟩
    exact ⟨fun _ => .inr ⟨f, n, hneeds, hostFree_of_byte hbyte⟩,
      fun _ hno => absurd ⟨f, n, hneeds⟩ hno⟩
  · refine ⟨?_, fun _ _ => hostFree_of_none hnone⟩
    rintro (⟨f, u, hf, hu, hr⟩ | ⟨f, n, hf, hn, hw⟩)
    · exact absurd ((State.any_buffersAt.2 hr).symm.trans ((hfree f hf).1 u hu)) nofun
    · exact absurd ((State.any_buffersAt.2 hw).symm.trans ((hfree f hf).2 n hn)) nofun

theorem hostAlloc_of_byte {r : Region} {s : State} {x : Fault}
    (h : s.runningByte? (fun a => r.readableAt a && !s.mayRead a)
      (fun a => r.writableAt a && !s.mayWrite a) = some x) : hostAlloc r s = .fault x := by
  simp only [hostAlloc, h]

theorem hostAlloc_of_none {r : Region} {s : State}
    (h : s.runningByte? (fun a => r.readableAt a && !s.mayRead a)
      (fun a => r.writableAt a && !s.mayWrite a) = none) :
    hostAlloc r s = .next { s with regions := r :: s.regions } := by
  simp only [hostAlloc, h]

/-- Settles O40: the allocation names a byte of a running operation that it first makes accessible,
where there is one, and else adds the buffer. -/
theorem allocatingBuffers : Obligations.AllocatingBuffers := by
  intro s r getsRead getsWrite
  have hnew : ∀ {x y : Bool}, (x && !y) = true ↔ x = true ∧ y = false := by decide
  rcases s.runningByte?_cases (fun a => r.readableAt a && !s.mayRead a)
      (fun a => r.writableAt a && !s.mayWrite a) with
    ⟨f, hf, ⟨u, hu, hr, hbyte⟩ | ⟨n, hn, hw, hbyte⟩⟩ | ⟨hnone, hfree⟩
  · have hgets : getsRead f u := ⟨hf, hu, hnew.1 hr⟩
    exact ⟨fun _ => .inl ⟨f, u, hgets, hostAlloc_of_byte hbyte⟩,
      fun hno _ => absurd ⟨f, u, hgets⟩ hno⟩
  · have hgets : getsWrite f n := ⟨hf, hn, hnew.1 hw⟩
    exact ⟨fun _ => .inr ⟨f, n, hgets, hostAlloc_of_byte hbyte⟩,
      fun _ hno => absurd ⟨f, n, hgets⟩ hno⟩
  · refine ⟨?_, fun _ _ => ⟨_, hostAlloc_of_none hnone, rfl, fun a => ⟨rfl, rfl⟩⟩⟩
    rintro (⟨f, u, hf, hu, hr⟩ | ⟨f, n, hf, hn, hw⟩)
    · exact absurd ((hnew.2 hr).symm.trans ((hfree f hf).1 u hu)) nofun
    · exact absurd ((hnew.2 hw).symm.trans ((hfree f hf).2 n hn)) nofun

end Sys2Proof.Machine
end

section
/-!
PROOFS. Reset and the fault record (10_state.md R30, R31, 60_exceptions.md R133,
70_reset_and_hazards.md R150 to R152).
-/
namespace Sys2Proof.Machine

/-- Settles O44: the values R31 gives, read off the reset state. -/
theorem resetState : Obligations.ResetState := by
  unfold Obligations.ResetState
  decide

/-- A reset of an idle machine leaves memory as it is (R150). -/
theorem State.platformReset_mem_of_idle {s : State} (h : ∀ b ∈ s.block :: s.peers, b.busy = false) :
    s.platformReset.mem = s.mem := by
  refine s.platformReset_mem_induct (P := fun m => m = s.mem) rfl fun m k b hb f hf _ => ?_
  have hbusy := (Block.footprint?_running hf).1
  rw [h b hb] at hbusy
  cases hbusy

/-- A reset leaves every byte outside the output sets of the operations it aborts (R152). -/
theorem State.read_platformReset {s : State} {a : Nat} (h : ∀ b ∈ s.block :: s.peers, ∀ f,
    b.footprint? s.params = some f → ¬ f.HasOutput a) :
    Memory.read s.platformReset.mem a = Memory.read s.mem a := by
  refine s.platformReset_mem_induct (P := fun m => Memory.read m a = Memory.read s.mem a) rfl
    fun m k b hb f hf hm => ?_
  have hout := h b hb f hf
  have houtside : a < f.outBase ∨ f.outBase + f.outLen ≤ a := by
    simp only [Footprint.HasOutput] at hout; omega
  rw [Memory.read_spoil_of_outside m houtside, hm]

/-- Settles O45: the step is the reset, whatever the fault record. -/
theorem resetEvent : Obligations.ResetEvent := by
  intro s rest he
  have hstep := step_of_reset (s := s) (by rw [State.ResetNext, he]; rfl)
  rw [he, List.tail_cons] at hstep
  obtain ⟨hparams, -, hevents, hregions, hlen⟩ :=
    ({ s with events := rest } : State).platformReset_shape
  refine ⟨_, hstep, rfl, hevents, hparams, hregions, hlen, rfl, rfl, fun b hb => ?_,
    State.platformReset_mem_of_idle (s := { s with events := rest }),
    fun a => State.read_platformReset (s := { s with events := rest })⟩
  obtain rfl := State.platformReset_blocks _ b hb
  exact ⟨rfl, rfl, by decide⟩

/-- With a fault recorded and no reset next, a step stops with that fault (R133, log 12). -/
theorem step_of_faulted {s : State} {f : Fault} (hf : s.record = some f) (hr : ¬ s.ResetNext) :
    step s = .fault f := by
  simp only [step, hf, runFaulted]
  split
  · next rest he => exact absurd (by rw [State.ResetNext, he]; rfl) hr
  · rfl

/-- Settles O46: a launch records the fault of its step; with one recorded it drops actions up to a
reset, which clears the record. -/
theorem faultIsSticky : Obligations.FaultIsSticky := by
  refine ⟨fun s f h => ?_, fun s f hf hr => ?_, fun s f hf hr => ?_⟩
  · by_cases hnone : s.record = none
    · rw [launchStep_of_fault hnone h]
      rfl
    · obtain ⟨g, hg⟩ := Option.ne_none_iff_exists'.1 hnone
      have hr : ¬ s.ResetNext := fun hr => by rw [step_of_reset hr] at h; cases h
      have hfg : f = g := by
        rw [step_of_faulted hg hr] at h
        exact (Host.Outcome.fault.inj h).symm
      simp only [launchStep, h, if_neg hnone]
      rw [hg, hfg]
  · have hsome : s.record ≠ none := by simp [hf]
    refine ⟨step_of_faulted hf hr, ?_⟩
    simp only [launchStep, step_of_faulted hf hr, if_neg hsome]
  · simp only [launchStep, step_of_reset hr]
    rfl

end Sys2Proof.Machine
end
